-- ==== Sys2Proof/Word.lean ====
section
/-! DEFINITION. The block's fixed widths (00_scope R9): 32-bit bus data, registers and command words, 8-bit symbols,
and byte sequences (R11) as lists, with byte sequences of a known length. -/

namespace Sys2Proof

/-- A register, command word or bus datum (R9). -/
abbrev Word := BitVec 32

/-- A byte or symbol code (R9, R13). -/
abbrev Byte := BitVec 8

/-- A byte sequence of length exactly `n` (R11), as the external IP returns it (R100, R101). -/
abbrev Bytes (n : Nat) := { l : List Byte // l.length = n }

end Sys2Proof
end

