-- ==== Sys2Proof/Syntax.lean ====
section
/-! DEFINITION. Syntax: the nine commands of spec/opcode_table.json (30_encoding R61), the alphabet identifiers
(00_scope R14), and the host's statements (R67). -/

namespace Sys2Proof

/-- The commands of R61. `asel` is the raw 3-bit field w[10:8] (R59): values 4 to 7 can be written (R67) and are not
well formed (R62). -/
inductive Instr where
  | nop
  | alphaLoad
  | b32Encode (asel : BitVec 3)
  | b32Decode (asel : BitVec 3)
  | envSerialize
  | envParse
  | envEncrypt
  | envDecrypt
  | softReset
deriving DecidableEq, Repr

/-- The four alphabets, ids 0 to 3 (R14). -/
inductive AlphaId where
  | rfc4648
  | crockford
  | wordsafe
  | custom
deriving DecidableEq, Repr

/-- The width of a bus access: 1, 2 or 4 bytes (20_memory R49). -/
inductive Width where
  | w8
  | w16
  | w32
deriving DecidableEq, Repr

/-- The host's primitive statements (R67): `ld8/ld16/ld32`, `st8/st16/st32` and the loop `bnz32`, its label resolved to
the index of a statement. By R69 a list of them is the encoding of a host program. -/
inductive Stmt where
  | ld (width : Width) (off : Nat)
  | st (width : Width) (off : Nat) (v : Word)
  | bnz32 (off : Nat) (mask : Word) (label : Nat)
deriving DecidableEq, Repr

end Sys2Proof
end

