-- ==== Sys2Proof/WellFormed.lean ====
section
/-! DEFINITION. Well-formed commands: the operand condition of `Legal` (30_encoding R62), ASEL at most 3 for B32_ENCODE
and B32_DECODE. The other commands have no operand. -/

namespace Sys2Proof

def Instr.wellFormed : Instr → Bool
  | .nop => true
  | .alphaLoad => true
  | .b32Encode asel => decide (asel ≤ 3)
  | .b32Decode asel => decide (asel ≤ 3)
  | .envSerialize => true
  | .envParse => true
  | .envEncrypt => true
  | .envDecrypt => true
  | .softReset => true

abbrev Instr.WellFormed (i : Instr) : Prop := i.wellFormed = true

end Sys2Proof
end

