-- ==== Sys2Proof/Decode.lean ====
section
/-! DEFINITION. The command decoder (30_encoding R59 to R64), total on all 2^32 words and rejecting by name, and the
encoder written from the same table. -/

namespace Sys2Proof

/-- Why a word is not legal (R62): the names are the model's; the block reports ILLEGAL_COMMAND for all of them. -/
inductive DecodeError where
  /-- w[31:11] ≠ 0. -/
  | reservedBits
  /-- w[7:0] is no opcode of R61. -/
  | reservedOpcode
  /-- w[10:8] is not allowed for the opcode. -/
  | badAsel
deriving DecidableEq, Repr

/-- R59: OP = w[7:0]. -/
def opField (w : Word) : Byte := w.extractLsb' 0 8

/-- R59: ASEL = w[10:8]. -/
def aselField (w : Word) : BitVec 3 := w.extractLsb' 8 3

/-- R59: RSVD = w[31:11]. -/
def rsvdField (w : Word) : BitVec 21 := w.extractLsb' 11 21

/-- A command with no operand: ASEL must be 0 (R61). -/
def decodePlain (asel : BitVec 3) (i : Instr) : Except DecodeError Instr :=
  if asel = 0 then .ok i else .error .badAsel

/-- B32_ENCODE and B32_DECODE: ASEL 0 to 3 (R61). -/
def decodeAsel (asel : BitVec 3) (i : BitVec 3 → Instr) : Except DecodeError Instr :=
  if asel ≤ 3 then .ok (i asel) else .error .badAsel

/-- The opcode map (R61, R64) on a word whose reserved bits are 0. -/
def decodeFields (op : Byte) (asel : BitVec 3) : Except DecodeError Instr :=
  if op = 0x00 then decodePlain asel .nop
  else if op = 0x01 then decodePlain asel .alphaLoad
  else if op = 0x02 then decodeAsel asel .b32Encode
  else if op = 0x03 then decodeAsel asel .b32Decode
  else if op = 0x10 then decodePlain asel .envSerialize
  else if op = 0x11 then decodePlain asel .envParse
  else if op = 0x20 then decodePlain asel .envEncrypt
  else if op = 0x21 then decodePlain asel .envDecrypt
  else if op = 0xFF then decodePlain asel .softReset
  else .error .reservedOpcode

/-- `Decode` (R64). -/
def decode (w : Word) : Except DecodeError Instr :=
  if rsvdField w ≠ 0 then .error .reservedBits else decodeFields (opField w) (aselField w)

/-- The opcode of a command (R61). -/
def Instr.opcode : Instr → Byte
  | .nop => 0x00
  | .alphaLoad => 0x01
  | .b32Encode _ => 0x02
  | .b32Decode _ => 0x03
  | .envSerialize => 0x10
  | .envParse => 0x11
  | .envEncrypt => 0x20
  | .envDecrypt => 0x21
  | .softReset => 0xFF

/-- The ASEL field of a command (R61). -/
def Instr.asel : Instr → BitVec 3
  | .nop => 0
  | .alphaLoad => 0
  | .b32Encode a => a
  | .b32Decode a => a
  | .envSerialize => 0
  | .envParse => 0
  | .envEncrypt => 0
  | .envDecrypt => 0
  | .softReset => 0

/-- The command word of a command (R59, R68). It is defined for ill-formed commands too: those are the words of R63. -/
def encode (i : Instr) : Word := (0 : BitVec 21) ++ i.asel ++ i.opcode

/-- The command the decoder reads from an instruction of `nbits` bits; the bits above them are 0. A command is one 32-bit
word (R65). -/
def decodeTableWord (nbits w : Nat) : Option Instr :=
  let v := w % 2 ^ nbits
  if v < 2 ^ 32 then
    match decode (BitVec.ofNat 32 v) with
    | .ok i => some i
    | .error _ => none
  else none

end Sys2Proof
end

