-- ==== Sys2Proof/Config.lean ====
section
/-! DEFINITION. What an implementation fixes (00_scope R8): the parameters, as plain data that carries the legal ranges,
the external IP as functions, and the free values. The free values are opaque constants with no body: no proof can see
what they are. -/

namespace Sys2Proof

/-- A symbol table: an ordered sequence of exactly 32 symbols (10_state R39). -/
structure Table where
  syms : List Byte
  len : syms.length = 32
deriving DecidableEq, Repr

/-- R71: the 32 symbols are pairwise distinct. -/
abbrev Table.Valid (t : Table) : Prop := t.syms.Nodup

/-- The envelope delimiter, the symbol `U` (41_envelope_framing R91). -/
def delimiter : Byte := 0x55

/-- The parameters of R8 that are data, with their legal values. The host reads every one of them (10_state R31, R32,
R41). -/
structure Params where
  inCap : Nat
  outCap : Nat
  pwCap : Nat
  saltCap : Nat
  ctCap : Nat
  /-- SHA3_SUPPORTED. -/
  sha3 : Bool
  /-- PRESET_TABLE(0). -/
  rfc4648 : Table
  /-- PRESET_TABLE(1). -/
  crockford : Table
  /-- PRESET_TABLE(2). -/
  wordsafe : Table
  inCap_legal : 32 ≤ inCap ∧ inCap ≤ 65536
  outCap_legal : 1 ≤ outCap ∧ outCap ≤ 65536
  pwCap_legal : 1 ≤ pwCap ∧ pwCap ≤ 65536
  saltCap_legal : 1 ≤ saltCap ∧ saltCap ≤ 65536
  ctCap_legal : 1 ≤ ctCap ∧ ctCap ≤ 65536
  rfc4648_valid : rfc4648.Valid
  crockford_valid : crockford.Valid
  wordsafe_valid : wordsafe.Valid
  /-- R8: CROCKFORD must not contain 0x55. -/
  crockford_no_delimiter : crockford.syms.contains delimiter = false
deriving DecidableEq, Repr

/-- The external IP (R8, R100 to R104). `rng` takes the number of the draw first, so that two draws need not agree. The
key-derivation output is always 48 bytes (R101), the key 32 and the IV 16 (R102, R103). -/
structure ExtIP where
  rng : Nat → (n : Nat) → Option (Bytes n)
  kdf : (pw salt : List Byte) → (iterations : Word) → (tag : Byte) → Option (Bytes 48)
  cipherEnc : (key : Bytes 32) → (iv : Bytes 16) → (pt : List Byte) → Option (List Byte)
  cipherDec : (key : Bytes 32) → (iv : Bytes 16) → (ct : List Byte) → Option (List Byte)

/-- R105: the one property of the cipher that may be assumed. It is a hypothesis where it is used, never a fact. -/
def ExtIP.CipherInverse (ip : ExtIP) : Prop :=
  ∀ key iv pt ct, ip.cipherEnc key iv pt = some ct → ip.cipherDec key iv ct = some pt

/-- FREE VALUE (R100): the random source's answer to draw `k` of `n` bytes. -/
opaque Config.rng : Nat → (n : Nat) → Option (Bytes n)

/-- Configuration function KDF (R101). -/
opaque Config.kdf : List Byte → List Byte → Word → Byte → Option (Bytes 48)

/-- Configuration function CIPHER_ENC (R103). -/
opaque Config.cipherEnc : Bytes 32 → Bytes 16 → List Byte → Option (List Byte)

/-- Configuration function CIPHER_DEC (R104). -/
opaque Config.cipherDec : Bytes 32 → Bytes 16 → List Byte → Option (List Byte)

/-- FREE VALUE (R132): the byte that reset number `k` leaves at window offset `a` of a buffer. -/
opaque Config.resetByte : (k a : Nat) → Byte

/-- FREE VALUE (log 13): what the 32-bit ERRPOS shows for a length of 2^32 or more; R115 states no such value. -/
opaque Config.wideCount : Nat → Word

/-- The machine's external IP. -/
def Config.ip : ExtIP where
  rng := Config.rng
  kdf := Config.kdf
  cipherEnc := Config.cipherEnc
  cipherDec := Config.cipherDec

end Sys2Proof
end

