-- ==== Sys2Proof/Machine/Presets.lean ====
section
/-! DEFINITION. The default preset tables (40_base32_codec R70) and the reference configuration (00_scope R8). -/

namespace Sys2Proof.Machine

/-- PRESUMED (log 6): R70's RFC4648 column, value 0 first. -/
def rfc4648Table : Table where
  syms := [0x41, 0x42, 0x43, 0x44, 0x45, 0x46, 0x47, 0x48, 0x49, 0x4A, 0x4B, 0x4C, 0x4D, 0x4E, 0x4F, 0x50] ++
    [0x51, 0x52, 0x53, 0x54, 0x55, 0x56, 0x57, 0x58, 0x59, 0x5A, 0x32, 0x33, 0x34, 0x35, 0x36, 0x37]
  len := by decide

/-- PRESUMED (log 6): R70's CROCKFORD column. -/
def crockfordTable : Table where
  syms := [0x30, 0x31, 0x32, 0x33, 0x34, 0x35, 0x36, 0x37, 0x38, 0x39, 0x41, 0x42, 0x43, 0x44, 0x45, 0x46] ++
    [0x47, 0x48, 0x4A, 0x4B, 0x4D, 0x4E, 0x50, 0x51, 0x52, 0x53, 0x54, 0x56, 0x57, 0x58, 0x59, 0x5A]
  len := by decide

/-- PRESUMED (log 6): R70's WORDSAFE column. -/
def wordsafeTable : Table where
  syms := [0x32, 0x33, 0x34, 0x35, 0x36, 0x37, 0x38, 0x39, 0x43, 0x46, 0x47, 0x48, 0x4A, 0x4D, 0x50, 0x51] ++
    [0x52, 0x56, 0x57, 0x58, 0x63, 0x66, 0x67, 0x68, 0x6A, 0x6D, 0x70, 0x71, 0x72, 0x76, 0x77, 0x78]
  len := by decide

/-- The reference configuration (R8). DESIGN CHOICE (log 5): `State.reset` has it. -/
def referenceParams : Params where
  inCap := 4096
  outCap := 4096
  pwCap := 256
  saltCap := 256
  ctCap := 4096
  sha3 := true
  rfc4648 := rfc4648Table
  crockford := crockfordTable
  wordsafe := wordsafeTable
  inCap_legal := by decide
  outCap_legal := by decide
  pwCap_legal := by decide
  saltCap_legal := by decide
  ctCap_legal := by decide
  rfc4648_valid := by decide
  crockford_valid := by decide
  wordsafe_valid := by decide
  crockford_no_delimiter := by decide

end Sys2Proof.Machine
end

