-- ==== Sys2Proof/Machine/State.lean ====
section
/-! DEFINITION. The state of the block (10_state R16), the outside world's pending moves, and the state after reset
(70_reset_and_hazards R131). -/

namespace Sys2Proof.Machine

/-- The sequencer phase (R18): idle, or executing the captured command word. -/
inductive Phase where
  | idle
  | busy (w : Word)
deriving DecidableEq, Repr

/-- The error codes of 60_exceptions R114; the reserved codes 0x0D to 0xFF do not exist. -/
inductive ErrCode where
  | noError
  | invalidSymbol
  | malformedEnvelope
  | unsupportedAlgorithm
  | decryptionFailed
  | invalidAlphabet
  | illegalCommand
  | alphabetNotLoaded
  | capacityExceeded
  | invalidArgument
  | kdfFailed
  | cipherFailed
  | rngFailed
deriving DecidableEq, Repr

/-- The fields of ERRINFO (R23); a field not named is 0 (60_exceptions R115). -/
structure ErrInfo where
  sym : Byte := 0
  alpha : BitVec 3 := 0
  seg : BitVec 2 := 0
  sub : BitVec 4 := 0
  val : Byte := 0
deriving DecidableEq, Repr

/-- Which agent moves (20_memory R54, 70_reset R130). -/
inductive Turn where
  | host
  | sequencer
  | rstAssert
  | rstDeassert
deriving DecidableEq, Repr

/-- Memory: the buffer bytes written since the last reset, by window offset, in strictly rising order. An offset not
listed has no written value (what it reads as is a free value, log 9). -/
abbrev Memory := List Host.Cell

/-- The custom slot's reset contents (R39). -/
def Table.zero : Table where
  syms := List.replicate 32 0
  len := List.length_replicate

/-- Everything the spec gives the machine, then the model's own fields. -/
structure State where
  /-- PHASE (R18). -/
  phase : Phase
  /-- STATUS.DONE (R22). -/
  done : Bool
  /-- STATUS.WERR (R22). -/
  werr : Bool
  /-- STATUS.ERRCODE (R22, R114). -/
  errCode : ErrCode
  /-- STATUS.LAST_OP (R22). -/
  lastOp : Byte
  /-- ERRINFO (R23). -/
  errInfo : ErrInfo
  /-- ERRPOS (R24). -/
  errPos : Word
  /-- INT_EN.DONE_IE (R25). -/
  doneIe : Bool
  /-- IN_LEN (R26). -/
  inLen : Word
  /-- OUT_LEN (R27). -/
  outLen : Word
  /-- PW_LEN (R26). -/
  pwLen : Word
  /-- SALT_LEN (R26). -/
  saltLen : Word
  /-- CT_LEN (R26). -/
  ctLen : Word
  /-- ITER (R28). -/
  iter : Word
  /-- HALG.TAG (R29). -/
  halgTag : Byte
  /-- SALTGEN_LEN (R26). -/
  saltgenLen : Word
  /-- CUSTOM_TABLE (R39). -/
  customTable : Table
  /-- CUSTOM_VALID (R39). -/
  customValid : Bool
  /-- IN_BUF, OUT_BUF, PW_BUF, SALT_BUF and CT_BUF (R34 to R38). -/
  mem : Memory
  /-- The level of the reset input: true while rst is asserted (R130). -/
  rst : Bool
  /-- MODEL: the implementation's parameters (R8), which no step changes (log 5). -/
  cfg : Params
  /-- MODEL: the host's bus statements (R69; log 2). -/
  program : List Stmt
  /-- MODEL: the index of the host's next statement (log 2). -/
  hpc : Nat
  /-- MODEL: the data of the host's last read (R49; log 2). -/
  readData : Word
  /-- MODEL: the agents that move next (R54; log 1). -/
  schedule : List Turn
  /-- MODEL: the number of the reset whose draw fills unwritten buffer bytes (R132; log 9). -/
  bufDraw : Nat
  /-- MODEL: the number of the random source's next draw (R100; log 7). -/
  rngDraw : Nat
deriving DecidableEq, Repr

/-- A step that stops. -/
inductive Fault where
  /-- Raised by a host access of a wrong width or alignment (20_memory R45 to R47). Safe: R47 asks for it. -/
  | busError (off : Nat) (width : Width)
  /-- Raised by a host access while rst is asserted (70_reset R130, R47). Safe. -/
  | accessInReset (off : Nat) (width : Width)
  /-- Raised by a host access at an offset of 0x60000 or more, which the block does not answer (R44, log 4). Safe. -/
  | outsideWindow (off : Nat) (width : Width)
deriving DecidableEq, Repr

/-- An instruction without a meaning. -/
inductive Refusal where
  /-- Raised by exec for an instruction not modelled yet. Safe; no arm of exec raises it now. -/
  | notModelled (mnemonic : String)
deriving DecidableEq, Repr

/-- The state after reset (R131) of an implementation with parameters `p`. Every value but those of the model's own
fields (log 5, log 10) and of the level of rst (log 12) is R131's. -/
def State.resetWith (p : Params) : State where
  phase := .idle
  done := false
  werr := false
  errCode := .noError
  lastOp := 0
  errInfo := {}
  errPos := 0
  doneIe := false
  inLen := 0
  outLen := 0
  pwLen := 0
  saltLen := 0
  ctLen := 0
  iter := 0
  halgTag := 0
  saltgenLen := 0
  customTable := Table.zero
  customValid := false
  mem := []
  rst := false
  cfg := p
  program := []
  hpc := 0
  readData := 0
  schedule := []
  bufDraw := 0
  rngDraw := 0

/-- The state after reset of the reference configuration (R131, R8; log 5). -/
def State.reset : State := State.resetWith referenceParams

end Sys2Proof.Machine
end

