-- ==== Sys2Proof/Machine/Ops.lean ====
section
/-! DEFINITION. The shared operations: memory, the five buffers (10_state R34 to R38), the errors and the two ways a
completion step ends (60_exceptions R118, R119), and the reset of the registers (70_reset R131). -/

namespace Sys2Proof.Machine

/-! ### Memory -/

/-- The byte listed at an offset, or `none` where no byte has been written. -/
def Memory.read? : Memory → Nat → Option Byte
  | [], _ => none
  | (a, b) :: m, x => if a = x then some b else Memory.read? m x

/-- Store one byte, keeping the offsets strictly rising. -/
def Memory.write : Memory → Nat → Byte → Memory
  | [], x, v => [(x, v)]
  | (a, b) :: m, x, v =>
    if x < a then (x, v) :: (a, b) :: m
    else if x = a then (x, v) :: m
    else (a, b) :: Memory.write m x v

/-- Store a byte sequence at consecutive offsets. -/
def Memory.writeList : Memory → Nat → List Byte → Memory
  | m, _, [] => m
  | m, x, v :: vs => Memory.writeList (Memory.write m x v) (x + 1) vs

/-- The canonical form: strictly rising offsets. (No entry equals what an unlisted offset reads as, since that is no
value.) -/
abbrev Memory.wf (m : Memory) : Prop := m.Pairwise (fun c d => c.1 < d.1)

/-! ### Buffers -/

/-- The five byte buffers (R14). -/
inductive Buf where
  | inBuf
  | outBuf
  | pwBuf
  | saltBuf
  | ctBuf
deriving DecidableEq, Repr

/-- The window offset of a buffer's aperture (20_memory R44). -/
def Buf.base : Buf → Nat
  | .inBuf => 0x10000
  | .outBuf => 0x20000
  | .pwBuf => 0x30000
  | .saltBuf => 0x40000
  | .ctBuf => 0x50000

/-- A buffer's capacity (00_scope R8). -/
def Buf.cap (p : Params) : Buf → Nat
  | .inBuf => p.inCap
  | .outBuf => p.outCap
  | .pwBuf => p.pwCap
  | .saltBuf => p.saltCap
  | .ctBuf => p.ctCap

/-- `Buf(B)[i]` (R14): the byte last written since reset, else the byte the reset drew (70_reset R132; log 9). -/
def State.bufByte (s : State) (b : Buf) (i : Nat) : Byte :=
  match Memory.read? s.mem (b.base + i) with
  | some v => v
  | none => Config.resetByte s.bufDraw (b.base + i)

/-- `Buf(B)[0..n)` (R14). -/
def State.readBuf (s : State) (b : Buf) (n : Nat) : List Byte :=
  (List.range n).map (s.bufByte b)

/-- `Buf(B)[0..len(v)) <- v` (R14). -/
def State.writeBuf (s : State) (b : Buf) (v : List Byte) : State :=
  { s with mem := Memory.writeList s.mem b.base v }

/-- The commit of a result in OUT_BUF: `Buf(OUT)[0..L) <- v ; R(OUT_LEN) <- L` (R27, R35). -/
def State.putOut (s : State) (v : List Byte) : State :=
  { s.writeBuf .outBuf v with outLen := BitVec.ofNat 32 v.length }

/-! ### Errors (60_exceptions R114, R115) -/

/-- What `raise` records. -/
structure Raise where
  code : ErrCode
  info : ErrInfo := {}
  pos : Word := 0
deriving DecidableEq, Repr

/-- A length shown in ERRPOS. A length of 2^32 or more has no stated value (log 13). -/
def countWord (n : Nat) : Word := if n < 2 ^ 32 then BitVec.ofNat 32 n else Config.wideCount n

/-- ILLEGAL_COMMAND: ERRPOS = the command word. -/
def illegalCommand (w : Word) : Raise := { code := .illegalCommand, pos := w }

/-- INVALID_ARGUMENT: SUB names the register, ERRPOS its value. -/
def invalidArgument (sub : BitVec 4) (v : Word) : Raise :=
  { code := .invalidArgument, info := { sub := sub }, pos := v }

/-- CAPACITY_EXCEEDED: SUB names the buffer, ERRPOS the length that did not fit. -/
def capacityExceeded (sub : BitVec 4) (n : Nat) : Raise :=
  { code := .capacityExceeded, info := { sub := sub }, pos := countWord n }

/-- ALPHABET_NOT_LOADED: ALPHA = 3. -/
def alphabetNotLoaded : Raise := { code := .alphabetNotLoaded, info := { alpha := 3 } }

/-- INVALID_SYMBOL: SYM, ALPHA, and the index in IN_BUF. -/
def invalidSymbol (sym : Byte) (alpha : BitVec 3) (pos : Nat) : Raise :=
  { code := .invalidSymbol, info := { sym := sym, alpha := alpha }, pos := countWord pos }

/-- INVALID_ALPHABET SUB 1: ERRPOS = IN_LEN. -/
def alphabetLength (n : Word) : Raise := { code := .invalidAlphabet, info := { sub := 1 }, pos := n }

/-- INVALID_ALPHABET SUB 2: SYM = the repeated symbol, VAL = the first index, ERRPOS = the second. -/
def alphabetDuplicate (sym : Byte) (first second : Nat) : Raise :=
  { code := .invalidAlphabet, info := { sym := sym, sub := 2, val := BitVec.ofNat 8 first },
    pos := countWord second }

/-- MALFORMED_ENVELOPE SUB 1: ERRPOS = the number of segments. -/
def segmentCount (n : Nat) : Raise := { code := .malformedEnvelope, info := { sub := 1 }, pos := countWord n }

/-- MALFORMED_ENVELOPE SUB 2: SYM, ALPHA = 1, SEG, and the index in IN_BUF. -/
def segmentSymbol (sym : Byte) (seg : BitVec 2) (pos : Nat) : Raise :=
  { code := .malformedEnvelope, info := { sym := sym, alpha := 1, seg := seg, sub := 2 }, pos := countWord pos }

/-- MALFORMED_ENVELOPE SUB 3: SEG = 1, ERRPOS = the number of iteration bytes. -/
def iterationLength (n : Nat) : Raise :=
  { code := .malformedEnvelope, info := { seg := 1, sub := 3 }, pos := countWord n }

/-- MALFORMED_ENVELOPE SUB 4: SEG = 1, ERRPOS = the value. -/
def iterationValue (n : Nat) : Raise :=
  { code := .malformedEnvelope, info := { seg := 1, sub := 4 }, pos := countWord n }

/-- MALFORMED_ENVELOPE SUB 5: SEG = 2, ERRPOS = the number of tag bytes. -/
def tagLength (n : Nat) : Raise :=
  { code := .malformedEnvelope, info := { seg := 2, sub := 5 }, pos := countWord n }

/-- UNSUPPORTED_ALGORITHM: SUB 1 (tag above 6) or 2 (SHA-3 absent), VAL = the tag. -/
def unsupportedAlgorithm (sub : BitVec 4) (tag : Byte) : Raise :=
  { code := .unsupportedAlgorithm, info := { sub := sub, val := tag } }

/-- DECRYPTION_FAILED. -/
def decryptionFailed : Raise := { code := .decryptionFailed }

/-- KDF_FAILED. -/
def kdfFailed : Raise := { code := .kdfFailed }

/-- CIPHER_FAILED. -/
def cipherFailed : Raise := { code := .cipherFailed }

/-- RNG_FAILED. -/
def rngFailed : Raise := { code := .rngFailed }

/-! ### How a completion step ends -/

/-- The status writes of every completion step (R118, R119). -/
def State.complete (s : State) (op : Byte) (code : ErrCode) (info : ErrInfo) (pos : Word) : State :=
  { s with phase := .idle, done := true, errCode := code, lastOp := op, errInfo := info, errPos := pos }

/-- `raise` (R118): the state before the command with the error recorded, and nothing else changed. -/
def State.raise (s : State) (op : Byte) (e : Raise) : State := s.complete op e.code e.info e.pos

/-- `commit` (R119): the destinations have been written; record success. -/
def State.commit (s : State) (op : Byte) : State := s.complete op .noError {} 0

/-- The completion step of a command whose pseudocode ends in `r`: an error, or the state with the destinations
written. -/
def State.finish (s : State) (op : Byte) : Except Raise State → State
  | .error e => s.raise op e
  | .ok t => t.commit op

/-! ### Reset -/

/-- Every row of R131 but the buffers: the registers and the custom slot at their reset values. -/
def State.resetRegs (s : State) : State :=
  { s with
    phase := .idle, done := false, werr := false, errCode := .noError, lastOp := 0, errInfo := {}, errPos := 0,
    doneIe := false, inLen := 0, outLen := 0, pwLen := 0, saltLen := 0, ctLen := 0, iter := 0, halgTag := 0,
    saltgenLen := 0, customTable := Table.zero, customValid := false }

/-- The effect of the reset input (R130 to R132): the registers reset, a command in flight abandoned, and the buffers
unspecified, one new draw for each byte (log 9). -/
def State.hardReset (s : State) : State := { s.resetRegs with mem := [], bufDraw := s.bufDraw + 1 }

/-- rst becomes asserted. DEDUCED (log 11): the reset values appear at once. -/
def State.assertRst (s : State) : State := { s.hardReset with rst := true }

/-- rst becomes deasserted: the state is as R131 lists. If rst was not asserted, nothing changes (log 11). -/
def State.deassertRst (s : State) : State := if s.rst then { s.hardReset with rst := false } else s

end Sys2Proof.Machine
end

