-- ==== Sys2Proof/Machine/Flags.lean ====
section
/-! DEFINITION. The flags (10_state R42) and the registers assembled from fields: STATUS (R22), ERRINFO (R23), and the
interrupt output (60_exceptions R122). -/

namespace Sys2Proof.Machine

/-- The byte of an error code (60_exceptions R114). -/
def ErrCode.byte : ErrCode → Byte
  | .noError => 0x00
  | .invalidSymbol => 0x01
  | .malformedEnvelope => 0x02
  | .unsupportedAlgorithm => 0x03
  | .decryptionFailed => 0x04
  | .invalidAlphabet => 0x05
  | .illegalCommand => 0x06
  | .alphabetNotLoaded => 0x07
  | .capacityExceeded => 0x08
  | .invalidArgument => 0x09
  | .kdfFailed => 0x0A
  | .cipherFailed => 0x0B
  | .rngFailed => 0x0C

/-- STATUS.BUSY: 1 exactly when PHASE ≠ IDLE (R18). -/
def State.busy (s : State) : Bool :=
  match s.phase with
  | .idle => false
  | .busy _ => true

/-- STATUS.ERR: reads ERRCODE ≠ 0 (R22). -/
def State.err (s : State) : Bool := s.errCode.byte != 0

/-- The STATUS register (R22). -/
def State.status (s : State) : Word :=
  (0 : BitVec 8) ++ s.lastOp ++ s.errCode.byte ++ (0 : BitVec 4) ++ BitVec.ofBool s.werr ++ BitVec.ofBool s.err ++
    BitVec.ofBool s.done ++ BitVec.ofBool s.busy

/-- The ERRINFO register (R23). -/
def ErrInfo.word (e : ErrInfo) : Word :=
  e.val ++ (0 : BitVec 4) ++ e.sub ++ (0 : BitVec 2) ++ e.seg ++ (0 : BitVec 1) ++ e.alpha ++ e.sym

/-- A write to STATUS (R22): 1 in bit 1 clears DONE, 1 in bit 3 clears WERR. -/
def State.writeStatus (s : State) (v : Word) : State :=
  { s with done := s.done && !v.getLsbD 1, werr := s.werr && !v.getLsbD 3 }

/-- The interrupt output (R122). -/
def State.irq (s : State) : Bool := s.done && s.doneIe

end Sys2Proof.Machine
end

