-- ==== Sys2Proof/Machine/Operands.lean ====
section
/-! DEFINITION. The operands of the commands (30_encoding R60): the alphabet that ASEL names, the symbol tables and their
inverses (10_state R39, R40), and the input buffers taken to their length registers. -/

namespace Sys2Proof.Machine

/-- The alphabet that ASEL names; 4 to 7 are reserved (R59). -/
def alphaOfAsel (asel : BitVec 3) : Option AlphaId :=
  if asel = 0 then some .rfc4648
  else if asel = 1 then some .crockford
  else if asel = 2 then some .wordsafe
  else if asel = 3 then some .custom
  else none

/-- The id of an alphabet, as ERRINFO.ALPHA shows it (R23). -/
def alphaCode : AlphaId → BitVec 3
  | .rfc4648 => 0
  | .crockford => 1
  | .wordsafe => 2
  | .custom => 3

/-- `Alpha(id)` (R14, R39). -/
def State.alpha (s : State) : AlphaId → Table
  | .rfc4648 => s.cfg.rfc4648
  | .crockford => s.cfg.crockford
  | .wordsafe => s.cfg.wordsafe
  | .custom => s.customTable

/-- `Alpha(id)[v]` (R14). -/
def symbolAt (t : Table) (v : BitVec 5) : Byte := t.syms.getD v.toNat 0

/-- `Inv(id, c)` (R14, R40). -/
def inverse (t : Table) (c : Byte) : Option (BitVec 5) := (t.syms.idxOf? c).map (BitVec.ofNat 5)

/-- The valid bytes of IN_BUF (R26). -/
def State.input (s : State) : List Byte := s.readBuf .inBuf s.inLen.toNat

/-- The password (R26, R36). -/
def State.password (s : State) : List Byte := s.readBuf .pwBuf s.pwLen.toNat

/-- The salt field (R26, R37). -/
def State.salt (s : State) : List Byte := s.readBuf .saltBuf s.saltLen.toNat

/-- The ciphertext field (R26, R38). -/
def State.ciphertext (s : State) : List Byte := s.readBuf .ctBuf s.ctLen.toNat

end Sys2Proof.Machine
end

