-- ==== Sys2Proof/Machine/Codec.lean ====
section
/-! DEFINITION. The Base32 codec (40_base32_codec R74 to R78) and the commands ALPHA_LOAD, B32_ENCODE and B32_DECODE
(R81 to R84). -/

namespace Sys2Proof.Machine

/-! ### Encode -/

/-- `Bit(b, i)` (R74): most significant bit of each byte first, 0 past the end. -/
def bitAt (b : List Byte) (i : Nat) : Nat := ((b.getD (i / 8) 0).toNat >>> (7 - i % 8)) % 2

/-- The group `g_k` (R76). -/
def group (b : List Byte) (k : Nat) : BitVec 5 :=
  BitVec.ofNat 5 (((List.range 5).map fun j => bitAt b (5 * k + j) <<< (4 - j)).sum)

/-- The number of symbols for `n` bytes, `ceil_div(8n, 5)` (R75). -/
def encodedLength (n : Nat) : Nat := (8 * n + 4) / 5

/-- `Encode(t, b)` (R76). -/
def encode32 (t : Table) (b : List Byte) : List Byte :=
  (List.range (encodedLength b.length)).map fun k => symbolAt t (group b k)

/-! ### Decode -/

/-- `VBit(i)` (R78). -/
def valueBit (v : List (BitVec 5)) (i : Nat) : Nat := ((v.getD (i / 5) 0).toNat >>> (4 - i % 5)) % 2

/-- Byte `j` of a decode (R78). -/
def decodedByte (v : List (BitVec 5)) (j : Nat) : Byte :=
  BitVec.ofNat 8 (((List.range 8).map fun q => valueBit v (8 * j + q) <<< (7 - q)).sum)

/-- The number of bytes for `m` symbols, `floor_div(5m, 8)` (R77). -/
def decodedLength (m : Nat) : Nat := 5 * m / 8

/-- The bytes of a sequence of symbol values (R78). -/
def unpack (v : List (BitVec 5)) : List Byte := (List.range (decodedLength v.length)).map (decodedByte v)

/-- InvalidSymbol of R78: the position and code of the first offending symbol. -/
structure BadSymbol where
  pos : Nat
  sym : Byte
deriving DecidableEq, Repr

/-- `Decode(t, s)` (R78). -/
def decode32 (t : Table) (s : List Byte) : Except BadSymbol (List Byte) :=
  match s.findIdx? (fun c => (inverse t c).isNone) with
  | some k => .error { pos := k, sym := s.getD k 0 }
  | none => .ok (unpack (s.map fun c => (inverse t c).getD 0))

/-! ### ALPHA_LOAD -/

/-- The smallest `j` with an equal symbol before it, and the smallest such earlier index `i` (R81), as `(i, j)`. -/
def firstDuplicate (a : List Byte) : Option (Nat × Nat) :=
  match (List.range a.length).find? (fun j => (a.take j).contains (a.getD j 0)) with
  | some j => some (a.idxOf (a.getD j 0), j)
  | none => none

/-- IN_BUF[0..32) as a table (R81). -/
def State.inputTable (s : State) : Table where
  syms := s.readBuf .inBuf 32
  len := (List.length_map _).trans List.length_range

def alphaLoadResult (s : State) : Except Raise State :=
  if s.inLen ≠ 32 then .error (alphabetLength s.inLen)
  else
    match firstDuplicate s.inputTable.syms with
    | some (i, j) => .error (alphabetDuplicate (s.inputTable.syms.getD j 0) i j)
    | none => .ok { s with customTable := s.inputTable, customValid := true }

/-- ALPHA_LOAD (R81). -/
def execAlphaLoad (s : State) : Host.Outcome State Fault Refusal := .next (s.finish 0x01 (alphaLoadResult s))

/-! ### B32_ENCODE and B32_DECODE -/

/-- A result that goes to OUT_BUF, or CAPACITY_EXCEEDED SUB 1. -/
def outResult (s : State) (v : List Byte) : Except Raise State :=
  if v.length > s.cfg.outCap then .error (capacityExceeded 1 v.length) else .ok (s.putOut v)

def b32EncodeResult (s : State) (id : AlphaId) : Except Raise State :=
  if id = .custom ∧ s.customValid = false then .error alphabetNotLoaded
  else if s.inLen.toNat > s.cfg.inCap then .error (invalidArgument 1 s.inLen)
  else outResult s (encode32 (s.alpha id) s.input)

def b32DecodeResult (s : State) (id : AlphaId) : Except Raise State :=
  if id = .custom ∧ s.customValid = false then .error alphabetNotLoaded
  else if s.inLen.toNat > s.cfg.inCap then .error (invalidArgument 1 s.inLen)
  else
    match decode32 (s.alpha id) s.input with
    | .error e => .error (invalidSymbol e.sym (alphaCode id) e.pos)
    | .ok v => outResult s v

/-- B32_ENCODE (R83). A reserved ASEL makes the word illegal (30_encoding R62, R63; log 14). -/
def execB32Encode (asel : BitVec 3) (s : State) : Host.Outcome State Fault Refusal :=
  .next (s.finish 0x02
    (match alphaOfAsel asel with
    | none => .error (illegalCommand (encode (.b32Encode asel)))
    | some id => b32EncodeResult s id))

/-- B32_DECODE (R84). A reserved ASEL makes the word illegal (30_encoding R62, R63; log 14). -/
def execB32Decode (asel : BitVec 3) (s : State) : Host.Outcome State Fault Refusal :=
  .next (s.finish 0x03
    (match alphaOfAsel asel with
    | none => .error (illegalCommand (encode (.b32Decode asel)))
    | some id => b32DecodeResult s id))

end Sys2Proof.Machine
end

