-- ==== Sys2Proof/Machine/Control.lean ====
section
/-! DEFINITION. The control commands NOP and SOFT_RESET (43_control R110, R111). -/

namespace Sys2Proof.Machine

/-- NOP (R110): `commit { }`. -/
def execNop (s : State) : Host.Outcome State Fault Refusal := .next (s.finish 0x00 (.ok s))

/-- SOFT_RESET (R111): the reset values of R131 but for the buffers, and then the completion status. -/
def execSoftReset (s : State) : Host.Outcome State Fault Refusal := .next (s.finish 0xFF (.ok s.resetRegs))

end Sys2Proof.Machine
end

