-- ==== Sys2Proof/Machine/Framing.lean ====
section
/-! DEFINITION. The envelope: field encodings (41_envelope_framing R85 to R89), the wire format (R90 to R97) and the
commands ENV_SERIALIZE and ENV_PARSE (R98, R99). -/

namespace Sys2Proof.Machine

/-! ### Fields -/

/-- `TagCheck` (R86): the error, or `none` where the tag is supported. -/
def tagError (sha3 : Bool) (t : Byte) : Option Raise :=
  if t > 6 then some (unsupportedAlgorithm 1 t)
  else if 4 ≤ t ∧ sha3 = false then some (unsupportedAlgorithm 2 t)
  else none

/-- Drop the zero bytes at the end (the high-order ones of a little-endian sequence). -/
def dropHighZeros : List Byte → List Byte
  | [] => []
  | b :: bs =>
    match dropHighZeros bs with
    | [] => if b = 0 then [] else [b]
    | c :: cs => b :: c :: cs

/-- `IterPack` (R88): the little-endian bytes, high-order zeros stripped, at least one byte kept. -/
def iterPack (it : Word) : List Byte :=
  it.extractLsb' 0 8 :: dropHighZeros [it.extractLsb' 8 8, it.extractLsb' 16 8, it.extractLsb' 24 8]

/-- The value of a little-endian byte sequence (R89). -/
def littleEndian : List Byte → Nat
  | [] => 0
  | b :: bs => b.toNat + 256 * littleEndian bs

/-- `IterUnpack` (R89). -/
def iterUnpack (ib : List Byte) : Except Raise Word :=
  if ib.length < 1 ∨ ib.length > 4 then .error (iterationLength ib.length)
  else if littleEndian ib ≥ 2 ^ 31 then .error (iterationValue (littleEndian ib))
  else .ok (BitVec.ofNat 32 (littleEndian ib))

/-! ### Wire format -/

/-- `Serialize` (R92); `c` is Alpha(1) (R90). -/
def serialize (c : Table) (salt : List Byte) (it : Word) (t : Byte) (ct : List Byte) : List Byte :=
  encode32 c salt ++ [delimiter] ++ encode32 c (iterPack it) ++ [delimiter] ++ encode32 c [t] ++ [delimiter] ++
    encode32 c ct

/-- The segments between delimiters, in order: one more than there are delimiters (R95). -/
def segments : List Byte → List (List Byte)
  | [] => [[]]
  | c :: cs =>
    match segments cs with
    | [] => [[c]]
    | g :: gs => if c = delimiter then [] :: g :: gs else (c :: g) :: gs

/-- The fields of an envelope (R92). -/
structure Fields where
  salt : List Byte
  iter : Word
  tag : Byte
  ct : List Byte
deriving DecidableEq, Repr

/-- Decode segment `i`, which starts at position `p` of the envelope (R95). -/
def decodeSegment (c : Table) (i : BitVec 2) (p : Nat) (seg : List Byte) : Except Raise (List Byte) :=
  match decode32 c seg with
  | .error e => .error (segmentSymbol e.sym i (p + e.pos))
  | .ok f => .ok f

/-- The checks of R95 after the four segments are decoded. -/
def checkFields (p : Params) (f0 f1 f2 f3 : List Byte) : Except Raise Fields :=
  match iterUnpack f1 with
  | .error e => .error e
  | .ok it =>
    match f2 with
    | [t] =>
      match tagError p.sha3 t with
      | some e => .error e
      | none =>
        if f0.length > p.saltCap then .error (capacityExceeded 2 f0.length)
        else if f3.length > p.ctCap then .error (capacityExceeded 3 f3.length)
        else .ok { salt := f0, iter := it, tag := t, ct := f3 }
    | [] => .error (tagLength 0)
    | _ :: _ :: _ => .error (tagLength f2.length)

/-- The four segments decoded in order (R95). -/
def parseSegments (p : Params) (g0 g1 g2 g3 : List Byte) : Except Raise Fields :=
  match decodeSegment p.crockford 0 0 g0 with
  | .error e => .error e
  | .ok f0 =>
    match decodeSegment p.crockford 1 (g0.length + 1) g1 with
    | .error e => .error e
    | .ok f1 =>
      match decodeSegment p.crockford 2 (g0.length + g1.length + 2) g2 with
      | .error e => .error e
      | .ok f2 =>
        match decodeSegment p.crockford 3 (g0.length + g1.length + g2.length + 3) g3 with
        | .error e => .error e
        | .ok f3 => checkFields p f0 f1 f2 f3

/-- `Parse` (R95). -/
def parse (p : Params) (s : List Byte) : Except Raise Fields :=
  match segments s with
  | [g0, g1, g2, g3] => parseSegments p g0 g1 g2 g3
  | gs => .error (segmentCount gs.length)

/-! ### Commands -/

def envSerializeResult (s : State) : Except Raise State :=
  if s.saltLen.toNat > s.cfg.saltCap then .error (invalidArgument 3 s.saltLen)
  else if s.ctLen.toNat > s.cfg.ctCap then .error (invalidArgument 4 s.ctLen)
  else if s.iter.getLsbD 31 then .error (invalidArgument 6 s.iter)
  else
    match tagError s.cfg.sha3 s.halgTag with
    | some e => .error e
    | none => outResult s (serialize s.cfg.crockford s.salt s.iter s.halgTag s.ciphertext)

/-- ENV_SERIALIZE (R98). -/
def execEnvSerialize (s : State) : Host.Outcome State Fault Refusal := .next (s.finish 0x10 (envSerializeResult s))

/-- The destinations of ENV_PARSE (R99). -/
def State.putFields (s : State) (f : Fields) : State :=
  { (s.writeBuf .saltBuf f.salt).writeBuf .ctBuf f.ct with
    saltLen := BitVec.ofNat 32 f.salt.length, iter := f.iter, halgTag := f.tag,
    ctLen := BitVec.ofNat 32 f.ct.length }

def envParseResult (s : State) : Except Raise State :=
  if s.inLen.toNat > s.cfg.inCap then .error (invalidArgument 1 s.inLen)
  else
    match parse s.cfg s.input with
    | .error e => .error e
    | .ok f => .ok (s.putFields f)

/-- ENV_PARSE (R99). -/
def execEnvParse (s : State) : Host.Outcome State Fault Refusal := .next (s.finish 0x11 (envParseResult s))

end Sys2Proof.Machine
end

