-- ==== Sys2Proof/Machine/Crypto.lean ====
section
/-! DEFINITION. The commands ENV_ENCRYPT and ENV_DECRYPT (42_envelope_crypto R100 to R109), over any external IP; the
machine uses `Config.ip`. -/

namespace Sys2Proof.Machine

/-- The key: the first 32 bytes of the derived material (R102). -/
def keyOf (dk : Bytes 48) : Bytes 32 := ⟨dk.1.take 32, by simp [dk.2]⟩

/-- The IV: the last 16 bytes of the derived material (R102). -/
def ivOf (dk : Bytes 48) : Bytes 16 := ⟨dk.1.drop 32, by simp [dk.2]⟩

/-- Steps 1 to 6 of R107 after the argument checks. -/
def sealEnvelope (ip : ExtIP) (s : State) : Except Raise State :=
  match ip.rng s.rngDraw s.saltgenLen.toNat with
  | none => .error rngFailed
  | some salt =>
    match ip.kdf s.password salt.1 s.iter s.halgTag with
    | none => .error kdfFailed
    | some dk =>
      match ip.cipherEnc (keyOf dk) (ivOf dk) s.input with
      | none => .error cipherFailed
      | some ct =>
        if ct.length > s.cfg.ctCap then .error (capacityExceeded 3 ct.length)
        else outResult s (serialize s.cfg.crockford salt.1 s.iter s.halgTag ct)

def envEncryptResult (ip : ExtIP) (s : State) : Except Raise State :=
  if s.inLen.toNat > s.cfg.inCap then .error (invalidArgument 1 s.inLen)
  else if s.pwLen.toNat > s.cfg.pwCap then .error (invalidArgument 2 s.pwLen)
  else if s.saltgenLen.toNat > s.cfg.saltCap then .error (invalidArgument 5 s.saltgenLen)
  else if s.iter.getLsbD 31 then .error (invalidArgument 6 s.iter)
  else
    match tagError s.cfg.sha3 s.halgTag with
    | some e => .error e
    | none => sealEnvelope ip s

/-- ENV_ENCRYPT (R107) with a given external IP. The draw counter moves on whatever the outcome (log 8). -/
def envEncryptWith (ip : ExtIP) (s : State) : State :=
  { s.finish 0x20 (envEncryptResult ip s) with rngDraw := s.rngDraw + 1 }

/-- ENV_ENCRYPT (R107). -/
def execEnvEncrypt (s : State) : Host.Outcome State Fault Refusal := .next (envEncryptWith Config.ip s)

/-- Steps 5 and 6 of R108 on the parsed fields. -/
def openEnvelope (ip : ExtIP) (s : State) (f : Fields) : Except Raise State :=
  match ip.kdf s.password f.salt f.iter f.tag with
  | none => .error kdfFailed
  | some dk =>
    match ip.cipherDec (keyOf dk) (ivOf dk) f.ct with
    | none => .error decryptionFailed
    | some pt => outResult s pt

def envDecryptResult (ip : ExtIP) (s : State) : Except Raise State :=
  if s.inLen.toNat > s.cfg.inCap then .error (invalidArgument 1 s.inLen)
  else if s.pwLen.toNat > s.cfg.pwCap then .error (invalidArgument 2 s.pwLen)
  else
    match parse s.cfg s.input with
    | .error e => .error e
    | .ok f => openEnvelope ip s f

/-- ENV_DECRYPT (R108) with a given external IP. -/
def envDecryptWith (ip : ExtIP) (s : State) : State := s.finish 0x21 (envDecryptResult ip s)

/-- ENV_DECRYPT (R108). -/
def execEnvDecrypt (s : State) : Host.Outcome State Fault Refusal := .next (envDecryptWith Config.ip s)

end Sys2Proof.Machine
end

