-- ==== Sys2Proof/Machine/Dispatch.lean ====
section
/-! DEFINITION. One arm per command: the completion step of a command (60_exceptions R117). -/

namespace Sys2Proof.Machine

def exec (i : Instr) (s : State) : Host.Outcome State Fault Refusal :=
  match i with
  | .nop => Sys2Proof.Machine.execNop s
  | .alphaLoad => Sys2Proof.Machine.execAlphaLoad s
  | .b32Encode asel => Sys2Proof.Machine.execB32Encode asel s
  | .b32Decode asel => Sys2Proof.Machine.execB32Decode asel s
  | .envSerialize => Sys2Proof.Machine.execEnvSerialize s
  | .envParse => Sys2Proof.Machine.execEnvParse s
  | .envEncrypt => Sys2Proof.Machine.execEnvEncrypt s
  | .envDecrypt => Sys2Proof.Machine.execEnvDecrypt s
  | .softReset => Sys2Proof.Machine.execSoftReset s

end Sys2Proof.Machine
end

