-- ==== Sys2Proof/Machine/Bus.lean ====
section
/-! DEFINITION. The host's window (20_memory R44 to R58): the register map (10_state R19 to R33), the alphabet readback
(R41), the buffer apertures (R34 to R38, R48), issue (30_encoding R66) and the writes dropped while busy
(70_reset R134). -/

namespace Sys2Proof.Machine

/-! ### The register map -/

/-- The registers of R19. -/
inductive Reg where
  | id
  | cmd
  | status
  | errInfo
  | errPos
  | intEn
  | inLen
  | outLen
  | pwLen
  | saltLen
  | ctLen
  | iter
  | halg
  | saltgenLen
  | alphaStat
  | caps
  | inCapR
  | outCapR
  | pwCapR
  | saltCapR
  | ctCapR
deriving DecidableEq, Repr

/-- The window offset of a register (R19). -/
def Reg.offset : Reg → Nat
  | .id => 0x000
  | .cmd => 0x004
  | .status => 0x008
  | .errInfo => 0x00C
  | .errPos => 0x010
  | .intEn => 0x014
  | .inLen => 0x018
  | .outLen => 0x01C
  | .pwLen => 0x020
  | .saltLen => 0x024
  | .ctLen => 0x028
  | .iter => 0x02C
  | .halg => 0x030
  | .saltgenLen => 0x034
  | .alphaStat => 0x038
  | .caps => 0x03C
  | .inCapR => 0x040
  | .outCapR => 0x044
  | .pwCapR => 0x048
  | .saltCapR => 0x04C
  | .ctCapR => 0x050

def Reg.all : List Reg :=
  [.id, .cmd, .status, .errInfo, .errPos, .intEn, .inLen, .outLen, .pwLen, .saltLen, .ctLen] ++
    [.iter, .halg, .saltgenLen, .alphaStat, .caps, .inCapR, .outCapR, .pwCapR, .saltCapR, .ctCapR]

/-- The register at a window offset; `none` where the offset is reserved (R33). -/
def regAt (off : Nat) : Option Reg := Reg.all.find? fun r => r.offset == off

/-- What a register reads (R19 to R32). -/
def State.readReg (s : State) : Reg → Word
  | .id => 0x42333201
  | .cmd => 0
  | .status => s.status
  | .errInfo => s.errInfo.word
  | .errPos => s.errPos
  | .intEn => (BitVec.ofBool s.doneIe).zeroExtend 32
  | .inLen => s.inLen
  | .outLen => s.outLen
  | .pwLen => s.pwLen
  | .saltLen => s.saltLen
  | .ctLen => s.ctLen
  | .iter => s.iter
  | .halg => s.halgTag.zeroExtend 32
  | .saltgenLen => s.saltgenLen
  | .alphaStat => (BitVec.ofBool s.customValid).zeroExtend 32
  | .caps => (BitVec.ofBool s.cfg.sha3).zeroExtend 32
  | .inCapR => BitVec.ofNat 32 s.cfg.inCap
  | .outCapR => BitVec.ofNat 32 s.cfg.outCap
  | .pwCapR => BitVec.ofNat 32 s.cfg.pwCap
  | .saltCapR => BitVec.ofNat 32 s.cfg.saltCap
  | .ctCapR => BitVec.ofNat 32 s.cfg.ctCap

/-- Issue (30_encoding R66): what a write of `w` to CMD does in the idle phase. -/
def State.issue (s : State) (w : Word) : State := { s with phase := .busy w, done := false }

/-- A write that is dropped while busy (R134): `t` is its effect in the idle phase. -/
def State.unlessBusy (s t : State) : State := if s.busy then { s with werr := true } else t

/-- A write to a register (R19 to R32, R66, R134). -/
def State.writeReg (s : State) (r : Reg) (v : Word) : State :=
  match r with
  | .cmd => s.unlessBusy (s.issue v)
  | .status => s.writeStatus v
  | .intEn => { s with doneIe := v.getLsbD 0 }
  | .inLen => s.unlessBusy { s with inLen := v }
  | .pwLen => s.unlessBusy { s with pwLen := v }
  | .saltLen => s.unlessBusy { s with saltLen := v }
  | .ctLen => s.unlessBusy { s with ctLen := v }
  | .iter => s.unlessBusy { s with iter := v }
  | .halg => s.unlessBusy { s with halgTag := v.extractLsb' 0 8 }
  | .saltgenLen => s.unlessBusy { s with saltgenLen := v }
  | .id => s
  | .errInfo => s
  | .errPos => s
  | .outLen => s
  | .alphaStat => s
  | .caps => s
  | .inCapR => s
  | .outCapR => s
  | .pwCapR => s
  | .saltCapR => s
  | .ctCapR => s

/-! ### Regions -/

/-- The regions of R44. -/
inductive Region where
  | registers
  | readback
  | reserved
  | aperture (b : Buf)
deriving DecidableEq, Repr

/-- The region of a window offset; `none` outside the window (R44). -/
def regionOf (off : Nat) : Option Region :=
  if off < 0x100 then some .registers
  else if off < 0x180 then some .readback
  else if off < 0x10000 then some .reserved
  else if off < 0x20000 then some (.aperture .inBuf)
  else if off < 0x30000 then some (.aperture .outBuf)
  else if off < 0x40000 then some (.aperture .pwBuf)
  else if off < 0x50000 then some (.aperture .saltBuf)
  else if off < 0x60000 then some (.aperture .ctBuf)
  else none

/-- The bytes of an access (R49). -/
def widthBytes : Width → Nat
  | .w8 => 1
  | .w16 => 2
  | .w32 => 4

/-- Whether an access gets no bus error (R45, R46). -/
def accessOk (w : Width) (off : Nat) : Bool :=
  match regionOf off with
  | none => false
  | some .registers => w == .w32 && off % 4 == 0
  | some .reserved => w == .w32 && off % 4 == 0
  | some .readback => off % widthBytes w == 0
  | some (.aperture _) => off % widthBytes w == 0

/-- The alphabet of a readback offset (R41). -/
def readbackAlpha (off : Nat) : AlphaId :=
  if off < 0x120 then .rfc4648
  else if off < 0x140 then .crockford
  else if off < 0x160 then .wordsafe
  else .custom

/-- Byte `i` of an aperture as the host reads it: 0 at or past the capacity (R48), 0 in PW_BUF (R36). -/
def State.apertureByte (s : State) (b : Buf) (i : Nat) : Byte :=
  if b = .pwBuf then 0 else if i < b.cap s.cfg then s.bufByte b i else 0

/-- Whether the host's writes to an aperture are stored: all but OUT_BUF's (R35). -/
def hostWritable (b : Buf) : Bool := b != .outBuf

/-- The lanes of a write that land in the buffer (R48): lane `k` of data `v` at index `i + k` below the capacity. -/
def writeLanes (m : Memory) (base cap i : Nat) (v : Word) : (n : Nat) → Memory
  | 0 => m
  | n + 1 =>
    let m' := writeLanes m base cap i v n
    if i + n < cap then Memory.write m' (base + (i + n)) (v.extractLsb' (8 * n) 8) else m'

/-- A write of the low `n` bytes of `v` at index `i` of an aperture (R34 to R38, R48, R134). As lanes rise with the
index, some lane is below the capacity exactly when the first one is. -/
def State.writeAperture (s : State) (b : Buf) (i n : Nat) (v : Word) : State :=
  if hostWritable b && decide (i < b.cap s.cfg) then
    s.unlessBusy { s with mem := writeLanes s.mem b.base (b.cap s.cfg) i v n }
  else s

/-! ### Accesses -/

/-- Little-endian lanes (R49): `Σ_{k<n} byte(k) << 8k`. -/
def joinLanes (byte : Nat → Byte) : (n : Nat) → Word
  | 0 => 0
  | n + 1 => joinLanes byte n ||| (byte n).zeroExtend 32 <<< (8 * n)

/-- `MemRead(off, n)` of an access that gets no bus error (R14, R49). -/
def State.read (s : State) (w : Width) (off : Nat) : Word :=
  match regionOf off with
  | none => 0
  | some .registers =>
    match regAt off with
    | some r => s.readReg r
    | none => 0
  | some .reserved => 0
  | some .readback =>
    joinLanes (fun k => symbolAt (s.alpha (readbackAlpha (off + k))) (BitVec.ofNat 5 (off + k))) (widthBytes w)
  | some (.aperture b) => joinLanes (fun k => s.apertureByte b (off - b.base + k)) (widthBytes w)

/-- `MemWrite(off, n, v)` of an access that gets no bus error (R14, R49). -/
def State.write (s : State) (w : Width) (off : Nat) (v : Word) : State :=
  match regionOf off with
  | none => s
  | some .registers =>
    match regAt off with
    | some r => s.writeReg r v
    | none => s
  | some .reserved => s
  | some .readback => s
  | some (.aperture b) => s.writeAperture b (off - b.base) (widthBytes w) v

/-- A bus access (R69). -/
inductive Access where
  | read (w : Width) (off : Nat)
  | write (w : Width) (off : Nat) (v : Word)
deriving DecidableEq, Repr

def Access.width : Access → Width
  | .read w _ => w
  | .write w _ _ => w

def Access.off : Access → Nat
  | .read _ off => off
  | .write _ off _ => off

/-- The block's answer on the bus (R47): the error response, and the data of a read (R49). DESIGN CHOICE (log 16): the answer
to a write has data 0. -/
structure Reply where
  error : Bool
  data : Word
deriving DecidableEq, Repr

/-- One bus access, complete in one step (R51): the block after it and its answer. A bus error leaves the block as it was
and answers data 0 (R47); every access while rst is asserted gets one (70_reset R130). -/
def State.access (s : State) (a : Access) : State × Reply :=
  if s.rst || !accessOk a.width a.off then (s, { error := true, data := 0 })
  else
    match a with
    | .read w off => (s, { error := false, data := s.read w off })
    | .write w off v => (s.write w off v, { error := false, data := 0 })

/-- The fault of an access that gets the error response. -/
def accessFault (s : State) (a : Access) : Fault :=
  if s.rst then .accessInReset a.off a.width
  else if (regionOf a.off).isNone then .outsideWindow a.off a.width
  else .busError a.off a.width

end Sys2Proof.Machine
end

