-- ==== Sys2Proof/Machine/HostAgent.lean ====
section
/-! DEFINITION. The host as an agent: its turn performs its next statement (30_encoding R67, R69), and the
pseudo-instructions expand to statements (R68). -/

namespace Sys2Proof.Machine

/-- The access and then the host's bookkeeping. A bus error is a fault (20_memory R47). -/
def State.hostAccess (s : State) (a : Access) (after : State → Word → State) :
    Host.Outcome State Fault Refusal :=
  if (s.access a).2.error then .fault (accessFault s a)
  else .next (after (s.access a).1 (s.access a).2.data)

/-- The host's turn. A host with no statement left does nothing (log 2). -/
def State.hostTurn (s : State) : Host.Outcome State Fault Refusal :=
  match s.program[s.hpc]? with
  | none => .next s
  | some (.ld w off) => s.hostAccess (.read w off) fun t v => { t with readData := v, hpc := s.hpc + 1 }
  | some (.st w off v) => s.hostAccess (.write w off v) fun t _ => { t with hpc := s.hpc + 1 }
  | some (.bnz32 off mask label) =>
    s.hostAccess (.read .w32 off) fun t v =>
      { t with readData := v, hpc := if v &&& mask ≠ 0 then label else s.hpc + 1 }

/-! ### Pseudo-instructions -/

/-- The buffers that `fill` names (R68). -/
inductive FillBuf where
  | inBuf
  | pwBuf
  | saltBuf
  | ctBuf
deriving DecidableEq, Repr

def FillBuf.buf : FillBuf → Buf
  | .inBuf => .inBuf
  | .pwBuf => .pwBuf
  | .saltBuf => .saltBuf
  | .ctBuf => .ctBuf

/-- The length registers that `setlen` names (R68). -/
inductive LenReg where
  | inLen
  | pwLen
  | saltLen
  | ctLen
  | saltgenLen
deriving DecidableEq, Repr

def LenReg.reg : LenReg → Reg
  | .inLen => .inLen
  | .pwLen => .pwLen
  | .saltLen => .saltLen
  | .ctLen => .ctLen
  | .saltgenLen => .saltgenLen

/-- The command and convenience statements of R67 and R68, and the primitive statements themselves. DESIGN CHOICE (log 19):
in `run X` X is a command statement. The spec does not say which statements X may be. -/
inductive Pseudo where
  | prim (st : Stmt)
  | command (i : Instr)
  | wait
  | run (i : Instr)
  | fill (b : FillBuf) (bytes : List Byte)
  | fills (b : FillBuf) (text : List Char)
  | setlen (r : LenReg) (n : Word)
deriving DecidableEq, Repr

/-- `st8 BASE+i, bi` for each byte in order (R68). -/
def fillStmts : Nat → List Byte → List Stmt
  | _, [] => []
  | off, b :: bs => .st .w8 off (b.zeroExtend 32) :: fillStmts (off + 1) bs

/-- `st32 CMD, w` (R68). -/
def commandStmt (i : Instr) : Stmt := .st .w32 Reg.cmd.offset (encode i)

/-- `L: bnz32 STATUS, 0x1, L` (R68). -/
def waitStmt (at_ : Nat) : Stmt := .bnz32 Reg.status.offset 1 at_

/-- The expansion of a statement that stands at index `at_` (R68). -/
def Pseudo.expand (at_ : Nat) : Pseudo → List Stmt
  | .prim st => [st]
  | .command i => [commandStmt i]
  | .wait => [waitStmt at_]
  | .run i => [commandStmt i, waitStmt (at_ + 1)]
  | .fill b bytes => fillStmts b.buf.base bytes
  | .fills b text => fillStmts b.buf.base (text.map fun c => BitVec.ofNat 8 c.toNat)
  | .setlen r n => [.st .w32 r.reg.offset n]

/-- The encoding of a program (R69): its bus statements after expansion. -/
def assembleFrom : Nat → List Pseudo → List Stmt
  | _, [] => []
  | n, p :: ps => p.expand n ++ assembleFrom (n + (p.expand n).length) ps

end Sys2Proof.Machine
end

