-- ==== Sys2Proof/Machine/Sequencer.lean ====
section
/-! DEFINITION. The sequencer's completion step (60_exceptions R117), and which agent moves (20_memory R54). -/

namespace Sys2Proof.Machine

/-- The completion step of command word `w`: decode, then the command; an illegal word raises ILLEGAL_COMMAND with
ERRPOS = w (30_encoding R63, R64, 60_exceptions R116). -/
def State.completeWord (s : State) (w : Word) : Host.Outcome State Fault Refusal :=
  match decode w with
  | .ok i => exec i s
  | .error _ => .next (s.raise (opField w) (illegalCommand w))

/-- The sequencer's turn: the completion step where it is enabled (R117, 70_reset R130), else nothing. -/
def State.sequencerTurn (s : State) : Host.Outcome State Fault Refusal :=
  match s.phase with
  | .idle => .next s
  | .busy w => if s.rst then .next s else s.completeWord w

/-- The agent that moves next: the schedule's first entry. Past its end the sequencer moves while a command is in
flight, and the host moves otherwise (log 1; 70_reset R140). -/
def State.turn (s : State) : Turn :=
  match s.schedule with
  | t :: _ => t
  | [] => if s.busy && !s.rst then .sequencer else .host

/-- The state with the schedule's first entry taken. -/
def State.popTurn (s : State) : State := { s with schedule := s.schedule.tail }

/-- One step of the agent `t`. -/
def State.turnStep (s : State) (t : Turn) : Host.Outcome State Fault Refusal :=
  match t with
  | .host => s.hostTurn
  | .sequencer => s.sequencerTurn
  | .rstAssert => .next s.assertRst
  | .rstDeassert => .next s.deassertRst

/-- The block with word `w` issued (R66) and the sequencer's turn next (log 12). -/
def State.withCommand (s : State) (w : Word) : State :=
  { s with phase := .busy w, done := false, rst := false, schedule := .sequencer :: s.schedule }

end Sys2Proof.Machine
end

