-- ==== Sys2Proof/Machine/Step.lean ====
section
/-! DEFINITION. One step of the block and its surroundings: one host access, one completion step, or one move of the
reset input (20_memory R54). -/

namespace Sys2Proof.Machine

def step (s : State) : Host.Outcome State Fault Refusal := s.popTurn.turnStep s.turn

/-- The block does not fetch (20_memory R57): its program is the command word a host write to CMD captured in PHASE. So
this places the word there as the issue does, and gives the sequencer the next turn (log 12). -/
def State.withFetchWord (s : State) (nbits w : Nat) : State := s.withCommand (BitVec.ofNat 32 (w % 2 ^ nbits))

end Sys2Proof.Machine
end

