-- ==== Sys2Proof/Safety.lean ====
section
/-! DEFINITION. The terms the claims use: the invariant, legal command words as the spec writes them (30_encoding R62),
the two ends of a completion step as the spec writes them (60_exceptions R118, R119), bit streams, and which bytes a
state's readers may tell apart. -/

namespace Sys2Proof.Machine

/-- What every reachable state satisfies. -/
structure State.Inv (s : State) : Prop where
  /-- Memory is in canonical form. -/
  mem_wf : Memory.wf s.mem
  /-- Only buffer bytes below the capacity are ever written (20_memory R48). -/
  mem_in_buffers : ∀ c ∈ s.mem, ∃ b : Buf, b.base ≤ c.1 ∧ c.1 < b.base + b.cap s.cfg
  /-- A loaded custom table has 32 distinct symbols (10_state R39). -/
  custom_distinct : s.customValid = true → s.customTable.Valid
  /-- The custom slot that is not loaded holds its reset contents (10_state R39). -/
  custom_unloaded : s.customValid = false → s.customTable = Table.zero
  /-- ERRINFO and ERRPOS are 0 where no error is reported (10_state R23, R24). -/
  success_clears : s.errCode = .noError → s.errInfo = {} ∧ s.errPos = 0
  /-- OUT_LEN counts bytes of OUT_BUF (10_state R27). -/
  out_fits : s.outLen.toNat ≤ s.cfg.outCap
  /-- While a command is in flight DONE is 0 (70_reset R135). -/
  busy_not_done : s.phase ≠ .idle → s.done = false
  /-- While rst is asserted no command is in flight (70_reset R130). -/
  reset_idle : s.rst = true → s.phase = .idle

/-- `Legal(w)` as R62 writes it. -/
def Legal (w : Word) : Prop :=
  w.extractLsb' 11 21 = 0 ∧
    w.extractLsb' 0 8 ∈ ([0x00, 0x01, 0x02, 0x03, 0x10, 0x11, 0x20, 0x21, 0xFF] : List Byte) ∧
    (w.extractLsb' 0 8 ∈ ([0x02, 0x03] : List Byte) → (w.extractLsb' 8 3).toNat ≤ 3) ∧
    (w.extractLsb' 0 8 ∉ ([0x02, 0x03] : List Byte) → w.extractLsb' 8 3 = 0)

/-- R119 after the destinations are written: the completion status of a success. -/
def State.succeeded (s : State) (op : Byte) : State :=
  { s with phase := .idle, done := true, errCode := .noError, lastOp := op, errInfo := {}, errPos := 0 }

/-- R118: the completion status of an error. -/
def State.failed (s : State) (op : Byte) (code : ErrCode) (info : ErrInfo) (pos : Word) : State :=
  { s with phase := .idle, done := true, errCode := code, lastOp := op, errInfo := info, errPos := pos }

/-- Bit `i` of the stream of a byte sequence (40_base32_codec R74), through Lean's own bit access. -/
def streamBit (b : List Byte) (i : Nat) : Bool := (b.getD (i / 8) 0).getMsbD (i % 8)

/-- Bit `i` of the stream of a sequence of symbol values (R78), through Lean's own bit access. -/
def valueStreamBit (v : List (BitVec 5)) (i : Nat) : Bool := (v.getD (i / 5) 0).getMsbD (i % 5)

/-- `v` is the sequence of values of the symbols `s` in table `t` (R78). -/
def ValuesOf (t : Table) (s : List Byte) (v : List (BitVec 5)) : Prop :=
  v.length = s.length ∧ ∀ k, k < s.length → t.syms[(v.getD k 0).toNat]? = some (s.getD k 0)

/-- The number of the block's own delimiters in a byte sequence (41_envelope_framing R95). -/
def delimiters (s : List Byte) : Nat := s.count delimiter

/-- A supported tag (R86). -/
def SupportedTag (sha3 : Bool) (t : Byte) : Prop := t.toNat ≤ 6 ∧ (t.toNat ≤ 3 ∨ sha3 = true)

/-- The envelope of four fields as R92 writes it, `c` being Alpha(1). -/
def wireFormat (c : Table) (salt : List Byte) (it : Word) (t : Byte) (ct : List Byte) : List Byte :=
  encode32 c salt ++ [0x55] ++ encode32 c (iterPack it) ++ [0x55] ++ encode32 c [t] ++ [0x55] ++ encode32 c ct

/-- The argument checks of ENV_SERIALIZE before the tag (R98). -/
def SerializeArgs (s : State) : Prop :=
  s.saltLen.toNat ≤ s.cfg.saltCap ∧ s.ctLen.toNat ≤ s.cfg.ctCap ∧ s.iter.getLsbD 31 = false

/-- The argument checks of ENV_ENCRYPT before the tag (42_envelope_crypto R107). -/
def EncryptArgs (s : State) : Prop :=
  s.inLen.toNat ≤ s.cfg.inCap ∧ s.pwLen.toNat ≤ s.cfg.pwCap ∧ s.saltgenLen.toNat ≤ s.cfg.saltCap ∧
    s.iter.getLsbD 31 = false

/-- `t` is the table that ASEL selects (30_encoding R59, 00_scope R14): 0 RFC4648, 1 CROCKFORD, 2 WORDSAFE, 3 CUSTOM. -/
def SelectsTable (s : State) (asel : BitVec 3) (t : Table) : Prop :=
  asel = 0 ∧ t = s.cfg.rfc4648 ∨ asel = 1 ∧ t = s.cfg.crockford ∨ asel = 2 ∧ t = s.cfg.wordsafe ∨
    asel = 3 ∧ t = s.customTable

/-- The alphabet is one a codec command may use: a preset, or the loaded custom slot (40_base32_codec R82). -/
def AlphabetReady (s : State) (asel : BitVec 3) : Prop := asel = 3 → s.customValid = true

/-- A write to OUT_BUF and OUT_LEN (10_state R27, R35): `Buf(OUT)[0..L) <- v ; R(OUT_LEN) <- L`. -/
def State.withOutput (s : State) (v : List Byte) : State :=
  { s with mem := Memory.writeList s.mem 0x20000 v, outLen := BitVec.ofNat 32 v.length }

/-- The writes that R134 drops while a command is in flight: to CMD and the input registers, and to a writable buffer
with some lane below the capacity. -/
def BusyDrops (s : State) (w : Width) (off : Nat) : Prop :=
  off ∈ [0x004, 0x018, 0x020, 0x024, 0x028, 0x02C, 0x030, 0x034] ∨
    ∃ (b : Buf) (k : Nat), b ≠ .outBuf ∧ b.base ≤ off ∧ off < b.base + 0x10000 ∧ k < widthBytes w ∧
      off + k < b.base + b.cap s.cfg

/-- Two states that differ in nothing but bytes of the PW_BUF aperture. -/
def SameButPassword (s t : State) : Prop :=
  t = { s with mem := t.mem } ∧
    ∀ a, ¬(0x30000 ≤ a ∧ a < 0x40000) → Memory.read? t.mem a = Memory.read? s.mem a

/-- Every byte of memory reads in `t` as in `s`, but for the `n` bytes from offset `base`. -/
def SameOutside (s t : State) (base n : Nat) : Prop :=
  ∀ a, ¬(base ≤ a ∧ a < base + n) → Memory.read? t.mem a = Memory.read? s.mem a

/-- A run of `k` steps ends in `t` without a fault or a refusal. -/
def Reaches (s : State) (k : Nat) (t : State) : Prop := Sys2Proof.core.run k s = .next t

end Sys2Proof.Machine
end

