-- ==== Sys2Proof/Certificates/Slice0/Obligations.lean ====
section
/-! DEFINITION. The statements for the provers. -/

open Sys2Proof Sys2Proof.Machine

/-! ### Encoding -/

/-- R59, R61, R64: every well-formed command is what the decoder reads from its word. -/
def Obligations.DecodeInvertsEncode : Prop := ∀ i : Instr, i.WellFormed → decode (encode i) = .ok i

/-- R59, R64: a word that decodes is the word of the command it decodes to, so no bit of it is dropped. -/
def Obligations.EncodeInvertsDecode : Prop :=
  ∀ (w : Word) (i : Instr), decode w = .ok i → encode i = w ∧ i.WellFormed

/-- R62, R64: the decoder accepts exactly the legal words, and the match and mask form says which words are legal. It names
no command: which command a legal word decodes to follows from `EncodeInvertsDecode` and the word that each command's own
result statement gives it. -/
def Obligations.DecodeAcceptsLegalWords : Prop :=
  ∀ w : Word, ((∃ i, decode w = .ok i) ↔ Legal w) ∧
    (Legal w ↔ w &&& 0xFFFFFCFF = 0x00000002 ∨ w &&& 0xFFFFFCFF = 0x00000003 ∨
      w ∈ ([0x00, 0x01, 0x10, 0x11, 0x20, 0x21, 0xFF] : List Word))

/-- R61, R68: words written out from the table decode to the commands they stand for. -/
def Obligations.SampleWordsDecode : Prop :=
  decode 0b00000000000000000000000000000000 = .ok .nop ∧
    decode 0b00000000000000000000000000000001 = .ok .alphaLoad ∧
    decode 0b00000000000000000000000100000010 = .ok (.b32Encode 1) ∧
    decode 0b00000000000000000000001100000011 = .ok (.b32Decode 3) ∧
    decode 0b00000000000000000000000000010000 = .ok .envSerialize ∧
    decode 0b00000000000000000000000000010001 = .ok .envParse ∧
    decode 0b00000000000000000000000000100000 = .ok .envEncrypt ∧
    decode 0b00000000000000000000000000100001 = .ok .envDecrypt ∧
    decode 0b00000000000000000000000011111111 = .ok .softReset

/-! ### Steps -/

/-- R57, R64, R117: the sequencer's turn runs exactly the command that the captured word decodes to, once rst is
deasserted; in the idle phase it changes nothing. The schedule's entry is taken, which is the model's own (log 1). -/
def Obligations.StepRunsIssuedCommand : Prop :=
  ∀ (s : State), s.rst = false → (s.schedule = [] ∧ s.phase ≠ .idle ∨ s.schedule.head? = some .sequencer) →
    (∀ w i, s.phase = .busy w → decode w = .ok i → step s = exec i { s with schedule := s.schedule.tail }) ∧
    (s.phase = .idle → step s = .next { s with schedule := s.schedule.tail })

/-- R63: an illegal word is issued like any other, and its completion step raises ILLEGAL_COMMAND with ERRPOS = w and
changes nothing else. When the sequencer moves is read from the schedule, whose entry is taken: both are the model's own
choice (log 1). -/
def Obligations.IllegalWordCompletes : Prop :=
  ∀ (s : State) (w : Word), ¬ Legal w →
    (s.rst = false → s.phase = .idle →
      (s.access (.write .w32 0x004 w)).1 = { s with phase := .busy w, done := false }) ∧
    (s.rst = false → s.phase = .busy w → (s.schedule = [] ∨ s.schedule.head? = some .sequencer) →
      step s = .next ({ s with schedule := s.schedule.tail }.failed (w.extractLsb' 0 8) .illegalCommand {} w))

/-- R66: the write to CMD that gets no bus error. The data 0 of the answer to a write is the model's own choice
(log 16). -/
def Obligations.IssueCapturesTheWord : Prop :=
  ∀ (s : State) (w : Word), s.rst = false →
    (s.phase = .idle → s.access (.write .w32 0x004 w) =
      ({ s with phase := .busy w, done := false }, { error := false, data := 0 })) ∧
    (s.phase ≠ .idle → s.access (.write .w32 0x004 w) =
      ({ s with werr := true }, { error := false, data := 0 }))

/-- R140: a busy block completes. After `k` host turns without a fault the next step ends the command. The host turns are
entries of the schedule, and past its end the sequencer moves: both are the model's own choice (log 1). -/
def Obligations.BusyBlockCompletes : Prop :=
  ∀ (k : Nat) (s t : State), s.phase ≠ .idle → s.rst = false → s.schedule = List.replicate k .host →
    (∀ u, Reaches s k u → ∃ v, step u = .next v) ∧ (Reaches s (k + 1) t → t.phase = .idle ∧ t.done = true)

/-! ### How commands end -/

/-- R117, R119: every command, from every state, completes in its one step. -/
def Obligations.EveryCommandCompletes : Prop :=
  ∀ (i : Instr) (s : State), ∃ t, exec i s = .next t ∧ t.phase = .idle ∧ t.done = true ∧
    t.lastOp = (encode i).extractLsb' 0 8

/-- R118, R120: a completion step that reports an error has changed nothing but the completion status: the completion step
of a word, and that of a command. (The model's draw counter may have moved: log 8.) -/
def Obligations.ErrorsArePrecise : Prop :=
  (∀ (w : Word) (s t : State), s.completeWord w = .next t → t.errCode ≠ .noError →
    t = { s.failed (w.extractLsb' 0 8) t.errCode t.errInfo t.errPos with rngDraw := t.rngDraw }) ∧
  ∀ (i : Instr) (s t : State), exec i s = .next t → t.errCode ≠ .noError →
    t = { s.failed ((encode i).extractLsb' 0 8) t.errCode t.errInfo t.errPos with rngDraw := t.rngDraw }

/-- R119, R23, R24: a command that reports no error leaves ERRINFO and ERRPOS 0. -/
def Obligations.SuccessClearsErrorStatus : Prop :=
  ∀ (i : Instr) (s t : State), exec i s = .next t → t.errCode = .noError →
    t = t.succeeded i.opcode

/-! ### Results -/

/-- R110. -/
def Obligations.NopChangesOnlyTheStatus : Prop :=
  encode .nop = 0x00000000 ∧
    (∀ s : State, exec .nop s = .next (s.succeeded 0x00) ∧ (s.succeeded 0x00).werr = s.werr ∧
      (s.werr = false → (s.succeeded 0x00).status = 0x00000002)) ∧
    ∀ (w : Word) (s : State), w.extractLsb' 0 8 = 0 → w.extractLsb' 8 24 ≠ 0 →
      s.completeWord w = .next (s.failed 0x00 .illegalCommand {} w)

/-- R111: the state of R131 with the buffers kept, and then the completion status. The fields kept besides the buffers
are the level of rst and the model's own. -/
def Obligations.SoftResetRestoresResetValues : Prop :=
  encode .softReset = 0x000000FF ∧
    (∀ s : State, exec .softReset s = .next { State.resetWith s.cfg with
      mem := s.mem, bufDraw := s.bufDraw, rst := s.rst, program := s.program, hpc := s.hpc, readData := s.readData,
      schedule := s.schedule, rngDraw := s.rngDraw, done := true, lastOp := 0xFF }) ∧
    (∀ s t : State, exec .softReset s = .next t → t.status = 0x00FF0002 ∧ t.irq = false ∧
      t.read .w32 0x038 = 0 ∧ t.inLen = 0 ∧ ∀ b i, t.bufByte b i = s.bufByte b i) ∧
    ∀ (w : Word) (s : State), w.extractLsb' 0 8 = 0xFF → w.extractLsb' 8 24 ≠ 0 →
      s.completeWord w = .next (s.failed 0xFF .illegalCommand {} w)

/-- R81: the length check, the duplicate that is reported, and the load. -/
def Obligations.AlphaLoadResult : Prop :=
  encode .alphaLoad = 0x00000001 ∧
  ∀ s : State,
    (s.inLen ≠ 32 → exec .alphaLoad s = .next (s.failed 0x01 .invalidAlphabet { sub := 1 } s.inLen)) ∧
    (s.inLen = 32 → ∀ i j, i < j → j < 32 → s.bufByte .inBuf i = s.bufByte .inBuf j →
      (∀ k, k < i → s.bufByte .inBuf k ≠ s.bufByte .inBuf j) →
      (∀ l, l < j → ∀ k, k < l → s.bufByte .inBuf k ≠ s.bufByte .inBuf l) →
      exec .alphaLoad s = .next (s.failed 0x01 .invalidAlphabet
        { sub := 2, sym := s.bufByte .inBuf j, val := BitVec.ofNat 8 i } (BitVec.ofNat 32 j))) ∧
    (s.inLen = 32 → (∀ i j, i < j → j < 32 → s.bufByte .inBuf i ≠ s.bufByte .inBuf j) →
      ∃ a : Table, (∀ k, k < 32 → a.syms[k]? = some (s.bufByte .inBuf k)) ∧
        exec .alphaLoad s = .next ({ s with customTable := a, customValid := true }.succeeded 0x01))

/-- R82, R83: the checks of B32_ENCODE in order, and its result, with the table that each ASEL selects (R59, R14). -/
def Obligations.B32EncodeResult : Prop :=
  ∀ (s : State) (asel : BitVec 3) (t : Table), SelectsTable s asel t →
    encode (.b32Encode asel) = 0x00000002 ||| asel.zeroExtend 32 <<< 8 ∧
    (¬ AlphabetReady s asel →
      exec (.b32Encode asel) s = .next (s.failed 0x02 .alphabetNotLoaded { alpha := 3 } 0)) ∧
    (AlphabetReady s asel → s.cfg.inCap < s.inLen.toNat →
      exec (.b32Encode asel) s = .next (s.failed 0x02 .invalidArgument { sub := 1 } s.inLen)) ∧
    (AlphabetReady s asel → s.inLen.toNat ≤ s.cfg.inCap → s.cfg.outCap < (8 * s.inLen.toNat + 4) / 5 →
      exec (.b32Encode asel) s = .next (s.failed 0x02 .capacityExceeded { sub := 1 }
        (BitVec.ofNat 32 ((8 * s.inLen.toNat + 4) / 5)))) ∧
    (AlphabetReady s asel → s.inLen.toNat ≤ s.cfg.inCap → (8 * s.inLen.toNat + 4) / 5 ≤ s.cfg.outCap →
      exec (.b32Encode asel) s = .next ((s.withOutput
        (encode32 t (s.readBuf .inBuf s.inLen.toNat))).succeeded 0x02) ∧
      (s.withOutput (encode32 t (s.readBuf .inBuf s.inLen.toNat))).outLen =
        BitVec.ofNat 32 ((8 * s.inLen.toNat + 4) / 5))

/-- R82, R84: the checks of B32_DECODE in order, and its result, with the table that each ASEL selects (R59, R14). -/
def Obligations.B32DecodeResult : Prop :=
  ∀ (s : State) (asel : BitVec 3) (t : Table), SelectsTable s asel t →
    encode (.b32Decode asel) = 0x00000003 ||| asel.zeroExtend 32 <<< 8 ∧
    (¬ AlphabetReady s asel →
      exec (.b32Decode asel) s = .next (s.failed 0x03 .alphabetNotLoaded { alpha := 3 } 0)) ∧
    (AlphabetReady s asel → s.cfg.inCap < s.inLen.toNat →
      exec (.b32Decode asel) s = .next (s.failed 0x03 .invalidArgument { sub := 1 } s.inLen)) ∧
    (AlphabetReady s asel → s.inLen.toNat ≤ s.cfg.inCap →
      ∀ k, k < s.inLen.toNat → s.bufByte .inBuf k ∉ t.syms →
        (∀ l, l < k → s.bufByte .inBuf l ∈ t.syms) →
        exec (.b32Decode asel) s = .next (s.failed 0x03 .invalidSymbol
          { sym := s.bufByte .inBuf k, alpha := asel } (BitVec.ofNat 32 k))) ∧
    (AlphabetReady s asel → s.inLen.toNat ≤ s.cfg.inCap →
      (∀ k, k < s.inLen.toNat → s.bufByte .inBuf k ∈ t.syms) →
      (s.cfg.outCap < 5 * s.inLen.toNat / 8 →
        exec (.b32Decode asel) s = .next (s.failed 0x03 .capacityExceeded { sub := 1 }
          (BitVec.ofNat 32 (5 * s.inLen.toNat / 8)))) ∧
      (5 * s.inLen.toNat / 8 ≤ s.cfg.outCap →
        ∃ v, decode32 t (s.readBuf .inBuf s.inLen.toNat) = .ok v ∧ v.length = 5 * s.inLen.toNat / 8 ∧
          exec (.b32Decode asel) s = .next ((s.withOutput v).succeeded 0x03)))

/-- R62, R63: a reserved ASEL ends in ILLEGAL_COMMAND. That exec of the command term ends so, and not only its word, is the
model's own inference (log 14). -/
def Obligations.ReservedAselIsIllegal : Prop :=
  ∀ (s : State) (asel : BitVec 3), 3 < asel.toNat →
    exec (.b32Encode asel) s = .next (s.failed 0x02 .illegalCommand {} (0x00000002 ||| asel.zeroExtend 32 <<< 8)) ∧
    exec (.b32Decode asel) s = .next (s.failed 0x03 .illegalCommand {} (0x00000003 ||| asel.zeroExtend 32 <<< 8))

/-- R98: the checks of ENV_SERIALIZE in order, and its result. -/
def Obligations.EnvSerializeResult : Prop :=
  encode .envSerialize = 0x00000010 ∧
  ∀ s : State, ∀ env, env = wireFormat s.cfg.crockford (s.readBuf .saltBuf s.saltLen.toNat) s.iter s.halgTag
      (s.readBuf .ctBuf s.ctLen.toNat) →
    (s.cfg.saltCap < s.saltLen.toNat →
      exec .envSerialize s = .next (s.failed 0x10 .invalidArgument { sub := 3 } s.saltLen)) ∧
    (s.saltLen.toNat ≤ s.cfg.saltCap → s.cfg.ctCap < s.ctLen.toNat →
      exec .envSerialize s = .next (s.failed 0x10 .invalidArgument { sub := 4 } s.ctLen)) ∧
    (s.saltLen.toNat ≤ s.cfg.saltCap → s.ctLen.toNat ≤ s.cfg.ctCap → s.iter.getLsbD 31 = true →
      exec .envSerialize s = .next (s.failed 0x10 .invalidArgument { sub := 6 } s.iter)) ∧
    (SerializeArgs s → 6 < s.halgTag.toNat →
      exec .envSerialize s = .next (s.failed 0x10 .unsupportedAlgorithm { sub := 1, val := s.halgTag } 0)) ∧
    (SerializeArgs s → 4 ≤ s.halgTag.toNat → s.halgTag.toNat ≤ 6 → s.cfg.sha3 = false →
      exec .envSerialize s = .next (s.failed 0x10 .unsupportedAlgorithm { sub := 2, val := s.halgTag } 0)) ∧
    (SerializeArgs s → SupportedTag s.cfg.sha3 s.halgTag → s.cfg.outCap < env.length →
      exec .envSerialize s = .next (s.failed 0x10 .capacityExceeded { sub := 1 } (BitVec.ofNat 32 env.length))) ∧
    (SerializeArgs s → SupportedTag s.cfg.sha3 s.halgTag → env.length ≤ s.cfg.outCap →
      exec .envSerialize s = .next ((s.withOutput env).succeeded 0x10))

/-- R99: the check of ENV_PARSE, the errors of Parse, and the six destinations. -/
def Obligations.EnvParseResult : Prop :=
  encode .envParse = 0x00000011 ∧
  ∀ s : State,
    (s.cfg.inCap < s.inLen.toNat →
      exec .envParse s = .next (s.failed 0x11 .invalidArgument { sub := 1 } s.inLen)) ∧
    (s.inLen.toNat ≤ s.cfg.inCap →
      (∀ e, parse s.cfg (s.readBuf .inBuf s.inLen.toNat) = .error e →
        exec .envParse s = .next (s.failed 0x11 e.code e.info e.pos)) ∧
      (∀ f, parse s.cfg (s.readBuf .inBuf s.inLen.toNat) = .ok f →
        exec .envParse s = .next ({ s with
          mem := Memory.writeList (Memory.writeList s.mem 0x40000 f.salt) 0x50000 f.ct,
          saltLen := BitVec.ofNat 32 f.salt.length, iter := f.iter, halgTag := f.tag,
          ctLen := BitVec.ofNat 32 f.ct.length }.succeeded 0x11)))

/-- R107, for every external IP: the checks of ENV_ENCRYPT in order, and what follows each answer of the IP. The machine
runs the command with its own IP. The draw counter is the model's own (log 8), as is what ERRPOS shows for a ciphertext of
2^32 bytes or more (log 13). -/
def Obligations.EnvEncryptResult : Prop :=
  encode .envEncrypt = 0x00000020 ∧ (∀ s, exec .envEncrypt s = .next (envEncryptWith Config.ip s)) ∧
  ∀ (ip : ExtIP) (s : State),
    (s.cfg.inCap < s.inLen.toNat → envEncryptWith ip s =
      { s.failed 0x20 .invalidArgument { sub := 1 } s.inLen with rngDraw := s.rngDraw + 1 }) ∧
    (s.inLen.toNat ≤ s.cfg.inCap → s.cfg.pwCap < s.pwLen.toNat → envEncryptWith ip s =
      { s.failed 0x20 .invalidArgument { sub := 2 } s.pwLen with rngDraw := s.rngDraw + 1 }) ∧
    (s.inLen.toNat ≤ s.cfg.inCap → s.pwLen.toNat ≤ s.cfg.pwCap → s.cfg.saltCap < s.saltgenLen.toNat →
      envEncryptWith ip s =
        { s.failed 0x20 .invalidArgument { sub := 5 } s.saltgenLen with rngDraw := s.rngDraw + 1 }) ∧
    (s.inLen.toNat ≤ s.cfg.inCap → s.pwLen.toNat ≤ s.cfg.pwCap → s.saltgenLen.toNat ≤ s.cfg.saltCap →
      s.iter.getLsbD 31 = true → envEncryptWith ip s =
        { s.failed 0x20 .invalidArgument { sub := 6 } s.iter with rngDraw := s.rngDraw + 1 }) ∧
    (EncryptArgs s → 6 < s.halgTag.toNat → envEncryptWith ip s =
      { s.failed 0x20 .unsupportedAlgorithm { sub := 1, val := s.halgTag } 0 with rngDraw := s.rngDraw + 1 }) ∧
    (EncryptArgs s → 4 ≤ s.halgTag.toNat → s.halgTag.toNat ≤ 6 → s.cfg.sha3 = false → envEncryptWith ip s =
      { s.failed 0x20 .unsupportedAlgorithm { sub := 2, val := s.halgTag } 0 with rngDraw := s.rngDraw + 1 }) ∧
    (EncryptArgs s → SupportedTag s.cfg.sha3 s.halgTag →
      (ip.rng s.rngDraw s.saltgenLen.toNat = none →
        envEncryptWith ip s = { s.failed 0x20 .rngFailed {} 0 with rngDraw := s.rngDraw + 1 }) ∧
      ∀ salt, ip.rng s.rngDraw s.saltgenLen.toNat = some salt →
        (ip.kdf (s.readBuf .pwBuf s.pwLen.toNat) salt.1 s.iter s.halgTag = none →
          envEncryptWith ip s = { s.failed 0x20 .kdfFailed {} 0 with rngDraw := s.rngDraw + 1 }) ∧
        ∀ dk, ip.kdf (s.readBuf .pwBuf s.pwLen.toNat) salt.1 s.iter s.halgTag = some dk →
          ∀ (key : Bytes 32) (iv : Bytes 16), key.1 ++ iv.1 = dk.1 →
            (ip.cipherEnc key iv (s.readBuf .inBuf s.inLen.toNat) = none →
              envEncryptWith ip s = { s.failed 0x20 .cipherFailed {} 0 with rngDraw := s.rngDraw + 1 }) ∧
            ∀ ct, ip.cipherEnc key iv (s.readBuf .inBuf s.inLen.toNat) = some ct →
              (s.cfg.ctCap < ct.length → ct.length < 2 ^ 32 → envEncryptWith ip s =
                { s.failed 0x20 .capacityExceeded { sub := 3 } (BitVec.ofNat 32 ct.length) with
                  rngDraw := s.rngDraw + 1 }) ∧
              (s.cfg.ctCap < ct.length → ∃ pos, envEncryptWith ip s =
                { s.failed 0x20 .capacityExceeded { sub := 3 } pos with rngDraw := s.rngDraw + 1 }) ∧
              (ct.length ≤ s.cfg.ctCap →
                ∀ env, env = wireFormat s.cfg.crockford salt.1 s.iter s.halgTag ct →
                  (s.cfg.outCap < env.length → envEncryptWith ip s =
                    { s.failed 0x20 .capacityExceeded { sub := 1 } (BitVec.ofNat 32 env.length) with
                      rngDraw := s.rngDraw + 1 }) ∧
                  (env.length ≤ s.cfg.outCap → envEncryptWith ip s =
                    { (s.withOutput env).succeeded 0x20 with rngDraw := s.rngDraw + 1 })))

/-- R108, for every external IP: the checks of ENV_DECRYPT in order, and what follows each answer of the IP. The machine
runs the command with its own IP. What ERRPOS shows for a plaintext of 2^32 bytes or more is the model's own (log 13). -/
def Obligations.EnvDecryptResult : Prop :=
  encode .envDecrypt = 0x00000021 ∧ (∀ s, exec .envDecrypt s = .next (envDecryptWith Config.ip s)) ∧
  ∀ (ip : ExtIP) (s : State),
    (s.cfg.inCap < s.inLen.toNat →
      envDecryptWith ip s = s.failed 0x21 .invalidArgument { sub := 1 } s.inLen) ∧
    (s.inLen.toNat ≤ s.cfg.inCap → s.cfg.pwCap < s.pwLen.toNat →
      envDecryptWith ip s = s.failed 0x21 .invalidArgument { sub := 2 } s.pwLen) ∧
    (s.inLen.toNat ≤ s.cfg.inCap → s.pwLen.toNat ≤ s.cfg.pwCap →
      (∀ e, parse s.cfg (s.readBuf .inBuf s.inLen.toNat) = .error e →
        envDecryptWith ip s = s.failed 0x21 e.code e.info e.pos) ∧
      ∀ f, parse s.cfg (s.readBuf .inBuf s.inLen.toNat) = .ok f →
        (ip.kdf (s.readBuf .pwBuf s.pwLen.toNat) f.salt f.iter f.tag = none →
          envDecryptWith ip s = s.failed 0x21 .kdfFailed {} 0) ∧
        ∀ dk, ip.kdf (s.readBuf .pwBuf s.pwLen.toNat) f.salt f.iter f.tag = some dk →
          ∀ (key : Bytes 32) (iv : Bytes 16), key.1 ++ iv.1 = dk.1 →
            (ip.cipherDec key iv f.ct = none → envDecryptWith ip s = s.failed 0x21 .decryptionFailed {} 0) ∧
            ∀ pt, ip.cipherDec key iv f.ct = some pt →
              (s.cfg.outCap < pt.length → pt.length < 2 ^ 32 →
                envDecryptWith ip s = s.failed 0x21 .capacityExceeded { sub := 1 } (BitVec.ofNat 32 pt.length)) ∧
              (s.cfg.outCap < pt.length →
                ∃ pos, envDecryptWith ip s = s.failed 0x21 .capacityExceeded { sub := 1 } pos) ∧
              (pt.length ≤ s.cfg.outCap → envDecryptWith ip s = (s.withOutput pt).succeeded 0x21))

/-! ### The codec -/

/-- R75. -/
def Obligations.EncodedLength : Prop :=
  ∀ (t : Table) (b : List Byte),
    (encode32 t b).length = (8 * b.length + 4) / 5 ∧
    (encode32 t b).length = 8 * (b.length / 5) + [0, 2, 4, 5, 7].getD (b.length % 5) 0 ∧
    (b.length = 0 → (encode32 t b).length = 0)

/-- R74, R76: symbol `k` is the table's symbol for the value whose bits, most significant first, are stream bits `5k` to
`5k + 4`, with 0 past the end. -/
def Obligations.EncodedSymbols : Prop :=
  ∀ (t : Table) (b : List Byte) (k : Nat), k < (8 * b.length + 4) / 5 →
    ∃ g : BitVec 5, (encode32 t b)[k]? = t.syms[g.toNat]? ∧
      ∀ j, j < 5 → g.getMsbD j = if 5 * k + j < 8 * b.length then streamBit b (5 * k + j) else false

/-- R77, R78: a decode fails at the first symbol outside the table, and otherwise its bytes are the value bits in order,
the last `5m - 8n` of them discarded. -/
def Obligations.DecodedBytes : Prop :=
  ∀ (t : Table) (s : List Byte), t.Valid →
    (∀ k (h : k < s.length), s[k] ∉ t.syms → (∀ l (_ : l < k), s[l] ∈ t.syms) →
      decode32 t s = .error { pos := k, sym := s[k] }) ∧
    (∀ v, ValuesOf t s v → ∃ out, decode32 t s = .ok out ∧ out.length = 5 * s.length / 8 ∧
      ∀ j q, j < out.length → q < 8 → (out.getD j 0).getMsbD q = valueStreamBit v (8 * j + q))

/-- R79: the round trip law of the codec. -/
def Obligations.Base32RoundTrip : Prop :=
  ∀ (t : Table) (b : List Byte), t.Valid → decode32 t (encode32 t b) = .ok b

/-- R80: re-encoding a decoded string gives it back exactly when it is canonical; where the length is 1, 3 or 6 modulo 8
it gives a shorter string. The strings of the last two clauses, "ZZ" and "ZW", are of the default CROCKFORD table, whose
symbols are PRESUMED (log 6). -/
def Obligations.CanonicalStringsRoundTrip : Prop :=
  (∀ (t : Table) (s : List Byte) (v : List (BitVec 5)) (out : List Byte), t.Valid → ValuesOf t s v →
    decode32 t s = .ok out →
    (encode32 t out = s ↔
      s.length % 8 ∈ [0, 2, 4, 5, 7] ∧ ∀ i, 8 * out.length ≤ i → i < 5 * s.length → valueStreamBit v i = false) ∧
    (s.length % 8 ∈ [1, 3, 6] → (encode32 t out).length < s.length)) ∧
  decode32 crockfordTable [0x5A, 0x5A] = .ok [0xFF] ∧ encode32 crockfordTable [0xFF] = [0x5A, 0x57]

/-! ### The envelope -/

/-- R86: when the tag check passes, and what it reports. -/
def Obligations.TagCheckRule : Prop :=
  ∀ (sha3 : Bool) (t : Byte),
    (tagError sha3 t = none ↔ t.toNat ≤ 6 ∧ (t.toNat ≤ 3 ∨ sha3 = true)) ∧
    (6 < t.toNat → tagError sha3 t = some { code := .unsupportedAlgorithm, info := { sub := 1, val := t } }) ∧
    (4 ≤ t.toNat → t.toNat ≤ 6 → sha3 = false →
      tagError sha3 t = some { code := .unsupportedAlgorithm, info := { sub := 2, val := t } })

/-- R88: the little-endian bytes of the count, as few as hold it and at least one. -/
def Obligations.IterationPack : Prop :=
  (∀ it : Word, 1 ≤ (iterPack it).length ∧ (iterPack it).length ≤ 4 ∧
    (∀ k, k < (iterPack it).length → (iterPack it)[k]? = some (it.extractLsb' (8 * k) 8)) ∧
    (∀ k, (iterPack it).length ≤ k → k < 4 → it.extractLsb' (8 * k) 8 = 0) ∧
    ((iterPack it).length ≠ 1 → (iterPack it).getLast? ≠ some 0)) ∧
  iterPack 0 = [0x00] ∧ iterPack 100000 = [0xA0, 0x86, 0x01]

/-- R89: the count of 1 to 4 little-endian bytes, its two errors, and the inverse of R88; a zero byte on top changes
nothing. -/
def Obligations.IterationUnpack : Prop :=
  (∀ ib : List Byte,
    (ib.length < 1 ∨ 4 < ib.length → ib.length < 2 ^ 32 → iterUnpack ib = .error
      { code := .malformedEnvelope, info := { seg := 1, sub := 3 }, pos := BitVec.ofNat 32 ib.length }) ∧
    (1 ≤ ib.length → ib.length ≤ 4 →
      ∀ it, it = ((List.range ib.length).map fun i => (ib.getD i 0).toNat <<< (8 * i)).sum →
        (2 ^ 31 ≤ it → iterUnpack ib = .error
          { code := .malformedEnvelope, info := { seg := 1, sub := 4 }, pos := BitVec.ofNat 32 it }) ∧
        (it < 2 ^ 31 → iterUnpack ib = .ok (BitVec.ofNat 32 it))) ∧
    (1 ≤ ib.length → ib.length ≤ 3 → iterUnpack (ib ++ [0]) = iterUnpack ib)) ∧
  ∀ it : Word, it.getLsbD 31 = false → iterUnpack (iterPack it) = .ok it

/-- R93: the length of an envelope. -/
def Obligations.EnvelopeLength : Prop :=
  ∀ (c : Table) (salt : List Byte) (it : Word) (t : Byte) (ct : List Byte),
    (serialize c salt it t ct).length = (8 * salt.length + 4) / 5 + (8 * (iterPack it).length + 4) / 5 + 2 +
      (8 * ct.length + 4) / 5 + 3 ∧
    (encode32 c [t]).length = 2 ∧
    (encode32 c (iterPack it)).length = [2, 4, 5, 7].getD ((iterPack it).length - 1) 0

/-- R94, of the default tables (log 6). -/
def Obligations.TagSegments : Prop :=
  encode32 crockfordTable [0] = [0x30, 0x30] ∧ encode32 crockfordTable [1] = [0x30, 0x34] ∧
    encode32 crockfordTable [2] = [0x30, 0x38] ∧ encode32 crockfordTable [3] = [0x30, 0x43] ∧
    encode32 crockfordTable [4] = [0x30, 0x47] ∧ encode32 crockfordTable [5] = [0x30, 0x4D] ∧
    encode32 crockfordTable [6] = [0x30, 0x52] ∧ encode32 crockfordTable [7] = [0x30, 0x57]

/-- R91: an encoded segment never contains the delimiter, whatever legal CROCKFORD table the implementation has, and a
serialized envelope contains exactly three. -/
def Obligations.SegmentsHaveNoDelimiter : Prop :=
  ∀ (p : Params) (b : List Byte), (0x55 : Byte) ∉ encode32 p.crockford b ∧
    ∀ it t ct, (serialize p.crockford b it t ct).count 0x55 = 3

/-- R95: the checks of Parse in order, and its result. (A command parses at most 65536 bytes: 00_scope R8.) -/
def Obligations.ParseRule : Prop :=
  ∀ (p : Params) (s : List Byte), s.length ≤ 65536 →
    (delimiters s ≠ 3 → parse p s = .error
      { code := .malformedEnvelope, info := { sub := 1 }, pos := BitVec.ofNat 32 (delimiters s + 1) }) ∧
    (delimiters s = 3 → ∀ k (h : k < s.length), s[k] ≠ 0x55 → s[k] ∉ p.crockford.syms →
      (∀ l (_ : l < k), s[l] = 0x55 ∨ s[l] ∈ p.crockford.syms) → parse p s = .error
        { code := .malformedEnvelope,
          info := { sym := s[k], alpha := 1, seg := BitVec.ofNat 2 (delimiters (s.take k)), sub := 2 },
          pos := BitVec.ofNat 32 k }) ∧
    (∀ g0 g1 g2 g3 f0 f1 f2 f3, s = g0 ++ [0x55] ++ g1 ++ [0x55] ++ g2 ++ [0x55] ++ g3 →
      decode32 p.crockford g0 = .ok f0 → decode32 p.crockford g1 = .ok f1 → decode32 p.crockford g2 = .ok f2 →
      decode32 p.crockford g3 = .ok f3 →
      (∀ e, iterUnpack f1 = .error e → parse p s = .error e) ∧
      ∀ it, iterUnpack f1 = .ok it →
        (f2.length ≠ 1 → parse p s = .error
          { code := .malformedEnvelope, info := { seg := 2, sub := 5 }, pos := BitVec.ofNat 32 f2.length }) ∧
        ∀ t, f2 = [t] →
          (∀ e, tagError p.sha3 t = some e → parse p s = .error e) ∧
          (SupportedTag p.sha3 t → p.saltCap < f0.length → parse p s = .error
            { code := .capacityExceeded, info := { sub := 2 }, pos := BitVec.ofNat 32 f0.length }) ∧
          (SupportedTag p.sha3 t → f0.length ≤ p.saltCap → p.ctCap < f3.length → parse p s = .error
            { code := .capacityExceeded, info := { sub := 3 }, pos := BitVec.ofNat 32 f3.length }) ∧
          (SupportedTag p.sha3 t → f0.length ≤ p.saltCap → f3.length ≤ p.ctCap → parse p s =
            .ok { salt := f0, iter := it, tag := t, ct := f3 }))

/-- R96: a serialized envelope parses back to its fields. The converse does not hold: "UCG00U04U" parses, and serializing
its fields gives "UCGU04U". These two strings are vector P-4 (95_test_vectors 3.4, 3.5), under the default CROCKFORD table, whose
symbols are PRESUMED (log 6), and the parameters of the reference configuration, which the model chose (log 5). -/
def Obligations.ParseInvertsSerialize : Prop :=
  (∀ (p : Params) (salt : List Byte) (it : Word) (t : Byte) (ct : List Byte), salt.length ≤ p.saltCap →
    it.getLsbD 31 = false → SupportedTag p.sha3 t → ct.length ≤ p.ctCap →
    parse p (serialize p.crockford salt it t ct) = .ok { salt := salt, iter := it, tag := t, ct := ct }) ∧
  parse referenceParams [0x55, 0x43, 0x47, 0x30, 0x30, 0x55, 0x30, 0x34, 0x55] =
    .ok { salt := [], iter := 100, tag := 1, ct := [] } ∧
  serialize crockfordTable [] 100 1 [] = [0x55, 0x43, 0x47, 0x55, 0x30, 0x34, 0x55]

/-- R109: for every external IP whose cipher inverts, decrypting what was encrypted under the same password gives the
plaintext. `s` is the state before ENV_ENCRYPT, `u` any state with its envelope as input and its password. Where SHA-3 is
absent, tags 4 to 6 fail at ENV_ENCRYPT already. -/
def Obligations.DecryptRecoversPlaintext : Prop :=
  (∀ s, exec .envEncrypt s = .next (envEncryptWith Config.ip s) ∧
    exec .envDecrypt s = .next (envDecryptWith Config.ip s)) ∧
  (∀ (ip : ExtIP) (s : State), s.cfg.sha3 = false → 4 ≤ s.halgTag.toNat → s.halgTag.toNat ≤ 6 →
    (envEncryptWith ip s).errCode ≠ .noError) ∧
  ∀ (ip : ExtIP) (s u : State), ip.CipherInverse →
    (envEncryptWith ip s).errCode = .noError → u.cfg = s.cfg →
    u.inLen = (envEncryptWith ip s).outLen → u.inLen.toNat ≤ u.cfg.inCap →
    (∀ i, i < u.inLen.toNat → u.bufByte .inBuf i = (envEncryptWith ip s).bufByte .outBuf i) →
    u.pwLen = s.pwLen → (∀ i, i < u.pwLen.toNat → u.bufByte .pwBuf i = s.bufByte .pwBuf i) →
    s.inLen.toNat ≤ u.cfg.outCap →
    (envDecryptWith ip u).errCode = .noError ∧ (envDecryptWith ip u).outLen = s.inLen ∧
      ∀ i, i < s.inLen.toNat → (envDecryptWith ip u).bufByte .outBuf i = s.bufByte .inBuf i

/-! ### Frames -/

/-- R27, R35, R60, R83, R84, R98, R107, R108: the commands whose result goes to OUT_BUF change OUT_BUF[0..OUT_LEN),
OUT_LEN and the completion status, and nothing else; where they report an error, not even OUT. (The draw counter of
ENV_ENCRYPT is the model's own: log 8.) -/
def Obligations.OutputCommandsFrame : Prop :=
  ∀ (i : Instr) (s t : State), ((∃ a, i = .b32Encode a) ∨ (∃ a, i = .b32Decode a) ∨ i = .envSerialize ∨
      i = .envEncrypt ∨ i = .envDecrypt) → exec i s = .next t →
    t = { s with
      mem := t.mem, outLen := t.outLen, phase := t.phase, done := t.done, errCode := t.errCode, lastOp := t.lastOp,
      errInfo := t.errInfo, errPos := t.errPos, rngDraw := t.rngDraw } ∧
    (i ≠ .envEncrypt → t.rngDraw = s.rngDraw) ∧ SameOutside s t 0x20000 t.outLen.toNat ∧
    (t.errCode ≠ .noError → t.outLen = s.outLen ∧ ∀ a, Memory.read? t.mem a = Memory.read? s.mem a)

/-- R60, R99: ENV_PARSE changes SALT_BUF[0..SALT_LEN), SALT_LEN, ITER, HALG, CT_BUF[0..CT_LEN), CT_LEN and the completion
status, and nothing else; where it reports an error, none of the six. -/
def Obligations.ParseFrame : Prop :=
  ∀ (s t : State), exec .envParse s = .next t →
    t = { s with
      mem := t.mem, saltLen := t.saltLen, iter := t.iter, halgTag := t.halgTag, ctLen := t.ctLen, phase := t.phase,
      done := t.done, errCode := t.errCode, lastOp := t.lastOp, errInfo := t.errInfo, errPos := t.errPos } ∧
    (∀ a, ¬(0x40000 ≤ a ∧ a < 0x40000 + t.saltLen.toNat) → ¬(0x50000 ≤ a ∧ a < 0x50000 + t.ctLen.toNat) →
      Memory.read? t.mem a = Memory.read? s.mem a) ∧
    (t.errCode ≠ .noError → t.saltLen = s.saltLen ∧ t.iter = s.iter ∧ t.halgTag = s.halgTag ∧ t.ctLen = s.ctLen ∧
      ∀ a, Memory.read? t.mem a = Memory.read? s.mem a)

/-- R60, R81, R110, R111: NOP and ALPHA_LOAD write no memory and no register but the completion status, ALPHA_LOAD the
custom slot besides; SOFT_RESET writes no memory. -/
def Obligations.RegisterCommandsFrame : Prop :=
  ∀ (s t : State),
    (exec .nop s = .next t → t = { s with
      phase := t.phase, done := t.done, errCode := t.errCode, lastOp := t.lastOp, errInfo := t.errInfo,
      errPos := t.errPos }) ∧
    (exec .alphaLoad s = .next t → t = { s with
      phase := t.phase, done := t.done, errCode := t.errCode, lastOp := t.lastOp, errInfo := t.errInfo,
      errPos := t.errPos, customTable := t.customTable, customValid := t.customValid } ∧
      (t.errCode ≠ .noError → t.customTable = s.customTable ∧ t.customValid = s.customValid)) ∧
    ((exec .nop s = .next t ∨ exec .alphaLoad s = .next t ∨ exec .softReset s = .next t) →
      t.bufDraw = s.bufDraw ∧ t.cfg = s.cfg ∧ ∀ a, Memory.read? t.mem a = Memory.read? s.mem a)

/-! ### The bus -/

/-- R44 to R47, R49, R51, R130: exactly which accesses get the error response, which changes nothing and answers data 0, and
what every other access does: a read answers what the block reads at the offset and changes nothing, a write acts whole. That
an access past the window, 0x60000 and up, gets the error response is the model's own inference (log 4, DEDUCED). -/
def Obligations.BusErrorRule : Prop :=
  ∀ (s : State) (a : Access),
    ((s.access a).2.error = true ↔ s.rst = true ∨ 0x60000 ≤ a.off ∨
      (if a.off < 0x100 ∨ 0x180 ≤ a.off ∧ a.off < 0x10000 then ¬(a.width = .w32 ∧ a.off % 4 = 0)
        else a.off % widthBytes a.width ≠ 0)) ∧
    ((s.access a).2.error = true → (s.access a).1 = s ∧ (s.access a).2.data = 0) ∧
    ((s.access a).2.error = false →
      (∀ w off, a = .read w off → s.access a = (s, { error := false, data := s.read w off })) ∧
      ∀ w off v, a = .write w off v → (s.access a).1 = s.write w off v)

/-- R52: no read changes the block. -/
def Obligations.ReadsHaveNoSideEffect : Prop :=
  ∀ (s : State) (w : Width) (off : Nat), (s.access (.read w off)).1 = s

/-- R19 to R33: what each register reads. -/
def Obligations.RegisterReads : Prop :=
  ∀ s : State,
    s.read .w32 0x000 = 0x42333201 ∧ s.read .w32 0x004 = 0 ∧ s.read .w32 0x008 = s.status ∧
    s.read .w32 0x00C = s.errInfo.word ∧ s.read .w32 0x010 = s.errPos ∧
    s.read .w32 0x014 = (if s.doneIe then 1 else 0) ∧ s.read .w32 0x018 = s.inLen ∧ s.read .w32 0x01C = s.outLen ∧
    s.read .w32 0x020 = s.pwLen ∧ s.read .w32 0x024 = s.saltLen ∧ s.read .w32 0x028 = s.ctLen ∧
    s.read .w32 0x02C = s.iter ∧ s.read .w32 0x030 = BitVec.ofNat 32 s.halgTag.toNat ∧
    s.read .w32 0x034 = s.saltgenLen ∧ s.read .w32 0x038 = (if s.customValid then 1 else 0) ∧
    s.read .w32 0x03C = (if s.cfg.sha3 then 1 else 0) ∧ s.read .w32 0x040 = BitVec.ofNat 32 s.cfg.inCap ∧
    s.read .w32 0x044 = BitVec.ofNat 32 s.cfg.outCap ∧ s.read .w32 0x048 = BitVec.ofNat 32 s.cfg.pwCap ∧
    s.read .w32 0x04C = BitVec.ofNat 32 s.cfg.saltCap ∧ s.read .w32 0x050 = BitVec.ofNat 32 s.cfg.ctCap ∧
    ∀ off, (0x054 ≤ off ∧ off < 0x100 ∨ 0x180 ≤ off ∧ off < 0x10000) → s.read .w32 off = 0

/-- R22, R114: the fields of STATUS. -/
def Obligations.StatusFields : Prop :=
  [ErrCode.noError, .invalidSymbol, .malformedEnvelope, .unsupportedAlgorithm, .decryptionFailed, .invalidAlphabet,
    .illegalCommand, .alphabetNotLoaded, .capacityExceeded, .invalidArgument, .kdfFailed, .cipherFailed,
    .rngFailed].map ErrCode.byte = [0x00, 0x01, 0x02, 0x03, 0x04, 0x05, 0x06, 0x07, 0x08, 0x09, 0x0A, 0x0B, 0x0C] ∧
  ∀ s : State,
    (s.status.getLsbD 0 = true ↔ s.phase ≠ .idle) ∧ s.status.getLsbD 1 = s.done ∧
    (s.status.getLsbD 2 = true ↔ s.errCode ≠ .noError) ∧ s.status.getLsbD 3 = s.werr ∧
    s.status.extractLsb' 4 4 = 0 ∧ s.status.extractLsb' 8 8 = s.errCode.byte ∧
    s.status.extractLsb' 16 8 = s.lastOp ∧ s.status.extractLsb' 24 8 = 0

/-- R23: the fields of ERRINFO. -/
def Obligations.ErrInfoFields : Prop :=
  ∀ e : ErrInfo,
    e.word.extractLsb' 0 8 = e.sym ∧ e.word.extractLsb' 8 3 = e.alpha ∧ e.word.getLsbD 11 = false ∧
    e.word.extractLsb' 12 2 = e.seg ∧ e.word.extractLsb' 14 2 = 0 ∧ e.word.extractLsb' 16 4 = e.sub ∧
    e.word.extractLsb' 20 4 = 0 ∧ e.word.extractLsb' 24 8 = e.val

/-- R19 to R33: what a write to each register does in the idle phase, and to STATUS and INT_EN in any phase. -/
def Obligations.RegisterWrites : Prop :=
  ∀ (s : State) (v : Word),
    s.write .w32 0x008 v = { s with
      done := if v.getLsbD 1 then false else s.done, werr := if v.getLsbD 3 then false else s.werr } ∧
    s.write .w32 0x014 v = { s with doneIe := v.getLsbD 0 } ∧
    (s.phase = .idle →
      s.write .w32 0x018 v = { s with inLen := v } ∧ s.write .w32 0x020 v = { s with pwLen := v } ∧
      s.write .w32 0x024 v = { s with saltLen := v } ∧ s.write .w32 0x028 v = { s with ctLen := v } ∧
      s.write .w32 0x02C v = { s with iter := v } ∧ s.write .w32 0x030 v = { s with halgTag := v.extractLsb' 0 8 } ∧
      s.write .w32 0x034 v = { s with saltgenLen := v }) ∧
    ∀ off, (off = 0x000 ∨ off = 0x00C ∨ off = 0x010 ∨ off = 0x01C ∨ 0x038 ≤ off ∧ off < 0x10000 ∨
      0x20000 ≤ off ∧ off < 0x30000) → ∀ w, s.write w off v = s

/-- R41, R44, R46, R49: an aligned read of any width in the readback window shows the tables, each byte lane `k` the symbol
at `v + k`, the custom table whether it is loaded or not. The bits above the width read 0, and writes are ignored. -/
def Obligations.ReadbackShowsTheTables : Prop :=
  ∀ (s : State) (w : Width),
    (∀ v k, v < 32 → v % widthBytes w = 0 → k < widthBytes w →
      (s.read w (0x100 + v)).extractLsb' (8 * k) 8 = s.cfg.rfc4648.syms.getD (v + k) 0 ∧
      (s.read w (0x120 + v)).extractLsb' (8 * k) 8 = s.cfg.crockford.syms.getD (v + k) 0 ∧
      (s.read w (0x140 + v)).extractLsb' (8 * k) 8 = s.cfg.wordsafe.syms.getD (v + k) 0 ∧
      (s.read w (0x160 + v)).extractLsb' (8 * k) 8 = s.customTable.syms.getD (v + k) 0) ∧
    ∀ off, 0x100 ≤ off → off < 0x180 →
      (s.read w off).toNat < 2 ^ (8 * widthBytes w) ∧ ∀ x, s.write w off x = s

/-- R48, R49: in an idle block each lane of a write to a buffer acts on its own. Lane `k` is data bits `8k` to `8k + 7`; it
lands at `off + k` below the capacity, and is ignored from there on. No other byte changes. -/
def Obligations.BufferLanesAct : Prop :=
  ∀ (s : State) (b : Buf) (w : Width) (off : Nat) (v : Word), s.phase = .idle → b ≠ .outBuf → b.base ≤ off →
    off + widthBytes w ≤ b.base + 0x10000 →
    (∀ k, k < widthBytes w → off + k < b.base + b.cap s.cfg →
      Memory.read? (s.write w off v).mem (off + k) = some (v.extractLsb' (8 * k) 8)) ∧
    (∀ a, ¬(off ≤ a ∧ a < off + widthBytes w ∧ a < b.base + b.cap s.cfg) →
      Memory.read? (s.write w off v).mem a = Memory.read? s.mem a) ∧
    s.write w off v = { s with mem := (s.write w off v).mem }

/-- R34, R35, R37, R38, R48, R49: what the host reads in the apertures of IN_BUF, OUT_BUF, SALT_BUF and CT_BUF: each byte
lane is the buffer's byte below the capacity, and 0 from there on. -/
def Obligations.BufferReadsAreLittleEndian : Prop :=
  ∀ (s : State) (b : Buf) (w : Width) (off k : Nat), b ≠ .pwBuf → b.base ≤ off →
    off + widthBytes w ≤ b.base + 0x10000 →
    (k < widthBytes w → (s.read w off).extractLsb' (8 * k) 8 =
      if off + k < b.base + b.cap s.cfg then s.bufByte b (off + k - b.base) else 0) ∧
    (s.read w off).toNat < 2 ^ (8 * widthBytes w)

/-- R36: PW_BUF reads 0 whatever it holds. -/
def Obligations.PasswordReadsZero : Prop :=
  ∀ (s : State) (w : Width) (off : Nat), 0x30000 ≤ off → off + widthBytes w ≤ 0x40000 → s.read w off = 0

/-- R36: the password does not leak. Two blocks that differ only in PW_BUF answer every access alike, and every access and
every command but ENV_ENCRYPT and ENV_DECRYPT leaves them differing only in PW_BUF. -/
def Obligations.PasswordDoesNotLeak : Prop :=
  ∀ s t : State, SameButPassword s t →
    (∀ a, (t.access a).2 = (s.access a).2 ∧ SameButPassword (s.access a).1 (t.access a).1) ∧
    ∀ i, i ≠ .envEncrypt → i ≠ .envDecrypt → ∀ s', exec i s = .next s' →
      ∃ t', exec i t = .next t' ∧ SameButPassword s' t'

/-- R134: while a command is in flight these writes are dropped and set WERR, STATUS and INT_EN are written, every other
write is ignored, and reads are accepted as when idle. -/
def Obligations.BusyWritesAreDropped : Prop :=
  ∀ (s : State) (w : Width) (off : Nat) (v : Word), s.phase ≠ .idle →
    (s.access (.read w off)).2.error = ({ s with phase := .idle }.access (.read w off)).2.error ∧
    ((s.access (.write w off v)).2.error = false →
    (BusyDrops s w off → (s.access (.write w off v)).1 = { s with werr := true }) ∧
    (off = 0x008 → (s.access (.write w off v)).1 = { s with
      done := s.done && !v.getLsbD 1, werr := s.werr && !v.getLsbD 3 }) ∧
    (off = 0x014 → (s.access (.write w off v)).1 = { s with doneIe := v.getLsbD 0 }) ∧
    (¬ BusyDrops s w off → off ≠ 0x008 → off ≠ 0x014 → (s.access (.write w off v)).1 = s))

/-- R57, R134, R135: while a command is in flight no access changes anything but the flags DONE, WERR and DONE_IE, so the
command sees the inputs of its issue. -/
def Obligations.InputsFrozenWhileBusy : Prop :=
  ∀ (s : State) (a : Access), s.phase ≠ .idle → (s.access a).1 =
    { s with done := (s.access a).1.done, werr := (s.access a).1.werr, doneIe := (s.access a).1.doneIe }

/-- R47, R51, R67, R69: the host's turn performs its next statement in one step; a bus error is a fault. Taking the
schedule's entry, the statement index and the data the host holds are the model's own (log 1, log 2). -/
def Obligations.HostTurnPerformsStatement : Prop :=
  ∀ (s p : State) (r : List Turn), s.schedule = .host :: r → p = { s with schedule := r } →
    (s.program[s.hpc]? = none → step s = .next p) ∧
    (∀ w off, s.program[s.hpc]? = some (.ld w off) → (p.access (.read w off)).2.error = false →
      step s = .next { p with readData := (p.access (.read w off)).2.data, hpc := p.hpc + 1 }) ∧
    (∀ w off v, s.program[s.hpc]? = some (.st w off v) → (p.access (.write w off v)).2.error = false →
      step s = .next { (p.access (.write w off v)).1 with hpc := p.hpc + 1 }) ∧
    (∀ off mask label, s.program[s.hpc]? = some (.bnz32 off mask label) →
      (p.access (.read .w32 off)).2.error = false →
      step s = .next { p with
        readData := (p.access (.read .w32 off)).2.data,
        hpc := if (p.access (.read .w32 off)).2.data &&& mask ≠ 0 then label else p.hpc + 1 }) ∧
    (∀ w off, (s.program[s.hpc]? = some (.ld w off) ∨ (∃ v, s.program[s.hpc]? = some (.st w off v)) ∨
        w = .w32 ∧ ∃ mask label, s.program[s.hpc]? = some (.bnz32 off mask label)) →
      (p.access (.read w off)).2.error = true → ∃ f, step s = .fault f)

/-! ### Reset and interrupt -/

/-- R131, R132: what the host reads after reset, in every implementation: ID, the registers that R131 resets to 0, and the
custom readback window. The spec leaves the buffers unspecified: that a buffer byte is `Config.resetByte`, of draw 0, is the
model's own choice (log 9 and log 10), and the value is free. -/
def Obligations.ResetReadsAsListed : Prop :=
  ∀ p : Params, ∀ s, s = State.resetWith p →
    s.phase = .idle ∧ s.irq = false ∧ s.read .w32 0x000 = 0x42333201 ∧
    (∀ off ∈ [0x008, 0x00C, 0x010, 0x014, 0x018, 0x01C, 0x020, 0x024, 0x028, 0x02C, 0x030, 0x034, 0x038],
      s.read .w32 off = 0) ∧
    (∀ v, v < 32 → s.read .w8 (0x160 + v) = 0) ∧
    ∀ b i, s.bufByte b i = Config.resetByte 0 (b.base + i)

/-- R130, R131, R132: asserting rst abandons the command in flight; while it is asserted every access gets a bus error and
no completion step is taken; when it is deasserted the block is as R131 lists, with a new draw for the buffers. (When the
values appear within the assertion is log 11; the fields kept are the model's own.) -/
def Obligations.ResetInputAbandonsCommand : Prop :=
  ∀ (s : State) (r : List Turn),
    (s.schedule = .rstAssert :: r → ∃ t, step s = .next t ∧ t.rst = true ∧ t.phase = .idle ∧ t.done = false) ∧
    (s.rst = true → ∀ a, s.access a = (s, { error := true, data := 0 })) ∧
    (s.rst = true → s.schedule = .sequencer :: r → step s = .next { s with schedule := r }) ∧
    (s.rst = true → s.schedule = .rstDeassert :: r → step s = .next { State.resetWith s.cfg with
      program := s.program, hpc := s.hpc, readData := s.readData, schedule := r, bufDraw := s.bufDraw + 1,
      rngDraw := s.rngDraw })

/-- R122: the interrupt output, when it rises and when it falls. That it is low from the assertion of rst on, the last
clause, is the model's own inference (log 11, DEDUCED). -/
def Obligations.InterruptFollowsDone : Prop :=
  (∀ s : State, s.irq = (s.status.getLsbD 1 && (s.read .w32 0x014).getLsbD 0)) ∧
  (∀ (s t : State) (w : Word), s.completeWord w = .next t → w ≠ 0x000000FF → t.irq = s.doneIe) ∧
  (∀ (s t : State), s.completeWord 0x000000FF = .next t → t.irq = false) ∧
  (∀ (s : State) (v : Word), v.getLsbD 1 = true → (s.write .w32 0x008 v).irq = false) ∧
  (∀ (s : State) (v : Word), v.getLsbD 0 = false → (s.write .w32 0x014 v).irq = false) ∧
  (∀ (s : State) (w : Word), s.phase = .idle → (s.write .w32 0x004 w).irq = false) ∧
  ∀ s : State, s.assertRst.irq = false

/-! ### Invariants -/

/-- R23, R24, R27, R39, R48, R130, R135: every step keeps the invariant. That memory lists the bytes written since the reset,
in canonical form, is the model's own choice (log 9), and that the reset values appear when rst is asserted its own inference
(log 11). -/
def Obligations.StepKeepsInvariant : Prop := ∀ s t : State, s.Inv → step s = .next t → t.Inv

/-- R131: the state after reset satisfies the invariant, in every implementation. -/
def Obligations.ResetSatisfiesInvariant : Prop := ∀ p : Params, (State.resetWith p).Inv

/-- R8, R19, R20, R31, R32, R39: the constants never change, so ID, CAPS, the capacity registers and the preset tables read
after any step as before it. -/
def Obligations.ConstantsNeverChange : Prop :=
  ∀ s t : State, step s = .next t → t.cfg = s.cfg ∧
    (∀ off ∈ [0x000, 0x03C, 0x040, 0x044, 0x048, 0x04C, 0x050], t.read .w32 off = s.read .w32 off) ∧
    ∀ v, v < 0x60 → t.read .w8 (0x100 + v) = s.read .w8 (0x100 + v)
end

