-- ==== Sys2Proof/Laws/State.lean ====
section
/-! SUPPORT. One lemma per field per update of the state, true by rfl, so that no proof unfolds a record update. -/

namespace Sys2Proof.Machine

/-! ### complete -/

@[simp] theorem State.complete_phase (s : State) (op : Byte) (code : ErrCode) (info : ErrInfo) (pos : Word) :
    (s.complete op code info pos).phase = .idle := rfl
@[simp] theorem State.complete_done (s : State) (op : Byte) (code : ErrCode) (info : ErrInfo) (pos : Word) :
    (s.complete op code info pos).done = true := rfl
@[simp] theorem State.complete_werr (s : State) (op : Byte) (code : ErrCode) (info : ErrInfo) (pos : Word) :
    (s.complete op code info pos).werr = s.werr := rfl
@[simp] theorem State.complete_errCode (s : State) (op : Byte) (code : ErrCode) (info : ErrInfo) (pos : Word) :
    (s.complete op code info pos).errCode = code := rfl
@[simp] theorem State.complete_lastOp (s : State) (op : Byte) (code : ErrCode) (info : ErrInfo) (pos : Word) :
    (s.complete op code info pos).lastOp = op := rfl
@[simp] theorem State.complete_errInfo (s : State) (op : Byte) (code : ErrCode) (info : ErrInfo) (pos : Word) :
    (s.complete op code info pos).errInfo = info := rfl
@[simp] theorem State.complete_errPos (s : State) (op : Byte) (code : ErrCode) (info : ErrInfo) (pos : Word) :
    (s.complete op code info pos).errPos = pos := rfl
@[simp] theorem State.complete_doneIe (s : State) (op : Byte) (code : ErrCode) (info : ErrInfo) (pos : Word) :
    (s.complete op code info pos).doneIe = s.doneIe := rfl
@[simp] theorem State.complete_inLen (s : State) (op : Byte) (code : ErrCode) (info : ErrInfo) (pos : Word) :
    (s.complete op code info pos).inLen = s.inLen := rfl
@[simp] theorem State.complete_outLen (s : State) (op : Byte) (code : ErrCode) (info : ErrInfo) (pos : Word) :
    (s.complete op code info pos).outLen = s.outLen := rfl
@[simp] theorem State.complete_pwLen (s : State) (op : Byte) (code : ErrCode) (info : ErrInfo) (pos : Word) :
    (s.complete op code info pos).pwLen = s.pwLen := rfl
@[simp] theorem State.complete_saltLen (s : State) (op : Byte) (code : ErrCode) (info : ErrInfo) (pos : Word) :
    (s.complete op code info pos).saltLen = s.saltLen := rfl
@[simp] theorem State.complete_ctLen (s : State) (op : Byte) (code : ErrCode) (info : ErrInfo) (pos : Word) :
    (s.complete op code info pos).ctLen = s.ctLen := rfl
@[simp] theorem State.complete_iter (s : State) (op : Byte) (code : ErrCode) (info : ErrInfo) (pos : Word) :
    (s.complete op code info pos).iter = s.iter := rfl
@[simp] theorem State.complete_halgTag (s : State) (op : Byte) (code : ErrCode) (info : ErrInfo) (pos : Word) :
    (s.complete op code info pos).halgTag = s.halgTag := rfl
@[simp] theorem State.complete_saltgenLen (s : State) (op : Byte) (code : ErrCode) (info : ErrInfo) (pos : Word) :
    (s.complete op code info pos).saltgenLen = s.saltgenLen := rfl
@[simp] theorem State.complete_customTable (s : State) (op : Byte) (code : ErrCode) (info : ErrInfo) (pos : Word) :
    (s.complete op code info pos).customTable = s.customTable := rfl
@[simp] theorem State.complete_customValid (s : State) (op : Byte) (code : ErrCode) (info : ErrInfo) (pos : Word) :
    (s.complete op code info pos).customValid = s.customValid := rfl
@[simp] theorem State.complete_mem (s : State) (op : Byte) (code : ErrCode) (info : ErrInfo) (pos : Word) :
    (s.complete op code info pos).mem = s.mem := rfl
@[simp] theorem State.complete_rst (s : State) (op : Byte) (code : ErrCode) (info : ErrInfo) (pos : Word) :
    (s.complete op code info pos).rst = s.rst := rfl
@[simp] theorem State.complete_cfg (s : State) (op : Byte) (code : ErrCode) (info : ErrInfo) (pos : Word) :
    (s.complete op code info pos).cfg = s.cfg := rfl
@[simp] theorem State.complete_program (s : State) (op : Byte) (code : ErrCode) (info : ErrInfo) (pos : Word) :
    (s.complete op code info pos).program = s.program := rfl
@[simp] theorem State.complete_hpc (s : State) (op : Byte) (code : ErrCode) (info : ErrInfo) (pos : Word) :
    (s.complete op code info pos).hpc = s.hpc := rfl
@[simp] theorem State.complete_readData (s : State) (op : Byte) (code : ErrCode) (info : ErrInfo) (pos : Word) :
    (s.complete op code info pos).readData = s.readData := rfl
@[simp] theorem State.complete_schedule (s : State) (op : Byte) (code : ErrCode) (info : ErrInfo) (pos : Word) :
    (s.complete op code info pos).schedule = s.schedule := rfl
@[simp] theorem State.complete_bufDraw (s : State) (op : Byte) (code : ErrCode) (info : ErrInfo) (pos : Word) :
    (s.complete op code info pos).bufDraw = s.bufDraw := rfl
@[simp] theorem State.complete_rngDraw (s : State) (op : Byte) (code : ErrCode) (info : ErrInfo) (pos : Word) :
    (s.complete op code info pos).rngDraw = s.rngDraw := rfl

/-! ### writeBuf -/

@[simp] theorem State.writeBuf_phase (s : State) (b : Buf) (v : List Byte) :
    (s.writeBuf b v).phase = s.phase := rfl
@[simp] theorem State.writeBuf_done (s : State) (b : Buf) (v : List Byte) :
    (s.writeBuf b v).done = s.done := rfl
@[simp] theorem State.writeBuf_werr (s : State) (b : Buf) (v : List Byte) :
    (s.writeBuf b v).werr = s.werr := rfl
@[simp] theorem State.writeBuf_errCode (s : State) (b : Buf) (v : List Byte) :
    (s.writeBuf b v).errCode = s.errCode := rfl
@[simp] theorem State.writeBuf_lastOp (s : State) (b : Buf) (v : List Byte) :
    (s.writeBuf b v).lastOp = s.lastOp := rfl
@[simp] theorem State.writeBuf_errInfo (s : State) (b : Buf) (v : List Byte) :
    (s.writeBuf b v).errInfo = s.errInfo := rfl
@[simp] theorem State.writeBuf_errPos (s : State) (b : Buf) (v : List Byte) :
    (s.writeBuf b v).errPos = s.errPos := rfl
@[simp] theorem State.writeBuf_doneIe (s : State) (b : Buf) (v : List Byte) :
    (s.writeBuf b v).doneIe = s.doneIe := rfl
@[simp] theorem State.writeBuf_inLen (s : State) (b : Buf) (v : List Byte) :
    (s.writeBuf b v).inLen = s.inLen := rfl
@[simp] theorem State.writeBuf_outLen (s : State) (b : Buf) (v : List Byte) :
    (s.writeBuf b v).outLen = s.outLen := rfl
@[simp] theorem State.writeBuf_pwLen (s : State) (b : Buf) (v : List Byte) :
    (s.writeBuf b v).pwLen = s.pwLen := rfl
@[simp] theorem State.writeBuf_saltLen (s : State) (b : Buf) (v : List Byte) :
    (s.writeBuf b v).saltLen = s.saltLen := rfl
@[simp] theorem State.writeBuf_ctLen (s : State) (b : Buf) (v : List Byte) :
    (s.writeBuf b v).ctLen = s.ctLen := rfl
@[simp] theorem State.writeBuf_iter (s : State) (b : Buf) (v : List Byte) :
    (s.writeBuf b v).iter = s.iter := rfl
@[simp] theorem State.writeBuf_halgTag (s : State) (b : Buf) (v : List Byte) :
    (s.writeBuf b v).halgTag = s.halgTag := rfl
@[simp] theorem State.writeBuf_saltgenLen (s : State) (b : Buf) (v : List Byte) :
    (s.writeBuf b v).saltgenLen = s.saltgenLen := rfl
@[simp] theorem State.writeBuf_customTable (s : State) (b : Buf) (v : List Byte) :
    (s.writeBuf b v).customTable = s.customTable := rfl
@[simp] theorem State.writeBuf_customValid (s : State) (b : Buf) (v : List Byte) :
    (s.writeBuf b v).customValid = s.customValid := rfl
@[simp] theorem State.writeBuf_mem (s : State) (b : Buf) (v : List Byte) :
    (s.writeBuf b v).mem = Memory.writeList s.mem b.base v := rfl
@[simp] theorem State.writeBuf_rst (s : State) (b : Buf) (v : List Byte) :
    (s.writeBuf b v).rst = s.rst := rfl
@[simp] theorem State.writeBuf_cfg (s : State) (b : Buf) (v : List Byte) :
    (s.writeBuf b v).cfg = s.cfg := rfl
@[simp] theorem State.writeBuf_program (s : State) (b : Buf) (v : List Byte) :
    (s.writeBuf b v).program = s.program := rfl
@[simp] theorem State.writeBuf_hpc (s : State) (b : Buf) (v : List Byte) :
    (s.writeBuf b v).hpc = s.hpc := rfl
@[simp] theorem State.writeBuf_readData (s : State) (b : Buf) (v : List Byte) :
    (s.writeBuf b v).readData = s.readData := rfl
@[simp] theorem State.writeBuf_schedule (s : State) (b : Buf) (v : List Byte) :
    (s.writeBuf b v).schedule = s.schedule := rfl
@[simp] theorem State.writeBuf_bufDraw (s : State) (b : Buf) (v : List Byte) :
    (s.writeBuf b v).bufDraw = s.bufDraw := rfl
@[simp] theorem State.writeBuf_rngDraw (s : State) (b : Buf) (v : List Byte) :
    (s.writeBuf b v).rngDraw = s.rngDraw := rfl

/-! ### putOut -/

@[simp] theorem State.putOut_phase (s : State) (v : List Byte) :
    (s.putOut v).phase = s.phase := rfl
@[simp] theorem State.putOut_done (s : State) (v : List Byte) :
    (s.putOut v).done = s.done := rfl
@[simp] theorem State.putOut_werr (s : State) (v : List Byte) :
    (s.putOut v).werr = s.werr := rfl
@[simp] theorem State.putOut_errCode (s : State) (v : List Byte) :
    (s.putOut v).errCode = s.errCode := rfl
@[simp] theorem State.putOut_lastOp (s : State) (v : List Byte) :
    (s.putOut v).lastOp = s.lastOp := rfl
@[simp] theorem State.putOut_errInfo (s : State) (v : List Byte) :
    (s.putOut v).errInfo = s.errInfo := rfl
@[simp] theorem State.putOut_errPos (s : State) (v : List Byte) :
    (s.putOut v).errPos = s.errPos := rfl
@[simp] theorem State.putOut_doneIe (s : State) (v : List Byte) :
    (s.putOut v).doneIe = s.doneIe := rfl
@[simp] theorem State.putOut_inLen (s : State) (v : List Byte) :
    (s.putOut v).inLen = s.inLen := rfl
@[simp] theorem State.putOut_outLen (s : State) (v : List Byte) :
    (s.putOut v).outLen = BitVec.ofNat 32 v.length := rfl
@[simp] theorem State.putOut_pwLen (s : State) (v : List Byte) :
    (s.putOut v).pwLen = s.pwLen := rfl
@[simp] theorem State.putOut_saltLen (s : State) (v : List Byte) :
    (s.putOut v).saltLen = s.saltLen := rfl
@[simp] theorem State.putOut_ctLen (s : State) (v : List Byte) :
    (s.putOut v).ctLen = s.ctLen := rfl
@[simp] theorem State.putOut_iter (s : State) (v : List Byte) :
    (s.putOut v).iter = s.iter := rfl
@[simp] theorem State.putOut_halgTag (s : State) (v : List Byte) :
    (s.putOut v).halgTag = s.halgTag := rfl
@[simp] theorem State.putOut_saltgenLen (s : State) (v : List Byte) :
    (s.putOut v).saltgenLen = s.saltgenLen := rfl
@[simp] theorem State.putOut_customTable (s : State) (v : List Byte) :
    (s.putOut v).customTable = s.customTable := rfl
@[simp] theorem State.putOut_customValid (s : State) (v : List Byte) :
    (s.putOut v).customValid = s.customValid := rfl
@[simp] theorem State.putOut_mem (s : State) (v : List Byte) :
    (s.putOut v).mem = Memory.writeList s.mem 0x20000 v := rfl
@[simp] theorem State.putOut_rst (s : State) (v : List Byte) :
    (s.putOut v).rst = s.rst := rfl
@[simp] theorem State.putOut_cfg (s : State) (v : List Byte) :
    (s.putOut v).cfg = s.cfg := rfl
@[simp] theorem State.putOut_program (s : State) (v : List Byte) :
    (s.putOut v).program = s.program := rfl
@[simp] theorem State.putOut_hpc (s : State) (v : List Byte) :
    (s.putOut v).hpc = s.hpc := rfl
@[simp] theorem State.putOut_readData (s : State) (v : List Byte) :
    (s.putOut v).readData = s.readData := rfl
@[simp] theorem State.putOut_schedule (s : State) (v : List Byte) :
    (s.putOut v).schedule = s.schedule := rfl
@[simp] theorem State.putOut_bufDraw (s : State) (v : List Byte) :
    (s.putOut v).bufDraw = s.bufDraw := rfl
@[simp] theorem State.putOut_rngDraw (s : State) (v : List Byte) :
    (s.putOut v).rngDraw = s.rngDraw := rfl

/-! ### putFields -/

@[simp] theorem State.putFields_phase (s : State) (f : Fields) :
    (s.putFields f).phase = s.phase := rfl
@[simp] theorem State.putFields_done (s : State) (f : Fields) :
    (s.putFields f).done = s.done := rfl
@[simp] theorem State.putFields_werr (s : State) (f : Fields) :
    (s.putFields f).werr = s.werr := rfl
@[simp] theorem State.putFields_errCode (s : State) (f : Fields) :
    (s.putFields f).errCode = s.errCode := rfl
@[simp] theorem State.putFields_lastOp (s : State) (f : Fields) :
    (s.putFields f).lastOp = s.lastOp := rfl
@[simp] theorem State.putFields_errInfo (s : State) (f : Fields) :
    (s.putFields f).errInfo = s.errInfo := rfl
@[simp] theorem State.putFields_errPos (s : State) (f : Fields) :
    (s.putFields f).errPos = s.errPos := rfl
@[simp] theorem State.putFields_doneIe (s : State) (f : Fields) :
    (s.putFields f).doneIe = s.doneIe := rfl
@[simp] theorem State.putFields_inLen (s : State) (f : Fields) :
    (s.putFields f).inLen = s.inLen := rfl
@[simp] theorem State.putFields_outLen (s : State) (f : Fields) :
    (s.putFields f).outLen = s.outLen := rfl
@[simp] theorem State.putFields_pwLen (s : State) (f : Fields) :
    (s.putFields f).pwLen = s.pwLen := rfl
@[simp] theorem State.putFields_saltLen (s : State) (f : Fields) :
    (s.putFields f).saltLen = BitVec.ofNat 32 f.salt.length := rfl
@[simp] theorem State.putFields_ctLen (s : State) (f : Fields) :
    (s.putFields f).ctLen = BitVec.ofNat 32 f.ct.length := rfl
@[simp] theorem State.putFields_iter (s : State) (f : Fields) :
    (s.putFields f).iter = f.iter := rfl
@[simp] theorem State.putFields_halgTag (s : State) (f : Fields) :
    (s.putFields f).halgTag = f.tag := rfl
@[simp] theorem State.putFields_saltgenLen (s : State) (f : Fields) :
    (s.putFields f).saltgenLen = s.saltgenLen := rfl
@[simp] theorem State.putFields_customTable (s : State) (f : Fields) :
    (s.putFields f).customTable = s.customTable := rfl
@[simp] theorem State.putFields_customValid (s : State) (f : Fields) :
    (s.putFields f).customValid = s.customValid := rfl
@[simp] theorem State.putFields_mem (s : State) (f : Fields) :
    (s.putFields f).mem = Memory.writeList (Memory.writeList s.mem 0x40000 f.salt) 0x50000 f.ct := rfl
@[simp] theorem State.putFields_rst (s : State) (f : Fields) :
    (s.putFields f).rst = s.rst := rfl
@[simp] theorem State.putFields_cfg (s : State) (f : Fields) :
    (s.putFields f).cfg = s.cfg := rfl
@[simp] theorem State.putFields_program (s : State) (f : Fields) :
    (s.putFields f).program = s.program := rfl
@[simp] theorem State.putFields_hpc (s : State) (f : Fields) :
    (s.putFields f).hpc = s.hpc := rfl
@[simp] theorem State.putFields_readData (s : State) (f : Fields) :
    (s.putFields f).readData = s.readData := rfl
@[simp] theorem State.putFields_schedule (s : State) (f : Fields) :
    (s.putFields f).schedule = s.schedule := rfl
@[simp] theorem State.putFields_bufDraw (s : State) (f : Fields) :
    (s.putFields f).bufDraw = s.bufDraw := rfl
@[simp] theorem State.putFields_rngDraw (s : State) (f : Fields) :
    (s.putFields f).rngDraw = s.rngDraw := rfl

/-! ### resetRegs -/

@[simp] theorem State.resetRegs_phase (s : State) :
    (s.resetRegs).phase = .idle := rfl
@[simp] theorem State.resetRegs_done (s : State) :
    (s.resetRegs).done = false := rfl
@[simp] theorem State.resetRegs_werr (s : State) :
    (s.resetRegs).werr = false := rfl
@[simp] theorem State.resetRegs_errCode (s : State) :
    (s.resetRegs).errCode = .noError := rfl
@[simp] theorem State.resetRegs_lastOp (s : State) :
    (s.resetRegs).lastOp = 0 := rfl
@[simp] theorem State.resetRegs_errInfo (s : State) :
    (s.resetRegs).errInfo = {} := rfl
@[simp] theorem State.resetRegs_errPos (s : State) :
    (s.resetRegs).errPos = 0 := rfl
@[simp] theorem State.resetRegs_doneIe (s : State) :
    (s.resetRegs).doneIe = false := rfl
@[simp] theorem State.resetRegs_inLen (s : State) :
    (s.resetRegs).inLen = 0 := rfl
@[simp] theorem State.resetRegs_outLen (s : State) :
    (s.resetRegs).outLen = 0 := rfl
@[simp] theorem State.resetRegs_pwLen (s : State) :
    (s.resetRegs).pwLen = 0 := rfl
@[simp] theorem State.resetRegs_saltLen (s : State) :
    (s.resetRegs).saltLen = 0 := rfl
@[simp] theorem State.resetRegs_ctLen (s : State) :
    (s.resetRegs).ctLen = 0 := rfl
@[simp] theorem State.resetRegs_iter (s : State) :
    (s.resetRegs).iter = 0 := rfl
@[simp] theorem State.resetRegs_halgTag (s : State) :
    (s.resetRegs).halgTag = 0 := rfl
@[simp] theorem State.resetRegs_saltgenLen (s : State) :
    (s.resetRegs).saltgenLen = 0 := rfl
@[simp] theorem State.resetRegs_customTable (s : State) :
    (s.resetRegs).customTable = Table.zero := rfl
@[simp] theorem State.resetRegs_customValid (s : State) :
    (s.resetRegs).customValid = false := rfl
@[simp] theorem State.resetRegs_mem (s : State) :
    (s.resetRegs).mem = s.mem := rfl
@[simp] theorem State.resetRegs_rst (s : State) :
    (s.resetRegs).rst = s.rst := rfl
@[simp] theorem State.resetRegs_cfg (s : State) :
    (s.resetRegs).cfg = s.cfg := rfl
@[simp] theorem State.resetRegs_program (s : State) :
    (s.resetRegs).program = s.program := rfl
@[simp] theorem State.resetRegs_hpc (s : State) :
    (s.resetRegs).hpc = s.hpc := rfl
@[simp] theorem State.resetRegs_readData (s : State) :
    (s.resetRegs).readData = s.readData := rfl
@[simp] theorem State.resetRegs_schedule (s : State) :
    (s.resetRegs).schedule = s.schedule := rfl
@[simp] theorem State.resetRegs_bufDraw (s : State) :
    (s.resetRegs).bufDraw = s.bufDraw := rfl
@[simp] theorem State.resetRegs_rngDraw (s : State) :
    (s.resetRegs).rngDraw = s.rngDraw := rfl

/-! ### hardReset -/

@[simp] theorem State.hardReset_phase (s : State) :
    (s.hardReset).phase = .idle := rfl
@[simp] theorem State.hardReset_done (s : State) :
    (s.hardReset).done = false := rfl
@[simp] theorem State.hardReset_werr (s : State) :
    (s.hardReset).werr = false := rfl
@[simp] theorem State.hardReset_errCode (s : State) :
    (s.hardReset).errCode = .noError := rfl
@[simp] theorem State.hardReset_lastOp (s : State) :
    (s.hardReset).lastOp = 0 := rfl
@[simp] theorem State.hardReset_errInfo (s : State) :
    (s.hardReset).errInfo = {} := rfl
@[simp] theorem State.hardReset_errPos (s : State) :
    (s.hardReset).errPos = 0 := rfl
@[simp] theorem State.hardReset_doneIe (s : State) :
    (s.hardReset).doneIe = false := rfl
@[simp] theorem State.hardReset_inLen (s : State) :
    (s.hardReset).inLen = 0 := rfl
@[simp] theorem State.hardReset_outLen (s : State) :
    (s.hardReset).outLen = 0 := rfl
@[simp] theorem State.hardReset_pwLen (s : State) :
    (s.hardReset).pwLen = 0 := rfl
@[simp] theorem State.hardReset_saltLen (s : State) :
    (s.hardReset).saltLen = 0 := rfl
@[simp] theorem State.hardReset_ctLen (s : State) :
    (s.hardReset).ctLen = 0 := rfl
@[simp] theorem State.hardReset_iter (s : State) :
    (s.hardReset).iter = 0 := rfl
@[simp] theorem State.hardReset_halgTag (s : State) :
    (s.hardReset).halgTag = 0 := rfl
@[simp] theorem State.hardReset_saltgenLen (s : State) :
    (s.hardReset).saltgenLen = 0 := rfl
@[simp] theorem State.hardReset_customTable (s : State) :
    (s.hardReset).customTable = Table.zero := rfl
@[simp] theorem State.hardReset_customValid (s : State) :
    (s.hardReset).customValid = false := rfl
@[simp] theorem State.hardReset_mem (s : State) :
    (s.hardReset).mem = [] := rfl
@[simp] theorem State.hardReset_rst (s : State) :
    (s.hardReset).rst = s.rst := rfl
@[simp] theorem State.hardReset_cfg (s : State) :
    (s.hardReset).cfg = s.cfg := rfl
@[simp] theorem State.hardReset_program (s : State) :
    (s.hardReset).program = s.program := rfl
@[simp] theorem State.hardReset_hpc (s : State) :
    (s.hardReset).hpc = s.hpc := rfl
@[simp] theorem State.hardReset_readData (s : State) :
    (s.hardReset).readData = s.readData := rfl
@[simp] theorem State.hardReset_schedule (s : State) :
    (s.hardReset).schedule = s.schedule := rfl
@[simp] theorem State.hardReset_bufDraw (s : State) :
    (s.hardReset).bufDraw = s.bufDraw + 1 := rfl
@[simp] theorem State.hardReset_rngDraw (s : State) :
    (s.hardReset).rngDraw = s.rngDraw := rfl

/-! ### issue -/

@[simp] theorem State.issue_phase (s : State) (w : Word) :
    (s.issue w).phase = .busy w := rfl
@[simp] theorem State.issue_done (s : State) (w : Word) :
    (s.issue w).done = false := rfl
@[simp] theorem State.issue_werr (s : State) (w : Word) :
    (s.issue w).werr = s.werr := rfl
@[simp] theorem State.issue_errCode (s : State) (w : Word) :
    (s.issue w).errCode = s.errCode := rfl
@[simp] theorem State.issue_lastOp (s : State) (w : Word) :
    (s.issue w).lastOp = s.lastOp := rfl
@[simp] theorem State.issue_errInfo (s : State) (w : Word) :
    (s.issue w).errInfo = s.errInfo := rfl
@[simp] theorem State.issue_errPos (s : State) (w : Word) :
    (s.issue w).errPos = s.errPos := rfl
@[simp] theorem State.issue_doneIe (s : State) (w : Word) :
    (s.issue w).doneIe = s.doneIe := rfl
@[simp] theorem State.issue_inLen (s : State) (w : Word) :
    (s.issue w).inLen = s.inLen := rfl
@[simp] theorem State.issue_outLen (s : State) (w : Word) :
    (s.issue w).outLen = s.outLen := rfl
@[simp] theorem State.issue_pwLen (s : State) (w : Word) :
    (s.issue w).pwLen = s.pwLen := rfl
@[simp] theorem State.issue_saltLen (s : State) (w : Word) :
    (s.issue w).saltLen = s.saltLen := rfl
@[simp] theorem State.issue_ctLen (s : State) (w : Word) :
    (s.issue w).ctLen = s.ctLen := rfl
@[simp] theorem State.issue_iter (s : State) (w : Word) :
    (s.issue w).iter = s.iter := rfl
@[simp] theorem State.issue_halgTag (s : State) (w : Word) :
    (s.issue w).halgTag = s.halgTag := rfl
@[simp] theorem State.issue_saltgenLen (s : State) (w : Word) :
    (s.issue w).saltgenLen = s.saltgenLen := rfl
@[simp] theorem State.issue_customTable (s : State) (w : Word) :
    (s.issue w).customTable = s.customTable := rfl
@[simp] theorem State.issue_customValid (s : State) (w : Word) :
    (s.issue w).customValid = s.customValid := rfl
@[simp] theorem State.issue_mem (s : State) (w : Word) :
    (s.issue w).mem = s.mem := rfl
@[simp] theorem State.issue_rst (s : State) (w : Word) :
    (s.issue w).rst = s.rst := rfl
@[simp] theorem State.issue_cfg (s : State) (w : Word) :
    (s.issue w).cfg = s.cfg := rfl
@[simp] theorem State.issue_program (s : State) (w : Word) :
    (s.issue w).program = s.program := rfl
@[simp] theorem State.issue_hpc (s : State) (w : Word) :
    (s.issue w).hpc = s.hpc := rfl
@[simp] theorem State.issue_readData (s : State) (w : Word) :
    (s.issue w).readData = s.readData := rfl
@[simp] theorem State.issue_schedule (s : State) (w : Word) :
    (s.issue w).schedule = s.schedule := rfl
@[simp] theorem State.issue_bufDraw (s : State) (w : Word) :
    (s.issue w).bufDraw = s.bufDraw := rfl
@[simp] theorem State.issue_rngDraw (s : State) (w : Word) :
    (s.issue w).rngDraw = s.rngDraw := rfl

/-! ### writeStatus -/

@[simp] theorem State.writeStatus_phase (s : State) (v : Word) :
    (s.writeStatus v).phase = s.phase := rfl
@[simp] theorem State.writeStatus_done (s : State) (v : Word) :
    (s.writeStatus v).done = (s.done && !v.getLsbD 1) := rfl
@[simp] theorem State.writeStatus_werr (s : State) (v : Word) :
    (s.writeStatus v).werr = (s.werr && !v.getLsbD 3) := rfl
@[simp] theorem State.writeStatus_errCode (s : State) (v : Word) :
    (s.writeStatus v).errCode = s.errCode := rfl
@[simp] theorem State.writeStatus_lastOp (s : State) (v : Word) :
    (s.writeStatus v).lastOp = s.lastOp := rfl
@[simp] theorem State.writeStatus_errInfo (s : State) (v : Word) :
    (s.writeStatus v).errInfo = s.errInfo := rfl
@[simp] theorem State.writeStatus_errPos (s : State) (v : Word) :
    (s.writeStatus v).errPos = s.errPos := rfl
@[simp] theorem State.writeStatus_doneIe (s : State) (v : Word) :
    (s.writeStatus v).doneIe = s.doneIe := rfl
@[simp] theorem State.writeStatus_inLen (s : State) (v : Word) :
    (s.writeStatus v).inLen = s.inLen := rfl
@[simp] theorem State.writeStatus_outLen (s : State) (v : Word) :
    (s.writeStatus v).outLen = s.outLen := rfl
@[simp] theorem State.writeStatus_pwLen (s : State) (v : Word) :
    (s.writeStatus v).pwLen = s.pwLen := rfl
@[simp] theorem State.writeStatus_saltLen (s : State) (v : Word) :
    (s.writeStatus v).saltLen = s.saltLen := rfl
@[simp] theorem State.writeStatus_ctLen (s : State) (v : Word) :
    (s.writeStatus v).ctLen = s.ctLen := rfl
@[simp] theorem State.writeStatus_iter (s : State) (v : Word) :
    (s.writeStatus v).iter = s.iter := rfl
@[simp] theorem State.writeStatus_halgTag (s : State) (v : Word) :
    (s.writeStatus v).halgTag = s.halgTag := rfl
@[simp] theorem State.writeStatus_saltgenLen (s : State) (v : Word) :
    (s.writeStatus v).saltgenLen = s.saltgenLen := rfl
@[simp] theorem State.writeStatus_customTable (s : State) (v : Word) :
    (s.writeStatus v).customTable = s.customTable := rfl
@[simp] theorem State.writeStatus_customValid (s : State) (v : Word) :
    (s.writeStatus v).customValid = s.customValid := rfl
@[simp] theorem State.writeStatus_mem (s : State) (v : Word) :
    (s.writeStatus v).mem = s.mem := rfl
@[simp] theorem State.writeStatus_rst (s : State) (v : Word) :
    (s.writeStatus v).rst = s.rst := rfl
@[simp] theorem State.writeStatus_cfg (s : State) (v : Word) :
    (s.writeStatus v).cfg = s.cfg := rfl
@[simp] theorem State.writeStatus_program (s : State) (v : Word) :
    (s.writeStatus v).program = s.program := rfl
@[simp] theorem State.writeStatus_hpc (s : State) (v : Word) :
    (s.writeStatus v).hpc = s.hpc := rfl
@[simp] theorem State.writeStatus_readData (s : State) (v : Word) :
    (s.writeStatus v).readData = s.readData := rfl
@[simp] theorem State.writeStatus_schedule (s : State) (v : Word) :
    (s.writeStatus v).schedule = s.schedule := rfl
@[simp] theorem State.writeStatus_bufDraw (s : State) (v : Word) :
    (s.writeStatus v).bufDraw = s.bufDraw := rfl
@[simp] theorem State.writeStatus_rngDraw (s : State) (v : Word) :
    (s.writeStatus v).rngDraw = s.rngDraw := rfl

/-! ### popTurn -/

@[simp] theorem State.popTurn_phase (s : State) :
    (s.popTurn).phase = s.phase := rfl
@[simp] theorem State.popTurn_done (s : State) :
    (s.popTurn).done = s.done := rfl
@[simp] theorem State.popTurn_werr (s : State) :
    (s.popTurn).werr = s.werr := rfl
@[simp] theorem State.popTurn_errCode (s : State) :
    (s.popTurn).errCode = s.errCode := rfl
@[simp] theorem State.popTurn_lastOp (s : State) :
    (s.popTurn).lastOp = s.lastOp := rfl
@[simp] theorem State.popTurn_errInfo (s : State) :
    (s.popTurn).errInfo = s.errInfo := rfl
@[simp] theorem State.popTurn_errPos (s : State) :
    (s.popTurn).errPos = s.errPos := rfl
@[simp] theorem State.popTurn_doneIe (s : State) :
    (s.popTurn).doneIe = s.doneIe := rfl
@[simp] theorem State.popTurn_inLen (s : State) :
    (s.popTurn).inLen = s.inLen := rfl
@[simp] theorem State.popTurn_outLen (s : State) :
    (s.popTurn).outLen = s.outLen := rfl
@[simp] theorem State.popTurn_pwLen (s : State) :
    (s.popTurn).pwLen = s.pwLen := rfl
@[simp] theorem State.popTurn_saltLen (s : State) :
    (s.popTurn).saltLen = s.saltLen := rfl
@[simp] theorem State.popTurn_ctLen (s : State) :
    (s.popTurn).ctLen = s.ctLen := rfl
@[simp] theorem State.popTurn_iter (s : State) :
    (s.popTurn).iter = s.iter := rfl
@[simp] theorem State.popTurn_halgTag (s : State) :
    (s.popTurn).halgTag = s.halgTag := rfl
@[simp] theorem State.popTurn_saltgenLen (s : State) :
    (s.popTurn).saltgenLen = s.saltgenLen := rfl
@[simp] theorem State.popTurn_customTable (s : State) :
    (s.popTurn).customTable = s.customTable := rfl
@[simp] theorem State.popTurn_customValid (s : State) :
    (s.popTurn).customValid = s.customValid := rfl
@[simp] theorem State.popTurn_mem (s : State) :
    (s.popTurn).mem = s.mem := rfl
@[simp] theorem State.popTurn_rst (s : State) :
    (s.popTurn).rst = s.rst := rfl
@[simp] theorem State.popTurn_cfg (s : State) :
    (s.popTurn).cfg = s.cfg := rfl
@[simp] theorem State.popTurn_program (s : State) :
    (s.popTurn).program = s.program := rfl
@[simp] theorem State.popTurn_hpc (s : State) :
    (s.popTurn).hpc = s.hpc := rfl
@[simp] theorem State.popTurn_readData (s : State) :
    (s.popTurn).readData = s.readData := rfl
@[simp] theorem State.popTurn_schedule (s : State) :
    (s.popTurn).schedule = s.schedule.tail := rfl
@[simp] theorem State.popTurn_bufDraw (s : State) :
    (s.popTurn).bufDraw = s.bufDraw := rfl
@[simp] theorem State.popTurn_rngDraw (s : State) :
    (s.popTurn).rngDraw = s.rngDraw := rfl

/-! ### withCommand -/

@[simp] theorem State.withCommand_phase (s : State) (w : Word) :
    (s.withCommand w).phase = .busy w := rfl
@[simp] theorem State.withCommand_done (s : State) (w : Word) :
    (s.withCommand w).done = false := rfl
@[simp] theorem State.withCommand_werr (s : State) (w : Word) :
    (s.withCommand w).werr = s.werr := rfl
@[simp] theorem State.withCommand_errCode (s : State) (w : Word) :
    (s.withCommand w).errCode = s.errCode := rfl
@[simp] theorem State.withCommand_lastOp (s : State) (w : Word) :
    (s.withCommand w).lastOp = s.lastOp := rfl
@[simp] theorem State.withCommand_errInfo (s : State) (w : Word) :
    (s.withCommand w).errInfo = s.errInfo := rfl
@[simp] theorem State.withCommand_errPos (s : State) (w : Word) :
    (s.withCommand w).errPos = s.errPos := rfl
@[simp] theorem State.withCommand_doneIe (s : State) (w : Word) :
    (s.withCommand w).doneIe = s.doneIe := rfl
@[simp] theorem State.withCommand_inLen (s : State) (w : Word) :
    (s.withCommand w).inLen = s.inLen := rfl
@[simp] theorem State.withCommand_outLen (s : State) (w : Word) :
    (s.withCommand w).outLen = s.outLen := rfl
@[simp] theorem State.withCommand_pwLen (s : State) (w : Word) :
    (s.withCommand w).pwLen = s.pwLen := rfl
@[simp] theorem State.withCommand_saltLen (s : State) (w : Word) :
    (s.withCommand w).saltLen = s.saltLen := rfl
@[simp] theorem State.withCommand_ctLen (s : State) (w : Word) :
    (s.withCommand w).ctLen = s.ctLen := rfl
@[simp] theorem State.withCommand_iter (s : State) (w : Word) :
    (s.withCommand w).iter = s.iter := rfl
@[simp] theorem State.withCommand_halgTag (s : State) (w : Word) :
    (s.withCommand w).halgTag = s.halgTag := rfl
@[simp] theorem State.withCommand_saltgenLen (s : State) (w : Word) :
    (s.withCommand w).saltgenLen = s.saltgenLen := rfl
@[simp] theorem State.withCommand_customTable (s : State) (w : Word) :
    (s.withCommand w).customTable = s.customTable := rfl
@[simp] theorem State.withCommand_customValid (s : State) (w : Word) :
    (s.withCommand w).customValid = s.customValid := rfl
@[simp] theorem State.withCommand_mem (s : State) (w : Word) :
    (s.withCommand w).mem = s.mem := rfl
@[simp] theorem State.withCommand_rst (s : State) (w : Word) :
    (s.withCommand w).rst = false := rfl
@[simp] theorem State.withCommand_cfg (s : State) (w : Word) :
    (s.withCommand w).cfg = s.cfg := rfl
@[simp] theorem State.withCommand_program (s : State) (w : Word) :
    (s.withCommand w).program = s.program := rfl
@[simp] theorem State.withCommand_hpc (s : State) (w : Word) :
    (s.withCommand w).hpc = s.hpc := rfl
@[simp] theorem State.withCommand_readData (s : State) (w : Word) :
    (s.withCommand w).readData = s.readData := rfl
@[simp] theorem State.withCommand_schedule (s : State) (w : Word) :
    (s.withCommand w).schedule = .sequencer :: s.schedule := rfl
@[simp] theorem State.withCommand_bufDraw (s : State) (w : Word) :
    (s.withCommand w).bufDraw = s.bufDraw := rfl
@[simp] theorem State.withCommand_rngDraw (s : State) (w : Word) :
    (s.withCommand w).rngDraw = s.rngDraw := rfl

/-! ### The two ends of a completion step -/

@[simp] theorem State.raise_eq_complete (s : State) (op : Byte) (e : Raise) :
    s.raise op e = s.complete op e.code e.info e.pos := rfl

@[simp] theorem State.commit_eq_complete (s : State) (op : Byte) : s.commit op = s.complete op .noError {} 0 := rfl

@[simp] theorem State.finish_error (s : State) (op : Byte) (e : Raise) : s.finish op (.error e) = s.raise op e := rfl

@[simp] theorem State.finish_ok (s t : State) (op : Byte) : s.finish op (.ok t) = t.commit op := rfl

end Sys2Proof.Machine
end

