-- ==== Sys2Proof/Laws/Memory.lean ====
section
/-! SUPPORT. Laws of memory and of the buffers: what a read gives after a write, and that every operation keeps the
canonical form. -/

namespace Sys2Proof.Machine

/-! ### One byte -/

theorem Memory.read?_write (m : Memory) (x y : Nat) (v : Byte) :
    Memory.read? (Memory.write m x v) y = if y = x then some v else Memory.read? m y := by
  induction m with
  | nil => simp [Memory.write, Memory.read?, eq_comm]
  | cons c m ih =>
    obtain ⟨a, b⟩ := c
    simp only [Memory.write]
    split
    · simp [Memory.read?, eq_comm]
    · split
      · subst_vars; simp only [Memory.read?]; split <;> simp_all [eq_comm]
      · simp only [Memory.read?, ih]; split <;> split <;> simp_all

theorem Memory.mem_write {m : Memory} {x : Nat} {v : Byte} {c : Host.Cell} (h : c ∈ Memory.write m x v) :
    c.1 = x ∨ c ∈ m := by
  induction m with
  | nil => simp only [Memory.write, List.mem_singleton] at h; exact .inl (by rw [h])
  | cons d m ih =>
    simp only [Memory.write] at h
    split at h
    · rcases List.mem_cons.1 h with rfl | h
      · exact .inl rfl
      · exact .inr h
    · split at h
      · rcases List.mem_cons.1 h with rfl | h
        · exact .inl rfl
        · exact .inr (List.mem_cons_of_mem _ h)
      · rcases List.mem_cons.1 h with rfl | h
        · exact .inr List.mem_cons_self
        · exact (ih h).imp_right (List.mem_cons_of_mem _)

theorem Memory.wf_write {m : Memory} (h : Memory.wf m) (x : Nat) (v : Byte) : Memory.wf (Memory.write m x v) := by
  induction m with
  | nil => simp [Memory.write, Memory.wf]
  | cons d m ih =>
    obtain ⟨hd, hm⟩ := List.pairwise_cons.1 h
    simp only [Memory.write]
    split
    · refine List.pairwise_cons.2 ⟨fun c hc => ?_, h⟩
      rcases List.mem_cons.1 hc with rfl | hc
      · assumption
      · exact Nat.lt_trans ‹_› (hd c hc)
    · split
      · subst_vars; exact List.pairwise_cons.2 ⟨hd, hm⟩
      · refine List.pairwise_cons.2 ⟨fun c hc => ?_, ih hm⟩
        rcases Memory.mem_write hc with hx | hc
        · show d.1 < c.1
          omega
        · exact hd c hc

/-! ### A sequence of bytes -/

theorem Memory.read?_writeList (m : Memory) (x y : Nat) (vs : List Byte) :
    Memory.read? (Memory.writeList m x vs) y =
      if x ≤ y ∧ y < x + vs.length then some (vs.getD (y - x) 0) else Memory.read? m y := by
  induction vs generalizing m x with
  | nil =>
    have : ¬(x ≤ y ∧ y < x) := by omega
    simp [Memory.writeList, this]
  | cons v vs ih =>
    simp only [Memory.writeList, ih, Memory.read?_write, List.length_cons]
    by_cases hy : y = x
    · subst hy; simp
    · by_cases h : x + 1 ≤ y ∧ y < x + 1 + vs.length
      · have h' : x ≤ y ∧ y < x + (vs.length + 1) := by omega
        rw [if_pos h, if_pos h', show y - x = (y - (x + 1)) + 1 by omega, List.getD_cons_succ]
      · have h' : ¬(x ≤ y ∧ y < x + (vs.length + 1)) := by omega
        rw [if_neg h, if_neg h', if_neg hy]

theorem Memory.mem_writeList {m : Memory} {x : Nat} {vs : List Byte} {c : Host.Cell}
    (h : c ∈ Memory.writeList m x vs) : (x ≤ c.1 ∧ c.1 < x + vs.length) ∨ c ∈ m := by
  induction vs generalizing m x with
  | nil => exact .inr h
  | cons v vs ih =>
    rcases ih h with h | h
    · simp only [List.length_cons]; exact .inl (by omega)
    · rcases Memory.mem_write h with h | h
      · simp only [List.length_cons]; exact .inl (by omega)
      · exact .inr h

theorem Memory.wf_writeList {m : Memory} (h : Memory.wf m) (x : Nat) (vs : List Byte) :
    Memory.wf (Memory.writeList m x vs) := by
  induction vs generalizing m x with
  | nil => exact h
  | cons v vs ih => exact ih (Memory.wf_write h x v) _

/-! ### The lanes of a bus write -/

theorem Memory.read?_writeLanes (m : Memory) (base cap i : Nat) (v : Word) (n a : Nat) :
    Memory.read? (writeLanes m base cap i v n) a =
      if base + i ≤ a ∧ a < base + i + n ∧ a < base + cap then some (v.extractLsb' (8 * (a - base - i)) 8)
      else Memory.read? m a := by
  induction n with
  | zero =>
    have : ¬(base + i ≤ a ∧ a < base + i + 0 ∧ a < base + cap) := by omega
    rw [if_neg this]; rfl
  | succ n ih =>
    simp only [writeLanes]
    split
    · rw [Memory.read?_write, ih]
      by_cases ha : a = base + (i + n)
      · have h' : base + i ≤ a ∧ a < base + i + (n + 1) ∧ a < base + cap := by omega
        rw [if_pos ha, if_pos h', show a - base - i = n by omega]
      · rw [if_neg ha]; congr 1; simp only [eq_iff_iff]; omega
    · rw [ih]; congr 1; simp only [eq_iff_iff]; omega

theorem Memory.mem_writeLanes {m : Memory} {base cap i n : Nat} {v : Word} {c : Host.Cell}
    (h : c ∈ writeLanes m base cap i v n) : (base ≤ c.1 ∧ c.1 < base + cap) ∨ c ∈ m := by
  induction n with
  | zero => exact .inr h
  | succ n ih =>
    simp only [writeLanes] at h
    split at h
    · rcases Memory.mem_write h with h | h
      · exact .inl (by omega)
      · exact ih h
    · exact ih h

theorem Memory.wf_writeLanes {m : Memory} (h : Memory.wf m) (base cap i : Nat) (v : Word) (n : Nat) :
    Memory.wf (writeLanes m base cap i v n) := by
  induction n with
  | zero => exact h
  | succ n ih =>
    simp only [writeLanes]
    split
    · exact Memory.wf_write ih _ _
    · exact ih

theorem Memory.wf_reset (p : Params) : Memory.wf (State.resetWith p).mem := List.Pairwise.nil

/-! ### Buffers -/

@[simp] theorem State.length_readBuf (s : State) (b : Buf) (n : Nat) : (s.readBuf b n).length = n := by
  simp [State.readBuf]

theorem State.readBuf_getD (s : State) (b : Buf) {n i : Nat} (h : i < n) :
    (s.readBuf b n).getD i 0 = s.bufByte b i := by
  simp [State.readBuf, List.getD_eq_getElem?_getD, List.getElem?_range h]

/-- A byte reads as memory lists it, so equal reads and an equal draw give equal bytes. -/
theorem State.bufByte_congr {s t : State} {b : Buf} {i : Nat} (hd : t.bufDraw = s.bufDraw)
    (hm : Memory.read? t.mem (b.base + i) = Memory.read? s.mem (b.base + i)) : t.bufByte b i = s.bufByte b i := by
  simp [State.bufByte, hd, hm]

theorem State.readBuf_congr {s t : State} {b : Buf} {n : Nat} (h : ∀ i, i < n → t.bufByte b i = s.bufByte b i) :
    t.readBuf b n = s.readBuf b n := by
  simp only [State.readBuf]
  exact List.map_congr_left fun i hi => h i (List.mem_range.1 hi)

/-- A buffer reads back the sequence just written to it. -/
theorem State.readBuf_of_mem_eq {s : State} {b : Buf} {m : Memory} {v : List Byte}
    (h : s.mem = Memory.writeList m b.base v) : s.readBuf b v.length = v := by
  refine List.ext_getElem (by simp) fun i hi hi' => ?_
  have hx : b.base ≤ b.base + i ∧ b.base + i < b.base + v.length := by omega
  simp [State.readBuf, State.bufByte, h, Memory.read?_writeList, hi']

theorem Buf.cap_le (p : Params) (b : Buf) : b.cap p ≤ 65536 := by
  cases b <;> simp [Buf.cap, p.inCap_legal, p.outCap_legal, p.pwCap_legal, p.saltCap_legal, p.ctCap_legal]

/-! ### ERRPOS of a length -/

@[simp] theorem countWord_of_lt {n : Nat} (h : n < 2 ^ 32) : countWord n = BitVec.ofNat 32 n := by
  rw [countWord, if_pos h]

end Sys2Proof.Machine
end

