-- ==== Sys2Proof/Laws/Codec.lean ====
section
/-! SUPPORT. Laws of the codec: tables and their inverses, the bits of a group and of a decoded byte, when a decode fails,
and when an alphabet has a duplicate. -/

namespace Sys2Proof.Machine

/-! ### Tables -/

/-- An inverse value names the symbol. -/
theorem getElem?_of_inverse {t : Table} {c : Byte} {v : BitVec 5} (h : inverse t c = some v) :
    t.syms[v.toNat]? = some c := by
  obtain ⟨k, hk, rfl⟩ : ∃ k, t.syms.idxOf? c = some k ∧ BitVec.ofNat 5 k = v := by simpa [inverse] using h
  have hlt : k < t.syms.length := by
    have := List.idxOf?_eq_some_iff.1 hk
    exact this.1
  have hk' := List.idxOf?_eq_some_iff.1 hk
  have : k % 32 = k := Nat.mod_eq_of_lt (by rw [← t.len]; exact hlt)
  simp only [BitVec.toNat_ofNat, show 2 ^ 5 = 32 from rfl, this]
  rw [List.getElem?_eq_getElem hlt]
  simpa using hk'.2.1

theorem symbolAt_eq_getElem (t : Table) (v : BitVec 5) :
    t.syms[v.toNat]? = some (symbolAt t v) := by
  have h : v.toNat < t.syms.length := by rw [t.len]; exact v.isLt
  simp [symbolAt, List.getD_eq_getElem?_getD, List.getElem?_eq_getElem h]

theorem symbolAt_of_inverse {t : Table} {c : Byte} {v : BitVec 5} (h : inverse t c = some v) : symbolAt t v = c := by
  have := getElem?_of_inverse h
  rw [symbolAt_eq_getElem] at this
  exact Option.some.inj this

/-- In a valid table every value is recovered from its symbol (10_state R40). -/
theorem inverse_symbolAt {t : Table} (ht : t.Valid) (v : BitVec 5) : inverse t (symbolAt t v) = some v := by
  have h : v.toNat < t.syms.length := by rw [t.len]; exact v.isLt
  have hg : symbolAt t v = t.syms[v.toNat] := by
    have := symbolAt_eq_getElem t v
    rw [List.getElem?_eq_getElem h] at this
    exact (Option.some.inj this).symm
  have : t.syms.idxOf? (symbolAt t v) = some v.toNat := by
    rw [List.idxOf?_eq_some_iff]
    refine ⟨h, by simp [hg], fun j hj => ?_⟩
    rw [hg]
    intro he
    exact absurd ((List.Nodup.getElem_inj_iff ht).1 he) (Nat.ne_of_lt hj)
  simp [inverse, this]

theorem inverse_eq_none_iff {t : Table} {c : Byte} : inverse t c = none ↔ c ∉ t.syms := by
  simp [inverse, List.idxOf?_eq_none_iff]

theorem symbolAt_mem (t : Table) (v : BitVec 5) : symbolAt t v ∈ t.syms :=
  List.mem_of_getElem? (symbolAt_eq_getElem t v)

/-! ### Bits -/

theorem bitAt_eq (b : List Byte) (i : Nat) : bitAt b i = (streamBit b i).toNat := by
  have h : i % 8 < 8 := Nat.mod_lt _ (by decide)
  simp only [bitAt, streamBit, BitVec.getMsbD, h, decide_true, Bool.true_and, BitVec.getLsbD, Nat.testBit]
  rw [show 8 - 1 - i % 8 = 7 - i % 8 by omega, Nat.one_and_eq_mod_two]
  rcases Nat.mod_two_eq_zero_or_one ((b.getD (i / 8) 0).toNat >>> (7 - i % 8)) with h | h <;> rw [h] <;> rfl

theorem valueBit_eq (v : List (BitVec 5)) (i : Nat) : valueBit v i = (valueStreamBit v i).toNat := by
  have h : i % 5 < 5 := Nat.mod_lt _ (by decide)
  simp only [valueBit, valueStreamBit, BitVec.getMsbD, h, decide_true, Bool.true_and, BitVec.getLsbD, Nat.testBit]
  rw [show 5 - 1 - i % 5 = 4 - i % 5 by omega, Nat.one_and_eq_mod_two]
  rcases Nat.mod_two_eq_zero_or_one ((v.getD (i / 5) 0).toNat >>> (4 - i % 5)) with h | h <;> rw [h] <;> rfl

/-- Bit `j` of group `k`, most significant first, is stream bit `5k + j` (R76). -/
theorem group_getMsbD (b : List Byte) (k : Nat) {j : Nat} (hj : j < 5) :
    (group b k).getMsbD j = streamBit b (5 * k + j) := by
  have key : ∀ x0 x1 x2 x3 x4 : Bool, ∀ j : Fin 5,
      (BitVec.ofNat 5 ([x0.toNat <<< 4, x1.toNat <<< 3, x2.toNat <<< 2, x3.toNat <<< 1, x4.toNat <<< 0].sum)).getMsbD j =
        [x0, x1, x2, x3, x4][j] := by decide
  have hk := key (streamBit b (5 * k)) (streamBit b (5 * k + 1)) (streamBit b (5 * k + 2)) (streamBit b (5 * k + 3))
    (streamBit b (5 * k + 4)) ⟨j, hj⟩
  have hg : group b k = BitVec.ofNat 5 [(streamBit b (5 * k)).toNat <<< 4, (streamBit b (5 * k + 1)).toNat <<< 3,
      (streamBit b (5 * k + 2)).toNat <<< 2, (streamBit b (5 * k + 3)).toNat <<< 1,
      (streamBit b (5 * k + 4)).toNat <<< 0].sum := by
    simp only [group, bitAt_eq]; rfl
  rw [hg, hk]
  interval_cases j <;> rfl

/-- Bit `q` of decoded byte `j`, most significant first, is value bit `8j + q` (R78). -/
theorem decodedByte_getMsbD (v : List (BitVec 5)) (j : Nat) {q : Nat} (hq : q < 8) :
    (decodedByte v j).getMsbD q = valueStreamBit v (8 * j + q) := by
  have key : ∀ x0 x1 x2 x3 x4 x5 x6 x7 : Bool, ∀ q : Fin 8,
      (BitVec.ofNat 8 ([x0.toNat <<< 7, x1.toNat <<< 6, x2.toNat <<< 5, x3.toNat <<< 4, x4.toNat <<< 3,
        x5.toNat <<< 2, x6.toNat <<< 1, x7.toNat <<< 0].sum)).getMsbD q =
          [x0, x1, x2, x3, x4, x5, x6, x7][q] := by decide +kernel
  have hk := key (valueStreamBit v (8 * j)) (valueStreamBit v (8 * j + 1)) (valueStreamBit v (8 * j + 2))
    (valueStreamBit v (8 * j + 3)) (valueStreamBit v (8 * j + 4)) (valueStreamBit v (8 * j + 5))
    (valueStreamBit v (8 * j + 6)) (valueStreamBit v (8 * j + 7)) ⟨q, hq⟩
  have hg : decodedByte v j = BitVec.ofNat 8 [(valueStreamBit v (8 * j)).toNat <<< 7,
      (valueStreamBit v (8 * j + 1)).toNat <<< 6, (valueStreamBit v (8 * j + 2)).toNat <<< 5,
      (valueStreamBit v (8 * j + 3)).toNat <<< 4, (valueStreamBit v (8 * j + 4)).toNat <<< 3,
      (valueStreamBit v (8 * j + 5)).toNat <<< 2, (valueStreamBit v (8 * j + 6)).toNat <<< 1,
      (valueStreamBit v (8 * j + 7)).toNat <<< 0].sum := by
    simp only [decodedByte, valueBit_eq]; rfl
  rw [hg, hk]
  interval_cases q <;> rfl

/-! ### Encode and decode -/

@[simp] theorem length_encode32 (t : Table) (b : List Byte) :
    (encode32 t b).length = encodedLength b.length := by
  simp [encode32]

theorem encode32_getElem? (t : Table) (b : List Byte) {k : Nat} (hk : k < encodedLength b.length) :
    (encode32 t b)[k]? = some (symbolAt t (group b k)) := by
  simp [encode32, List.getElem?_range hk]

theorem mem_of_mem_encode32 {t : Table} {b : List Byte} {c : Byte} (h : c ∈ encode32 t b) : c ∈ t.syms := by
  obtain ⟨k, -, rfl⟩ := List.mem_map.1 h
  exact symbolAt_mem t _

@[simp] theorem length_unpack (v : List (BitVec 5)) : (unpack v).length = decodedLength v.length := by
  simp [unpack]

/-- A decode succeeds exactly when every symbol is in the table (R78). -/
theorem decode32_ok_iff {t : Table} {s v : List Byte} :
    decode32 t s = .ok v ↔ (∀ c ∈ s, c ∈ t.syms) ∧ v = unpack (s.map fun c => (inverse t c).getD 0) := by
  have hf : s.findIdx? (fun c => (inverse t c).isNone) = none ↔ ∀ c ∈ s, c ∈ t.syms := by
    simp only [List.findIdx?_eq_none_iff, Option.isNone_eq_false_iff]
    refine forall₂_congr fun c _ => ?_
    rw [← not_iff_not, ← inverse_eq_none_iff]
    cases inverse t c <;> simp
  unfold decode32
  split
  · rename_i k hk
    simp [← hf, hk]
  · rename_i hk
    have := hf.1 hk
    constructor
    · intro h
      exact ⟨this, (Except.ok.inj h).symm⟩
    · rintro ⟨-, rfl⟩
      rfl

/-- A decode fails at the first symbol that is not in the table (R78). -/
theorem decode32_error_iff {t : Table} {s : List Byte} {e : BadSymbol} :
    decode32 t s = .error e ↔
      ∃ h : e.pos < s.length, s[e.pos] = e.sym ∧ e.sym ∉ t.syms ∧ ∀ k (hk : k < e.pos), s[k] ∈ t.syms := by
  have hn : ∀ c, (inverse t c).isNone = true ↔ c ∉ t.syms := fun c => by
    rw [← inverse_eq_none_iff, Option.isNone_iff_eq_none]
  unfold decode32
  split
  · rename_i k hk
    obtain ⟨hlt, hp, hmin⟩ := List.findIdx?_eq_some_iff_getElem.1 hk
    have hg : s.getD k 0 = s[k] := by simp [hlt]
    constructor
    · intro h
      obtain rfl : (⟨k, s.getD k 0⟩ : BadSymbol) = e := by simpa using h
      refine ⟨hlt, hg.symm, ?_, fun j hj => ?_⟩
      · simp only [hg]; exact (hn _).1 hp
      · by_contra hc
        exact hmin j hj ((hn _).2 hc)
    · rintro ⟨h, hs, hb, hall⟩
      obtain ⟨p, c⟩ := e
      simp only at h hs hb hall
      have : k = p := by
        rcases Nat.lt_trichotomy k p with hlt' | rfl | hgt
        · exact absurd (hall k hlt') ((hn _).1 hp)
        · rfl
        · exact absurd ((hn _).2 (hs ▸ hb)) (hmin p hgt)
      subst this
      simp [hs, hlt]
  · rename_i hk
    simp only [reduceCtorEq, false_iff, not_exists, not_and]
    intro h hs hb
    have := List.findIdx?_eq_none_iff.1 hk s[e.pos] (List.getElem_mem h)
    rw [hs] at this
    exact absurd ((hn _).2 hb) (by simp [this])

/-! ### Duplicates -/

/-- No duplicate is found exactly when the symbols are pairwise distinct (R71, R81). -/
theorem firstDuplicate_eq_none_iff {a : List Byte} : firstDuplicate a = none ↔ a.Nodup := by
  have h : firstDuplicate a = none ↔
      (List.range a.length).find? (fun j => (a.take j).contains (a.getD j 0)) = none := by
    unfold firstDuplicate
    split
    · rename_i k hk
      rw [hk]; simp
    · rename_i hk
      rw [hk]; simp
  rw [h, List.find?_eq_none]
  simp only [List.mem_range, Bool.not_eq_true, List.contains_eq_mem, decide_eq_false_iff_not]
  rw [List.nodup_iff_getElem?_ne_getElem?]
  constructor
  · intro hd i j hij hj he
    refine hd j hj ?_
    rw [List.getElem?_eq_getElem hj, List.getElem?_eq_getElem (by omega)] at he
    rw [List.getD_eq_getElem _ _ hj, List.mem_take_iff_getElem]
    exact ⟨i, by omega, Option.some.inj he⟩
  · intro hd j hj hm
    rw [List.getD_eq_getElem _ _ hj, List.mem_take_iff_getElem] at hm
    obtain ⟨i, hi, he⟩ := hm
    refine hd i j (by omega) hj ?_
    rw [List.getElem?_eq_getElem hj, List.getElem?_eq_getElem (by omega), he]

/-- The duplicate reported is the smallest second index, with the smallest first index for it (R81). -/
theorem firstDuplicate_eq_some {a : List Byte} {i j : Nat} (hij : i < j) (hj : j < a.length)
    (he : a[i] = a[j]) (hi : ∀ k (hk : k < i), a[k] ≠ a[j])
    (hd : ∀ l (hl : l < j), ∀ k (hk : k < l), a[k] ≠ a[l]) : firstDuplicate a = some (i, j) := by
  have hf : (List.range a.length).find? (fun j => (a.take j).contains (a.getD j 0)) = some j := by
    rw [List.find?_range_eq_some]
    refine ⟨?_, List.mem_range.2 hj, fun l hl => ?_⟩
    · rw [List.getD_eq_getElem _ _ hj]
      simp only [List.contains_eq_mem, decide_eq_true_eq, List.mem_take_iff_getElem]
      exact ⟨i, by omega, he⟩
    · rw [List.getD_eq_getElem _ _ (by omega)]
      simp only [List.contains_eq_mem, List.mem_take_iff_getElem, Bool.not_eq_eq_eq_not, Bool.not_true,
        decide_eq_false_iff_not, not_exists]
      intro k hk hkl
      exact hd l hl k (by omega) hkl
  have hx : a.idxOf a[j] = i := by
    rw [List.idxOf, List.findIdx_eq (by omega)]
    exact ⟨by simp [he], fun k hk => by simpa using hi k hk⟩
  have hg : a.getD j 0 = a[j] := List.getD_eq_getElem _ _ hj
  unfold firstDuplicate
  rw [hf]
  simp only [hg, hx]

end Sys2Proof.Machine
end

