-- ==== Sys2Proof/Laws/Framing.lean ====
section
/-! SUPPORT. Laws of the envelope: how a byte sequence splits at its delimiters, the tag check, and what a parse that
succeeds has checked. -/

namespace Sys2Proof.Machine

/-! ### Segments (R95) -/

theorem segments_ne_nil (s : List Byte) : segments s ≠ [] := by
  induction s with
  | nil => simp [segments]
  | cons c cs ih =>
    simp only [segments]
    split
    · simp
    · split <;> simp

theorem segments_delimiter_cons (s : List Byte) : segments (delimiter :: s) = [] :: segments s := by
  simp only [segments]
  split
  · exact absurd ‹_› (segments_ne_nil s)
  · rename_i h
    simp [h]

theorem segments_cons_of_ne {c : Byte} (hc : c ≠ delimiter) {s g : List Byte} {gs : List (List Byte)}
    (h : segments s = g :: gs) : segments (c :: s) = (c :: g) :: gs := by
  simp [segments, h, hc]

/-- A sequence without delimiters is one segment. -/
theorem segments_of_not_mem {g : List Byte} (h : delimiter ∉ g) : segments g = [g] := by
  induction g with
  | nil => rfl
  | cons c g ih =>
    simp only [List.mem_cons, not_or] at h
    exact segments_cons_of_ne (Ne.symm h.1) (ih h.2)

/-- The first delimiter ends the first segment. -/
theorem segments_append_delimiter {g : List Byte} (h : delimiter ∉ g) (s : List Byte) :
    segments (g ++ delimiter :: s) = g :: segments s := by
  induction g with
  | nil => exact segments_delimiter_cons s
  | cons c g ih =>
    simp only [List.mem_cons, not_or] at h
    exact segments_cons_of_ne (Ne.symm h.1) (ih h.2)

/-- There is one segment more than there are delimiters. -/
theorem length_segments (s : List Byte) : (segments s).length = delimiters s + 1 := by
  induction s with
  | nil => rfl
  | cons c s ih =>
    by_cases hc : c = delimiter
    · subst hc
      simp [segments_delimiter_cons, ih, delimiters]
    · obtain ⟨g, gs, hg⟩ := List.exists_cons_of_ne_nil (segments_ne_nil s)
      rw [segments_cons_of_ne hc hg]
      rw [hg] at ih
      simpa [delimiters, hc] using ih

/-! ### The tag check (R86) -/

theorem tagError_eq_none_iff (sha3 : Bool) (t : Byte) : tagError sha3 t = none ↔ SupportedTag sha3 t := by
  have h6 : t > 6 ↔ ¬ t.toNat ≤ 6 := by simp [BitVec.lt_def]
  have h4 : 4 ≤ t ↔ ¬ t.toNat ≤ 3 := by simp [BitVec.le_def]; omega
  simp only [tagError, SupportedTag, h6, h4]
  cases sha3 <;> by_cases t.toNat ≤ 6 <;> by_cases t.toNat ≤ 3 <;> simp_all

theorem tagError_code {sha3 : Bool} {t : Byte} {e : Raise} (h : tagError sha3 t = some e) :
    e.code = .unsupportedAlgorithm := by
  unfold tagError at h
  split at h
  · obtain rfl := Option.some.inj h; rfl
  · split at h
    · obtain rfl := Option.some.inj h; rfl
    · simp at h

/-! ### What a parse can answer (R95) -/

theorem iterUnpack_error_code {ib : List Byte} {e : Raise} (h : iterUnpack ib = .error e) :
    e.code = .malformedEnvelope := by
  unfold iterUnpack at h
  split at h
  · obtain rfl := Except.error.inj h; rfl
  · split at h
    · obtain rfl := Except.error.inj h; rfl
    · simp at h

theorem decodeSegment_error_code {c : Table} {i : BitVec 2} {p : Nat} {g : List Byte} {e : Raise}
    (h : decodeSegment c i p g = .error e) : e.code = .malformedEnvelope := by
  unfold decodeSegment at h
  split at h
  · obtain rfl := Except.error.inj h; rfl
  · simp at h

theorem checkFields_error_code {p : Params} {f0 f1 f2 f3 : List Byte} {e : Raise}
    (h : checkFields p f0 f1 f2 f3 = .error e) : e.code ≠ .noError := by
  unfold checkFields at h
  split at h
  · rename_i e' he
    obtain rfl := Except.error.inj h
    simp [iterUnpack_error_code he]
  · split at h
    · split at h
      · rename_i e' he
        obtain rfl := Except.error.inj h
        simp [tagError_code he]
      · split at h
        · obtain rfl := Except.error.inj h; simp [capacityExceeded]
        · split at h
          · obtain rfl := Except.error.inj h; simp [capacityExceeded]
          · simp at h
    · obtain rfl := Except.error.inj h; simp [tagLength]
    · obtain rfl := Except.error.inj h; simp [tagLength]

theorem parseSegments_error_code {p : Params} {g0 g1 g2 g3 : List Byte} {e : Raise}
    (h : parseSegments p g0 g1 g2 g3 = .error e) : e.code ≠ .noError := by
  unfold parseSegments at h
  split at h
  · rename_i e' he; obtain rfl := Except.error.inj h; simp [decodeSegment_error_code he]
  · split at h
    · rename_i e' he; obtain rfl := Except.error.inj h; simp [decodeSegment_error_code he]
    · split at h
      · rename_i e' he; obtain rfl := Except.error.inj h; simp [decodeSegment_error_code he]
      · split at h
        · rename_i e' he; obtain rfl := Except.error.inj h; simp [decodeSegment_error_code he]
        · exact checkFields_error_code h

theorem parse_error_code {p : Params} {s : List Byte} {e : Raise} (h : parse p s = .error e) :
    e.code ≠ .noError := by
  unfold parse at h
  split at h
  · exact parseSegments_error_code h
  · obtain rfl := Except.error.inj h; simp [segmentCount]

/-- What the checks of R95 let through. -/
theorem checkFields_ok {p : Params} {f0 f1 f2 f3 : List Byte} {f : Fields}
    (h : checkFields p f0 f1 f2 f3 = .ok f) :
    iterUnpack f1 = .ok f.iter ∧ f2 = [f.tag] ∧ SupportedTag p.sha3 f.tag ∧ f0 = f.salt ∧ f3 = f.ct ∧
      f.salt.length ≤ p.saltCap ∧ f.ct.length ≤ p.ctCap := by
  unfold checkFields at h
  split at h
  · simp at h
  · rename_i it hit
    split at h
    · split at h
      · simp at h
      · rename_i ht
        split at h
        · simp at h
        · split at h
          · simp at h
          · obtain rfl := Except.ok.inj h
            refine ⟨hit, rfl, (tagError_eq_none_iff _ _).1 ht, rfl, rfl, ?_, ?_⟩ <;> simp only <;> omega
    · simp at h
    · simp at h

/-- A parse that succeeds: four segments that decode under CROCKFORD, and fields that pass the checks. -/
theorem parse_ok {p : Params} {s : List Byte} {f : Fields} (h : parse p s = .ok f) :
    ∃ g0 g1 g2 g3 f1, segments s = [g0, g1, g2, g3] ∧ decode32 p.crockford g0 = .ok f.salt ∧
      decode32 p.crockford g1 = .ok f1 ∧ iterUnpack f1 = .ok f.iter ∧ decode32 p.crockford g2 = .ok [f.tag] ∧
      decode32 p.crockford g3 = .ok f.ct ∧ SupportedTag p.sha3 f.tag ∧ f.salt.length ≤ p.saltCap ∧
      f.ct.length ≤ p.ctCap := by
  have hd : ∀ {i : BitVec 2} {q : Nat} {g v : List Byte}, decodeSegment p.crockford i q g = .ok v →
      decode32 p.crockford g = .ok v := by
    intro i q g v hv
    unfold decodeSegment at hv
    split at hv
    · simp at hv
    · obtain rfl := Except.ok.inj hv; assumption
  unfold parse at h
  split at h
  · rename_i g0 g1 g2 g3 hs
    unfold parseSegments at h
    split at h
    · simp at h
    · rename_i f0 h0
      split at h
      · simp at h
      · rename_i f1 h1
        split at h
        · simp at h
        · rename_i f2 h2
          split at h
          · simp at h
          · rename_i f3 h3
            obtain ⟨hi, rfl, ht, rfl, rfl, hl, hc⟩ := checkFields_ok h
            exact ⟨g0, g1, g2, g3, f1, hs, hd h0, hd h1, hi, hd h2, hd h3, ht, hl, hc⟩
  · simp at h

end Sys2Proof.Machine
end

