-- ==== Sys2Proof/Laws/Exec.lean ====
section
/-! SUPPORT. What a completion step can do, said once: `exec_spec`. Invariants and frames follow from it without
unfolding a command. -/

namespace Sys2Proof.Machine

/-- The destinations a successful command writes (30_encoding R60): `t` is the state with them written. -/
def Effect (i : Instr) (s t : State) : Prop :=
  match i with
  | .nop => t = s
  | .alphaLoad => s.inputTable.Valid ∧ t = { s with customTable := s.inputTable, customValid := true }
  | .b32Encode _ => ∃ v : List Byte, v.length ≤ s.cfg.outCap ∧ t = s.putOut v
  | .b32Decode _ => ∃ v : List Byte, v.length ≤ s.cfg.outCap ∧ t = s.putOut v
  | .envSerialize => ∃ v : List Byte, v.length ≤ s.cfg.outCap ∧ t = s.putOut v
  | .envParse => ∃ f : Fields, f.salt.length ≤ s.cfg.saltCap ∧ f.ct.length ≤ s.cfg.ctCap ∧ t = s.putFields f
  | .envEncrypt => ∃ v : List Byte, v.length ≤ s.cfg.outCap ∧ t = s.putOut v
  | .envDecrypt => ∃ v : List Byte, v.length ≤ s.cfg.outCap ∧ t = s.putOut v
  | .softReset => t = s.resetRegs

/-- A result is an error with a code, or a written state that satisfies `P`. -/
def Ends (P : State → Prop) : Except Raise State → Prop
  | .error e => e.code ≠ .noError
  | .ok t => P t

theorem outResult_ends (s : State) (v : List Byte) :
    Ends (fun t => ∃ v : List Byte, v.length ≤ s.cfg.outCap ∧ t = s.putOut v) (outResult s v) := by
  unfold outResult
  split
  · simp [Ends, capacityExceeded]
  · exact ⟨v, by omega, rfl⟩

theorem alphaLoadResult_ends (s : State) : Ends (Effect .alphaLoad s) (alphaLoadResult s) := by
  unfold alphaLoadResult
  split
  · simp [Ends, alphabetLength]
  · split
    · simp [Ends, alphabetDuplicate]
    · exact ⟨firstDuplicate_eq_none_iff.1 ‹_›, rfl⟩

theorem b32EncodeResult_ends (s : State) (id : AlphaId) (a : BitVec 3) :
    Ends (Effect (.b32Encode a) s) (b32EncodeResult s id) := by
  unfold b32EncodeResult
  split
  · simp [Ends, alphabetNotLoaded]
  · split
    · simp [Ends, invalidArgument]
    · exact outResult_ends s _

theorem b32DecodeResult_ends (s : State) (id : AlphaId) (a : BitVec 3) :
    Ends (Effect (.b32Decode a) s) (b32DecodeResult s id) := by
  unfold b32DecodeResult
  split
  · simp [Ends, alphabetNotLoaded]
  · split
    · simp [Ends, invalidArgument]
    · split
      · simp [Ends, invalidSymbol]
      · exact outResult_ends s _

theorem envSerializeResult_ends (s : State) : Ends (Effect .envSerialize s) (envSerializeResult s) := by
  unfold envSerializeResult
  split
  · simp [Ends, invalidArgument]
  · split
    · simp [Ends, invalidArgument]
    · split
      · simp [Ends, invalidArgument]
      · split
        · rename_i e he; simp [Ends, tagError_code he]
        · exact outResult_ends s _

theorem envParseResult_ends (s : State) : Ends (Effect .envParse s) (envParseResult s) := by
  unfold envParseResult
  split
  · simp [Ends, invalidArgument]
  · split
    · exact parse_error_code ‹_›
    · rename_i f hf
      obtain ⟨_, _, _, _, _, _, _, _, _, _, _, _, hl, hc⟩ := parse_ok hf
      exact ⟨f, hl, hc, rfl⟩

theorem sealEnvelope_ends (ip : ExtIP) (s : State) : Ends (Effect .envEncrypt s) (sealEnvelope ip s) := by
  unfold sealEnvelope
  split
  · simp [Ends, rngFailed]
  · split
    · simp [Ends, kdfFailed]
    · split
      · simp [Ends, cipherFailed]
      · split
        · simp [Ends, capacityExceeded]
        · exact outResult_ends s _

theorem envEncryptResult_ends (ip : ExtIP) (s : State) : Ends (Effect .envEncrypt s) (envEncryptResult ip s) := by
  unfold envEncryptResult
  split
  · simp [Ends, invalidArgument]
  · split
    · simp [Ends, invalidArgument]
    · split
      · simp [Ends, invalidArgument]
      · split
        · simp [Ends, invalidArgument]
        · split
          · rename_i e he; simp [Ends, tagError_code he]
          · exact sealEnvelope_ends ip s

theorem openEnvelope_ends (ip : ExtIP) (s : State) (f : Fields) :
    Ends (Effect .envDecrypt s) (openEnvelope ip s f) := by
  unfold openEnvelope
  split
  · simp [Ends, kdfFailed]
  · split
    · simp [Ends, decryptionFailed]
    · exact outResult_ends s _

theorem envDecryptResult_ends (ip : ExtIP) (s : State) : Ends (Effect .envDecrypt s) (envDecryptResult ip s) := by
  unfold envDecryptResult
  split
  · simp [Ends, invalidArgument]
  · split
    · simp [Ends, invalidArgument]
    · split
      · exact parse_error_code ‹_›
      · exact openEnvelope_ends ip s _

/-- No command's effect moves the draw counter. -/
theorem Effect.rngDraw {i : Instr} {s t : State} (h : Effect i s t) : t.rngDraw = s.rngDraw := by
  cases i
  case nop | softReset => subst h; rfl
  case alphaLoad => obtain ⟨-, rfl⟩ := h; rfl
  case envParse => obtain ⟨f, -, -, rfl⟩ := h; rfl
  all_goals obtain ⟨v, -, rfl⟩ := h; rfl

/-- What a completion step can do: it ends in a next state, by an error that leaves all destinations alone or by the
command's effect. Only the model's draw counter may move besides. -/
theorem exec_spec (i : Instr) (s : State) :
    ∃ r : Except Raise State, Ends (Effect i s) r ∧
      exec i s = .next { s.finish i.opcode r with
        rngDraw := if i = .envEncrypt then s.rngDraw + 1 else s.rngDraw } := by
  have close : ∀ r, i ≠ .envEncrypt → Ends (Effect i s) r → exec i s = .next (s.finish i.opcode r) →
      exec i s = .next { s.finish i.opcode r with
        rngDraw := if i = .envEncrypt then s.rngDraw + 1 else s.rngDraw } := by
    intro r hi hr he
    rw [he, if_neg hi]
    cases r with
    | error e => rfl
    | ok t => simp only [← Effect.rngDraw hr]; rfl
  cases i with
  | nop => exact ⟨.ok s, rfl, close _ nofun rfl rfl⟩
  | alphaLoad => exact ⟨_, alphaLoadResult_ends s, close _ nofun (alphaLoadResult_ends s) rfl⟩
  | b32Encode a =>
    have h : Ends (Effect (.b32Encode a) s) (match alphaOfAsel a with
        | none => .error (illegalCommand (encode (.b32Encode a)))
        | some id => b32EncodeResult s id) := by
      split
      · simp [Ends, illegalCommand]
      · exact b32EncodeResult_ends s _ a
    exact ⟨_, h, close _ nofun h rfl⟩
  | b32Decode a =>
    have h : Ends (Effect (.b32Decode a) s) (match alphaOfAsel a with
        | none => .error (illegalCommand (encode (.b32Decode a)))
        | some id => b32DecodeResult s id) := by
      split
      · simp [Ends, illegalCommand]
      · exact b32DecodeResult_ends s _ a
    exact ⟨_, h, close _ nofun h rfl⟩
  | envSerialize => exact ⟨_, envSerializeResult_ends s, close _ nofun (envSerializeResult_ends s) rfl⟩
  | envParse => exact ⟨_, envParseResult_ends s, close _ nofun (envParseResult_ends s) rfl⟩
  | envEncrypt => exact ⟨_, envEncryptResult_ends Config.ip s, rfl⟩
  | envDecrypt => exact ⟨_, envDecryptResult_ends Config.ip s, close _ nofun (envDecryptResult_ends Config.ip s) rfl⟩
  | softReset => exact ⟨.ok s.resetRegs, rfl, close _ nofun rfl rfl⟩

end Sys2Proof.Machine
end

