-- ==== Sys2Proof/Laws/Bus.lean ====
section
/-! SUPPORT. What a bus access can do, said once: `State.write_cases` and `State.access_cases`. -/

namespace Sys2Proof.Machine

theorem State.busy_iff {s : State} : s.busy = true ↔ s.phase ≠ .idle := by
  unfold State.busy; split <;> simp_all

/-- What a write that gets no bus error can do to the block (20_memory R52, 70_reset R134). -/
theorem State.write_cases (s : State) (w : Width) (off : Nat) (v : Word) :
    s.write w off v = s ∨ s.write w off v = s.writeStatus v ∨ s.write w off v = { s with doneIe := v.getLsbD 0 } ∨
      (s.busy = true ∧ s.write w off v = { s with werr := true }) ∨
      (s.busy = false ∧ (s.write w off v = s.issue v ∨
        (∃ il pl sl cl it ht sg, s.write w off v = { s with
          inLen := il, pwLen := pl, saltLen := sl, ctLen := cl, iter := it, halgTag := ht, saltgenLen := sg }) ∨
        ∃ b i n, hostWritable b = true ∧
          s.write w off v = { s with mem := writeLanes s.mem b.base (b.cap s.cfg) i v n })) := by
  have hu : ∀ t, (s.busy = true ∧ s.unlessBusy t = { s with werr := true }) ∨
      (s.busy = false ∧ s.unlessBusy t = t) := by
    intro t
    unfold State.unlessBusy
    cases s.busy <;> simp
  unfold State.write
  split
  · exact .inl rfl
  · split
    · rename_i r _
      cases r <;> simp only [State.writeReg, true_or, or_true]
      case cmd =>
        rcases hu (s.issue v) with ⟨hb, h⟩ | ⟨hb, h⟩
        · exact .inr (.inr (.inr (.inl ⟨hb, h⟩)))
        · exact .inr (.inr (.inr (.inr ⟨hb, .inl h⟩)))
      all_goals
        rename_i r _
        refine .inr (.inr (.inr ?_))
        rcases hu _ with ⟨hb, h⟩ | ⟨hb, h⟩
        · exact .inl ⟨hb, h⟩
        · exact .inr ⟨hb, .inr (.inl ⟨_, _, _, _, _, _, _, h⟩)⟩
    · exact .inl rfl
  · exact .inl rfl
  · exact .inl rfl
  · rename_i b _
    unfold State.writeAperture
    split
    · rename_i hc
      rw [Bool.and_eq_true] at hc
      refine .inr (.inr (.inr ?_))
      rcases hu { s with mem := writeLanes s.mem b.base (b.cap s.cfg) (off - b.base) v (widthBytes w) } with
        ⟨hb, h⟩ | ⟨hb, h⟩
      · exact .inl ⟨hb, h⟩
      · exact .inr ⟨hb, .inr (.inr ⟨b, _, _, hc.1, h⟩)⟩
    · exact .inl rfl

/-- What an access can do: an error response and nothing else (20_memory R47), a read and nothing else (R52), or a
write. -/
theorem State.access_cases (s : State) (a : Access) :
    ((s.rst = true ∨ accessOk a.width a.off = false) ∧ s.access a = (s, { error := true, data := 0 })) ∨
      (s.rst = false ∧ accessOk a.width a.off = true ∧
        ((∃ w off, a = .read w off ∧ s.access a = (s, { error := false, data := s.read w off })) ∨
          ∃ w off v, a = .write w off v ∧ s.access a = (s.write w off v, { error := false, data := 0 }))) := by
  unfold State.access
  cases hr : s.rst <;> cases ho : accessOk a.width a.off <;> simp
  cases a <;> simp

end Sys2Proof.Machine
end

