-- ==== Sys2Proof/Laws/Decode.lean ====
section
/-! SUPPORT. Laws of the decoder: a word is its three fields, and what a word that decodes looks like. -/

namespace Sys2Proof

/-- A word is its three fields (30_encoding R59). -/
theorem word_eq_fields (w : Word) : w = rsvdField w ++ aselField w ++ opField w := by
  apply BitVec.eq_of_getLsbD_eq
  intro i hi
  rw [BitVec.getLsbD_append, BitVec.getLsbD_append]
  by_cases h0 : i < 8
  · simp [h0, opField]
  · by_cases h1 : i - 8 < 3
    · simp only [h0, h1, if_false, if_true, aselField, BitVec.getLsbD_extractLsb', decide_true, Bool.true_and]
      congr 1; omega
    · have h2 : i - 8 - 3 < 21 := by omega
      simp only [h0, h1, h2, if_false, rsvdField, BitVec.getLsbD_extractLsb', decide_true, Bool.true_and]
      congr 1; omega

@[simp] theorem opField_encode (i : Instr) : opField (encode i) = i.opcode := by
  cases i with
  | b32Encode a => revert a; decide
  | b32Decode a => revert a; decide
  | _ => decide

@[simp] theorem aselField_encode (i : Instr) : aselField (encode i) = i.asel := by
  cases i with
  | b32Encode a => revert a; decide
  | b32Decode a => revert a; decide
  | _ => decide

@[simp] theorem rsvdField_encode (i : Instr) : rsvdField (encode i) = 0 := by
  cases i with
  | b32Encode a => revert a; decide
  | b32Decode a => revert a; decide
  | _ => decide

/-- What the opcode map gives (R61). -/
theorem decodeFields_ok_iff (op : Byte) (asel : BitVec 3) (i : Instr) :
    decodeFields op asel = .ok i ↔ op = i.opcode ∧ asel = i.asel ∧ i.WellFormed := by
  cases i with
  | b32Encode a => revert op asel a; decide +kernel
  | b32Decode a => revert op asel a; decide +kernel
  | _ => revert op asel; decide +kernel

/-- A word decodes to `i` exactly when its fields are those of `i` (R62, R64). -/
theorem decode_ok_iff (w : Word) (i : Instr) :
    decode w = .ok i ↔ rsvdField w = 0 ∧ opField w = i.opcode ∧ aselField w = i.asel ∧ i.WellFormed := by
  unfold decode
  by_cases h : rsvdField w = 0
  · simp [h, decodeFields_ok_iff]
  · rw [if_pos h]
    exact ⟨nofun, fun hw => absurd hw.1 h⟩

end Sys2Proof
end

