-- ==== Sys2Proof/Laws/PerInstr.lean ====
section
/-! SUPPORT. Laws of every command, one lemma per constructor: `EncodedFields`, the fields of a command's word
(30_encoding R59, R61). -/

namespace Sys2Proof.Laws

/-- The word of a command has its opcode in w[7:0], its ASEL in w[10:8] and zeros above (R59). -/
def EncodedFields.Statement (i : Instr) : Prop :=
  (encode i).extractLsb' 0 8 = i.opcode ∧ (encode i).extractLsb' 8 3 = i.asel ∧ (encode i).extractLsb' 11 21 = 0

theorem EncodedFields.all (i : Instr) : EncodedFields.Statement i :=
  ⟨opField_encode i, aselField_encode i, rsvdField_encode i⟩

theorem EncodedFields.nop : EncodedFields.Statement .nop := EncodedFields.all _

theorem EncodedFields.alphaLoad : EncodedFields.Statement .alphaLoad := EncodedFields.all _

theorem EncodedFields.b32Encode (asel : BitVec 3) : EncodedFields.Statement (.b32Encode asel) := EncodedFields.all _

theorem EncodedFields.b32Decode (asel : BitVec 3) : EncodedFields.Statement (.b32Decode asel) := EncodedFields.all _

theorem EncodedFields.envSerialize : EncodedFields.Statement .envSerialize := EncodedFields.all _

theorem EncodedFields.envParse : EncodedFields.Statement .envParse := EncodedFields.all _

theorem EncodedFields.envEncrypt : EncodedFields.Statement .envEncrypt := EncodedFields.all _

theorem EncodedFields.envDecrypt : EncodedFields.Statement .envDecrypt := EncodedFields.all _

theorem EncodedFields.softReset : EncodedFields.Statement .softReset := EncodedFields.all _

end Sys2Proof.Laws
end

