-- ==== Sys2Proof/Laws/Step.lean ====
section
/-! SUPPORT. What one step can do, said once: `step_cases`. -/

namespace Sys2Proof.Machine

/-- A host turn that goes on: the host had no statement left, or its access got no error response and then the host's
bookkeeping changed. -/
theorem State.hostTurn_cases {s t : State} (h : s.hostTurn = .next t) :
    t = s ∨ ∃ a, (s.access a).2.error = false ∧ t = { (s.access a).1 with readData := t.readData, hpc := t.hpc } := by
  have key : ∀ (a : Access) (after : State → Word → State),
      s.hostAccess a after = .next t →
        (s.access a).2.error = false ∧ t = after (s.access a).1 (s.access a).2.data := by
    intro a after ha
    unfold State.hostAccess at ha
    split at ha
    · simp at ha
    · rename_i he
      simp only [Host.Outcome.next.injEq] at ha
      exact ⟨by simpa using he, ha.symm⟩
  unfold State.hostTurn at h
  split at h
  · simp only [Host.Outcome.next.injEq] at h
    exact .inl h.symm
  · obtain ⟨he, rfl⟩ := key _ _ h
    exact .inr ⟨_, he, rfl⟩
  · obtain ⟨he, rfl⟩ := key _ _ h
    exact .inr ⟨_, he, rfl⟩
  · obtain ⟨he, rfl⟩ := key _ _ h
    exact .inr ⟨_, he, rfl⟩

/-- The step of an issued word (R117): the command it decodes to, or ILLEGAL_COMMAND. -/
theorem State.completeWord_cases (s : State) (w : Word) :
    (∃ i, decode w = .ok i ∧ s.completeWord w = exec i s) ∨
      ((∀ i, decode w ≠ .ok i) ∧ s.completeWord w = .next (s.raise (opField w) (illegalCommand w))) := by
  unfold State.completeWord
  split
  · exact .inl ⟨_, ‹_›, rfl⟩
  · rename_i e he
    exact .inr ⟨by simp [he], rfl⟩

/-- What one step can do: nothing but take a turn, a host access, a completion step, or a move of the reset input. -/
theorem step_cases {s t : State} (h : step s = .next t) :
    t = s.popTurn ∨
      (∃ a, (s.popTurn.access a).2.error = false ∧
        t = { (s.popTurn.access a).1 with readData := t.readData, hpc := t.hpc }) ∨
      (∃ w, s.phase = .busy w ∧ s.rst = false ∧ s.popTurn.completeWord w = .next t) ∨
      t = s.popTurn.assertRst ∨ t = s.popTurn.deassertRst := by
  unfold step State.turnStep at h
  split at h
  · exact (State.hostTurn_cases h).imp_right .inl
  · unfold State.sequencerTurn at h
    split at h
    · simp only [Host.Outcome.next.injEq] at h
      exact .inl h.symm
    · rename_i w hw
      split at h
      · simp only [Host.Outcome.next.injEq] at h
        exact .inl h.symm
      · rename_i hr
        exact .inr (.inr (.inl ⟨w, hw, by simpa using hr, h⟩))
  · simp only [Host.Outcome.next.injEq] at h
    exact .inr (.inr (.inr (.inl h.symm)))
  · simp only [Host.Outcome.next.injEq] at h
    exact .inr (.inr (.inr (.inr h.symm)))

end Sys2Proof.Machine
end

