-- ==== Sys2Proof/Tests/Slice0.lean ====
section
/-! SUPPORT. The model's own tests. Expected results are those of spec/95_test_vectors.md, whose row stands in each
docstring; the external IP is its test configuration T. The theorems `test_witness_X` show values that meet the hypotheses of
the obligation X, clause by clause. -/

open Sys2Proof Sys2Proof.Machine

namespace Sys2Proof.Tests

set_option Elab.async false

/-! ### Helpers -/

/-- The state an instruction ends in. -/
def after (i : Instr) (s : State) : State :=
  match exec i s with
  | .next t => t
  | .fault _ => s
  | .refused _ => s

/-- The state after reset with `b` in IN_BUF and IN_LEN its length. -/
def withInput (b : List Byte) : State :=
  { State.reset with mem := Memory.writeList [] 0x10000 b, inLen := BitVec.ofNat 32 b.length }

def outBytes (s : State) : List Byte := s.readBuf .outBuf s.outLen.toNat

/-- STATUS, ERRINFO and ERRPOS. -/
def ending (s : State) : Word × Word × Word := (s.status, s.errInfo.word, s.errPos)

/-- "Hello". -/
def hello : List Byte := [0x48, 0x65, 0x6C, 0x6C, 0x6F]

/-! ### Test configuration T (95_test_vectors 0.1) -/

def rngT (_ n : Nat) : Option (Bytes n) := some ⟨(List.range n).map (BitVec.ofNat 8), by simp⟩

def kdfT (pw salt : List Byte) (it : Word) (t : Byte) : Option (Bytes 48) :=
  if it = 0 then none
  else some ⟨(List.range 48).map fun i =>
    BitVec.ofNat 8 (((pw ++ salt).map fun b => b.toNat).sum + it.toNat + t.toNat + i), by simp⟩

def xorIv (iv : Bytes 16) (x : List Byte) : List Byte := x.mapIdx fun i b => b ^^^ iv.1.getD (i % 16) 0

def encT (_ : Bytes 32) (iv : Bytes 16) (pt : List Byte) : Option (List Byte) :=
  some (xorIv iv (pt ++ List.replicate (16 - pt.length % 16) (BitVec.ofNat 8 (16 - pt.length % 16))))

/-- The padding check of T on `x`, the bytes under the XOR. -/
def unpadT (x : List Byte) : Option (List Byte) :=
  let n := (x.getD (x.length - 1) 0).toNat
  if 1 ≤ n ∧ n ≤ 16 ∧ (x.drop (x.length - n)).all (fun b => b.toNat == n) then some (x.take (x.length - n)) else none

def decT (_ : Bytes 32) (iv : Bytes 16) (ct : List Byte) : Option (List Byte) :=
  if ct.length = 0 ∨ ct.length % 16 ≠ 0 then none else unpadT (xorIv iv ct)

def ipT : ExtIP where
  rng := rngT
  kdf := kdfT
  cipherEnc := encT
  cipherDec := decT

theorem xorIv_xorIv (iv : Bytes 16) (x : List Byte) : xorIv iv (xorIv iv x) = x := by
  apply List.ext_getElem <;> simp [xorIv]

theorem unpadT_pad (x : List Byte) (n : Nat) (h1 : 1 ≤ n) (h2 : n ≤ 16) :
    unpadT (x ++ List.replicate n (BitVec.ofNat 8 n)) = some x := by
  have hn : ((x ++ List.replicate n (BitVec.ofNat 8 n)).getD
      ((x ++ List.replicate n (BitVec.ofNat 8 n)).length - 1) 0).toNat = n := by
    rw [List.getD_eq_getElem _ _ (by simp; omega), List.getElem_append_right (by simp; omega)]
    simp; omega
  have hd : (x ++ List.replicate n (BitVec.ofNat 8 n)).length - n = x.length := by simp
  simp only [unpadT, hn, hd]
  simp [h1, h2, Nat.mod_eq_of_lt (show n < 256 by omega)]

/-- T's cipher inverts (95_test_vectors 0.1). -/
theorem test_ipT_cipherInverse : ipT.CipherInverse := by
  intro key iv pt ct h
  simp only [ipT, encT, Option.some.injEq] at h
  subst h
  have hl : (xorIv iv (pt ++ List.replicate (16 - pt.length % 16) (BitVec.ofNat 8 (16 - pt.length % 16)))).length =
      pt.length + (16 - pt.length % 16) := by simp [xorIv]
  simp only [ipT, decT, hl, xorIv_xorIv]
  rw [if_neg (by omega)]
  exact unpadT_pad _ _ (by omega) (by omega)

/-! ### WellFormed -/

/-- ASEL 0 to 3 is well formed. -/
theorem test_wellFormed_accepts_asel : ∀ a : BitVec 3, a.toNat ≤ 3 →
    (Instr.b32Encode a).WellFormed ∧ (Instr.b32Decode a).WellFormed := by decide

/-- ASEL 4 to 7 is ill formed (30_encoding R62). -/
theorem test_wellFormed_refuses_b32Encode : ∀ a : BitVec 3, 4 ≤ a.toNat → ¬ (Instr.b32Encode a).WellFormed := by decide

theorem test_wellFormed_refuses_b32Decode : ∀ a : BitVec 3, 4 ≤ a.toNat → ¬ (Instr.b32Decode a).WellFormed := by decide

/-! ### Decode: words written out from the table of 30_encoding R61 -/

theorem test_decode_nop : decode 0b000000000000000000000_000_00000000 = .ok .nop := by decide

theorem test_decode_alphaLoad : decode 0b000000000000000000000_000_00000001 = .ok .alphaLoad := by decide

theorem test_decode_b32Encode : decode 0b000000000000000000000_010_00000010 = .ok (.b32Encode 2) := by decide

theorem test_decode_b32Decode : decode 0b000000000000000000000_011_00000011 = .ok (.b32Decode 3) := by decide

theorem test_decode_envSerialize : decode 0b000000000000000000000_000_00010000 = .ok .envSerialize := by decide

theorem test_decode_envParse : decode 0b000000000000000000000_000_00010001 = .ok .envParse := by decide

theorem test_decode_envEncrypt : decode 0b000000000000000000000_000_00100000 = .ok .envEncrypt := by decide

theorem test_decode_envDecrypt : decode 0b000000000000000000000_000_00100001 = .ok .envDecrypt := by decide

theorem test_decode_softReset : decode 0b000000000000000000000_000_11111111 = .ok .softReset := by decide

/-- K-3 to K-11: no legal words. -/
theorem test_decode_rejects :
    decode 0x00000004 = .error .reservedOpcode ∧ decode 0x00000012 = .error .reservedOpcode ∧
    decode 0x00000022 = .error .reservedOpcode ∧ decode 0x000000FE = .error .reservedOpcode ∧
    decode 0x00000402 = .error .badAsel ∧ decode 0x80000002 = .error .reservedBits ∧
    decode 0x00000800 = .error .reservedBits ∧ decode 0x000001FF = .error .badAsel ∧
    decode 0x00000110 = .error .badAsel := by decide

/-! ### The commands -/

/-- K-1: NOP clears the error of an earlier command. -/
theorem test_nop_clears_error :
    (after .nop { State.reset with errCode := .invalidSymbol, errPos := 7 }).status = 0x00000002 := by decide

/-- The table of 95_test_vectors 2.4: RFC4648 reversed. -/
def reversedTable : List Byte :=
  [0x37, 0x36, 0x35, 0x34, 0x33, 0x32, 0x5A, 0x59, 0x58, 0x57, 0x56, 0x55, 0x54, 0x53, 0x52, 0x51] ++
    [0x50, 0x4F, 0x4E, 0x4D, 0x4C, 0x4B, 0x4A, 0x49, 0x48, 0x47, 0x46, 0x45, 0x44, 0x43, 0x42, 0x41]

/-- "ABCDEFGHIJKLMNOPQRSTUVWXYZ23456A", of A-6. -/
def duplicateTable : List Byte := rfc4648Table.syms.take 31 ++ [0x41]

/-- A-1 and A-2: load, then encode with the custom table. -/
theorem test_alphaLoad_then_custom_encode :
    ending (after .alphaLoad (withInput reversedTable)) = (0x00010002, 0, 0) ∧
    outBytes (after (.b32Encode 3) { withInput hello with
      customTable := (after .alphaLoad (withInput reversedTable)).customTable, customValid := true }) =
        [0x57, 0x36, 0x4E, 0x4A, 0x48, 0x45, 0x34, 0x51] := by decide +kernel

/-- A-6. -/
theorem test_alphaLoad_duplicate :
    ending (after .alphaLoad (withInput duplicateTable)) = (0x00010506, 0x00020041, 31) := by decide +kernel

/-- W2: "91JPRV3F", "JBSWY3DP" and "F3Wgjq5Q". -/
theorem test_b32Encode_hello :
    outBytes (after (.b32Encode 1) (withInput hello)) = [0x39, 0x31, 0x4A, 0x50, 0x52, 0x56, 0x33, 0x46] ∧
    outBytes (after (.b32Encode 0) (withInput hello)) = [0x4A, 0x42, 0x53, 0x57, 0x59, 0x33, 0x44, 0x50] ∧
    outBytes (after (.b32Encode 2) (withInput hello)) = [0x46, 0x33, 0x57, 0x67, 0x6A, 0x71, 0x35, 0x51] := by
  decide +kernel

/-- W3: "9u". -/
theorem test_b32Decode_lower_case :
    ending (after (.b32Decode 1) (withInput [0x39, 0x75])) = (0x00030106, 0x00000175, 1) := by decide +kernel

/-- 95_test_vectors 2.3, "F3WGJQ5Q" under WORDSAFE, and 2.2, "ZZ" under CROCKFORD. -/
theorem test_b32Decode_wrong_case_and_noncanonical :
    outBytes (after (.b32Decode 2) (withInput [0x46, 0x33, 0x57, 0x47, 0x4A, 0x51, 0x35, 0x51])) =
      [0x48, 0x64, 0xA6, 0x3C, 0x6F] ∧
    outBytes (after (.b32Decode 1) (withInput [0x5A, 0x5A])) = [0xFF] := by decide +kernel

/-- "04106105UM2302U04UZZZZZZZZ", of S-1 and P-1. -/
def envelopeS1 : List Byte :=
  [0x30, 0x34, 0x31, 0x30, 0x36, 0x31, 0x30, 0x35, 0x55, 0x4D, 0x32, 0x33, 0x30, 0x32, 0x55, 0x30, 0x34, 0x55] ++
    [0x5A, 0x5A, 0x5A, 0x5A, 0x5A, 0x5A, 0x5A, 0x5A]

/-- The inputs of S-1. -/
def serializeS1 : State :=
  { State.reset with
    mem := Memory.writeList (Memory.writeList [] 0x40000 [1, 2, 3, 4, 5]) 0x50000 [0xFF, 0xFF, 0xFF, 0xFF, 0xFF],
    saltLen := 5, ctLen := 5, iter := 100000, halgTag := 1 }

/-- S-1. -/
theorem test_envSerialize :
    ending (after .envSerialize serializeS1) = (0x00100002, 0, 0) ∧
    outBytes (after .envSerialize serializeS1) = envelopeS1 := by decide +kernel

/-- S-11: SUB 3 is checked first. -/
theorem test_envSerialize_check_order :
    ending (after .envSerialize { State.reset with saltLen := 257, iter := 0x80000000, halgTag := 7 }) =
      (0x00100906, 0x00030000, 0x101) := by decide +kernel

/-- P-1. -/
theorem test_envParse :
    let t := after .envParse (withInput envelopeS1)
    ending t = (0x00110002, 0, 0) ∧ t.salt = [1, 2, 3, 4, 5] ∧ t.iter = 0x000186A0 ∧ t.halgTag = 1 ∧
      t.ciphertext = [0xFF, 0xFF, 0xFF, 0xFF, 0xFF] := by decide +kernel

/-- P-22: "U00000000U04U*". -/
theorem test_envParse_symbol_before_length :
    (after .envParse (withInput [0x55, 0x30, 0x30, 0x30, 0x30, 0x30, 0x30, 0x30, 0x30, 0x55, 0x30, 0x34, 0x55,
      0x2A])).errInfo.word = 0x0002312A ∧
    (after .envParse (withInput [0x55, 0x30, 0x30, 0x30, 0x30, 0x30, 0x30, 0x30, 0x30, 0x55, 0x30, 0x34, 0x55,
      0x2A])).errPos = 13 := by decide +kernel

/-- The inputs of X-1. -/
def encryptX1 : State :=
  { withInput hello with
    mem := Memory.writeList (Memory.writeList [] 0x10000 hello) 0x30000 [0x70, 0x77],
    pwLen := 2, saltgenLen := 16, iter := 100000, halgTag := 1 }

/-- X-1's string, "000G40R40M30E209185GR38E1WUM2302U04UD124WKTB5RPJR8S244G2E9H54G". -/
def envelopeX1 : List Byte :=
  [0x30, 0x30, 0x30, 0x47, 0x34, 0x30, 0x52, 0x34, 0x30, 0x4D, 0x33, 0x30, 0x45, 0x32, 0x30, 0x39, 0x31, 0x38] ++
  [0x35, 0x47, 0x52, 0x33, 0x38, 0x45, 0x31, 0x57, 0x55, 0x4D, 0x32, 0x33, 0x30, 0x32, 0x55, 0x30, 0x34, 0x55] ++
  [0x44, 0x31, 0x32, 0x34, 0x57, 0x4B, 0x54, 0x42, 0x35, 0x52, 0x50, 0x4A, 0x52, 0x38, 0x53, 0x32, 0x34, 0x34] ++
  [0x47, 0x32, 0x45, 0x39, 0x48, 0x35, 0x34, 0x47]

/-- The inputs of X-2, with a password. -/
def decryptX1 (pw : List Byte) : State :=
  { withInput envelopeX1 with
    mem := Memory.writeList (Memory.writeList [] 0x10000 envelopeX1) 0x30000 pw, pwLen := BitVec.ofNat 32 pw.length }

/-- X-1. -/
theorem test_envEncrypt :
    ending (envEncryptWith ipT encryptX1) = (0x00200002, 0, 0) ∧
    outBytes (envEncryptWith ipT encryptX1) = envelopeX1 := by decide +kernel

/-- X-5 and X-8. -/
theorem test_envEncrypt_errors :
    ending (envEncryptWith ipT { encryptX1 with iter := 0 }) = (0x00200A06, 0, 0) ∧
    ending (envEncryptWith ipT { encryptX1 with saltgenLen := 257 }) = (0x00200906, 0x00050000, 0x101) := by
  decide +kernel

/-- X-2 and X-4, passwords "pw" and "a~". -/
theorem test_envDecrypt :
    ending (envDecryptWith ipT (decryptX1 [0x70, 0x77])) = (0x00210002, 0, 0) ∧
    outBytes (envDecryptWith ipT (decryptX1 [0x70, 0x77])) = hello ∧
    outBytes (envDecryptWith ipT (decryptX1 [0x61, 0x7E])) =
      [0x70, 0x5D, 0x54, 0x54, 0x57, 0x33, 0x33, 0x33, 0x03, 0x03, 0x03, 0x03, 0x03] := by decide +kernel

/-- X-3, password "px". -/
theorem test_envDecrypt_fails :
    ending (envDecryptWith ipT (decryptX1 [0x70, 0x78])) = (0x00210406, 0, 0) := by decide +kernel

/-- 95_test_vectors 4.1: SOFT_RESET. -/
theorem test_softReset :
    let t := after .softReset { withInput [0x37, 0x36, 0x35, 0x34] with werr := true, doneIe := true, customValid := true }
    t.status = 0x00FF0002 ∧ t.irq = false ∧ t.inLen = 0 ∧ t.customValid = false ∧
      t.readBuf .inBuf 4 = [0x37, 0x36, 0x35, 0x34] := by decide +kernel

/-- What the completion step of a word leaves in STATUS and ERRPOS. -/
def wordEnding (w : Word) : Word × Word :=
  match State.reset.completeWord w with
  | .next t => (t.status, t.errPos)
  | .fault _ => (0, 0)
  | .refused _ => (0, 0)

/-- K-3, K-7, K-8, K-9, K-10. -/
theorem test_illegal_words :
    wordEnding 0x00000004 = (0x00040606, 0x4) ∧ wordEnding 0x00000402 = (0x00020606, 0x402) ∧
    wordEnding 0x80000002 = (0x00020606, 0x80000002) ∧ wordEnding 0x00000800 = (0x00000606, 0x800) ∧
    wordEnding 0x000001FF = (0x00FF0606, 0x1FF) := by decide

/-! ### Fields -/

/-- 95_test_vectors 3.1. -/
theorem test_iterPack :
    iterPack 0 = [0x00] ∧ iterPack 255 = [0xFF] ∧ iterPack 256 = [0x00, 0x01] ∧ iterPack 1000 = [0xE8, 0x03] ∧
    iterPack 65536 = [0x00, 0x00, 0x01] ∧ iterPack 16777216 = [0x00, 0x00, 0x00, 0x01] ∧
    iterPack 0x7FFFFFFF = [0xFF, 0xFF, 0xFF, 0x7F] := by decide

/-! ### The bus -/

/-- M-1, M-7 to M-10, M-13, M-14. -/
theorem test_bus_reads :
    State.reset.read .w32 0x000 = 0x42333201 ∧ State.reset.read .w32 0x120 = 0x33323130 ∧
    State.reset.read .w8 0x114 = 0x55 ∧ State.reset.read .w8 0x134 = 0x4D ∧ State.reset.read .w32 0x054 = 0 ∧
    State.reset.read .w32 0x180 = 0 ∧ State.reset.read .w32 0x004 = 0 ∧ State.reset.read .w32 0x040 = 4096 ∧
    State.reset.read .w32 0x048 = 256 ∧ State.reset.read .w32 0x03C = 1 ∧
    State.reset.read .w8 0x11000 = 0 := by decide +kernel

/-- M-2, M-3, and an access while rst is asserted (70_reset R130). -/
theorem test_bus_errors :
    (State.reset.access (.read .w16 0x000)).2 = { error := true, data := 0 } ∧
    (State.reset.access (.read .w32 0x10002)).2 = { error := true, data := 0 } ∧
    ({ State.reset with rst := true }.access (.read .w32 0x008)).2 = { error := true, data := 0 } := by decide

/-- M-5 and M-6. -/
theorem test_bus_lanes :
    (State.reset.write .w32 0x10000 0x6C6C6548).read .w8 0x10000 = 0x48 ∧
    (State.reset.write .w32 0x10000 0x6C6C6548).read .w8 0x10003 = 0x6C ∧
    (State.reset.write .w8 0x30000 0x70).read .w8 0x30000 = 0 := by decide +kernel

/-- H-1 (b) and H-2: writes that find a command in flight. -/
theorem test_busy_writes :
    { State.reset with phase := .busy 0x102 }.write .w32 0x018 8 =
      { State.reset with phase := .busy 0x102, werr := true } ∧
    { State.reset with phase := .busy 0x102 }.write .w32 0x004 0 =
      { State.reset with phase := .busy 0x102, werr := true } := by decide +kernel

/-- 30_encoding R68: `setlen IN_LEN, 5` and `run b32.enc crockford` are the bus writes of P1 and its poll. -/
theorem test_assemble :
    assembleFrom 0 [.setlen .inLen 5, .run (.b32Encode 1)] =
      [.st .w32 0x18 5, .st .w32 0x4 0x102, .bnz32 0x8 1 2] := by decide

/-! ### Witnesses: values that meet the hypotheses of the obligations -/

/-- The reference configuration with other capacities, and SHA-3 absent. -/
def smallParams (out ct : Nat) (ho : 1 ≤ out ∧ out ≤ 65536) (hc : 1 ≤ ct ∧ ct ≤ 65536) : Params :=
  { referenceParams with outCap := out, ctCap := ct, sha3 := false, outCap_legal := ho, ctCap_legal := hc }

/-- A block with word `w` in flight. -/
def inFlight (w : Word) : State := { State.reset with phase := .busy w }

theorem test_witness_DecodeInvertsEncode : (Instr.b32Encode 3).WellFormed ∧ (Instr.b32Decode 0).WellFormed := by decide

theorem test_witness_EncodeInvertsDecode : decode 0x00000303 = .ok (.b32Decode 3) := by decide

/-- The one hypothesis is met at both ends of an alternative, and in both phases. -/
theorem test_witness_StepRunsIssuedCommand :
    ((inFlight 0x102).rst = false ∧ (inFlight 0x102).schedule = [] ∧ (inFlight 0x102).phase ≠ .idle ∧
      (inFlight 0x102).phase = .busy 0x102 ∧ decode 0x102 = .ok (.b32Encode 1)) ∧
    (State.reset.rst = false ∧ { State.reset with schedule := [.sequencer] }.schedule.head? = some .sequencer ∧
      State.reset.phase = .idle) := by decide

theorem test_witness_IllegalWordCompletes :
    ¬ Legal 0x00000402 ∧ State.reset.rst = false ∧ State.reset.phase = .idle ∧
    (inFlight 0x402).rst = false ∧ (inFlight 0x402).phase = .busy 0x402 ∧ (inFlight 0x402).schedule = [] := by
  refine ⟨?_, by decide⟩
  rintro ⟨-, -, h, -⟩
  exact absurd (h (by decide)) (by decide)

theorem test_witness_IssueCapturesTheWord :
    State.reset.rst = false ∧ State.reset.phase = .idle ∧ (inFlight 0).rst = false ∧ (inFlight 0).phase ≠ .idle := by
  decide

/-- No host turn, and one. -/
theorem test_witness_BusyBlockCompletes :
    ((inFlight 0).phase ≠ .idle ∧ (inFlight 0).rst = false ∧ (inFlight 0).schedule = List.replicate 0 .host ∧
      Reaches (inFlight 0) 0 (inFlight 0) ∧ Reaches (inFlight 0) (0 + 1) (after .nop (inFlight 0))) ∧
    let s := { inFlight 0 with program := [.ld .w32 0x008], schedule := [.host] }
    let u := { s with schedule := [], hpc := 1, readData := 1 }
    s.phase ≠ .idle ∧ s.rst = false ∧ s.schedule = List.replicate 1 .host ∧
      Reaches s 1 u ∧ Reaches s (1 + 1) (after .nop u) :=
  ⟨⟨by decide, by decide, rfl, rfl, rfl⟩, by decide, by decide, rfl, rfl, rfl⟩

/-- A-5. -/
theorem test_witness_ErrorsArePrecise :
    State.reset.completeWord 0x00000303 = .next (after (.b32Decode 3) State.reset) ∧
    exec (.b32Decode 3) State.reset = .next (after (.b32Decode 3) State.reset) ∧
    (after (.b32Decode 3) State.reset).errCode ≠ .noError := ⟨rfl, rfl, by decide⟩

theorem test_witness_SuccessClearsErrorStatus :
    exec .envSerialize State.reset = .next (after .envSerialize State.reset) ∧
    (after .envSerialize State.reset).errCode = .noError := ⟨rfl, by decide +kernel⟩

/-- K-9. -/
theorem test_witness_NopChangesOnlyTheStatus :
    State.reset.werr = false ∧ (0x00000800 : Word).extractLsb' 0 8 = 0 ∧ (0x00000800 : Word).extractLsb' 8 24 ≠ 0 := by
  decide

/-- K-10. -/
theorem test_witness_SoftResetRestoresResetValues :
    exec .softReset State.reset = .next (after .softReset State.reset) ∧
    (0x000001FF : Word).extractLsb' 0 8 = 0xFF ∧ (0x000001FF : Word).extractLsb' 8 24 ≠ 0 := ⟨rfl, by decide, by decide⟩

/-- A-8; A-6, the duplicate at the last index; A-1. -/
theorem test_witness_AlphaLoadResult :
    State.reset.inLen ≠ 32 ∧
    (let s := withInput duplicateTable
     s.inLen = 32 ∧ s.bufByte .inBuf 0 = s.bufByte .inBuf 31 ∧
        (∀ k, k < 0 → s.bufByte .inBuf k ≠ s.bufByte .inBuf 31) ∧
        ∀ l, l < 31 → ∀ k, k < l → s.bufByte .inBuf k ≠ s.bufByte .inBuf l) ∧
    (let s := withInput reversedTable
     s.inLen = 32 ∧ ∀ j, j < 32 → ∀ i, i < j → s.bufByte .inBuf i ≠ s.bufByte .inBuf j) := by decide +kernel

/-- A-5, B-1, B-4 and B-3. -/
theorem test_witness_B32EncodeResult :
    (SelectsTable State.reset 0 rfc4648Table ∧ SelectsTable State.reset 1 crockfordTable ∧
      SelectsTable State.reset 2 wordsafeTable ∧ SelectsTable State.reset 3 State.reset.customTable) ∧
    ¬ AlphabetReady State.reset 3 ∧ AlphabetReady { State.reset with customValid := true } 3 ∧
    (∀ a : BitVec 3, a.toNat ≤ 2 → AlphabetReady State.reset a) ∧
    (State.reset.cfg.inCap < { State.reset with inLen := 4097 }.inLen.toNat) ∧
    ({ State.reset with inLen := 2561 }.inLen.toNat ≤ State.reset.cfg.inCap ∧
      State.reset.cfg.outCap < (8 * { State.reset with inLen := 2561 }.inLen.toNat + 4) / 5) ∧
    (8 * { State.reset with inLen := 2560 }.inLen.toNat + 4) / 5 ≤ State.reset.cfg.outCap :=
  ⟨⟨.inl ⟨rfl, rfl⟩, .inr (.inl ⟨rfl, rfl⟩), .inr (.inr (.inl ⟨rfl, rfl⟩)), .inr (.inr (.inr ⟨rfl, rfl⟩))⟩,
    by unfold AlphabetReady; decide, by unfold AlphabetReady; decide, by unfold AlphabetReady; decide, by decide, by decide,
    by decide⟩

/-- A-5, B-1, W3, then "ZZZZ" against an OUT_CAP of 1 and of 2. -/
theorem test_witness_B32DecodeResult :
    (SelectsTable State.reset 3 State.reset.customTable ∧ ¬ AlphabetReady State.reset 3) ∧
    (SelectsTable State.reset 1 crockfordTable ∧ AlphabetReady State.reset 1 ∧
      State.reset.cfg.inCap < { State.reset with inLen := 4097 }.inLen.toNat) ∧
    (let s := withInput [0x39, 0x75]
     s.inLen.toNat ≤ s.cfg.inCap ∧ 1 < s.inLen.toNat ∧ s.bufByte .inBuf 1 ∉ s.cfg.crockford.syms ∧
        ∀ l, l < 1 → s.bufByte .inBuf l ∈ s.cfg.crockford.syms) ∧
    (let s := { withInput [0x5A, 0x5A, 0x5A, 0x5A] with cfg := smallParams 1 1 (by decide) (by decide) }
     s.inLen.toNat ≤ s.cfg.inCap ∧ (∀ k, k < s.inLen.toNat → s.bufByte .inBuf k ∈ s.cfg.crockford.syms) ∧
        s.cfg.outCap < 5 * s.inLen.toNat / 8) ∧
    (let s := { withInput [0x5A, 0x5A, 0x5A, 0x5A] with cfg := smallParams 2 1 (by decide) (by decide) }
     s.inLen.toNat ≤ s.cfg.inCap ∧ (∀ k, k < s.inLen.toNat → s.bufByte .inBuf k ∈ s.cfg.crockford.syms) ∧
        5 * s.inLen.toNat / 8 ≤ s.cfg.outCap) :=
  ⟨⟨.inr (.inr (.inr ⟨rfl, rfl⟩)), by unfold AlphabetReady; decide⟩,
    ⟨.inr (.inl ⟨rfl, rfl⟩), by unfold AlphabetReady; decide, by decide⟩,
    by decide +kernel, by decide +kernel, by decide +kernel⟩

theorem test_witness_ReservedAselIsIllegal : 3 < (4 : BitVec 3).toNat ∧ 3 < (7 : BitVec 3).toNat := by decide

/-- S-4, S-5, S-6, S-7, S-8; then S-2 against an OUT_CAP of 6 and of 7. -/
theorem test_witness_EnvSerializeResult :
    State.reset.cfg.saltCap < { State.reset with saltLen := 257 }.saltLen.toNat ∧
    (let s := { State.reset with saltLen := 256, ctLen := 4097 }
     s.saltLen.toNat ≤ s.cfg.saltCap ∧ s.cfg.ctCap < s.ctLen.toNat) ∧
    (let s := { State.reset with saltLen := 256, ctLen := 4096, iter := 0x80000000 }
     s.saltLen.toNat ≤ s.cfg.saltCap ∧ s.ctLen.toNat ≤ s.cfg.ctCap ∧ s.iter.getLsbD 31 = true) ∧
    (let s := { State.reset with saltLen := 256, ctLen := 4096, iter := 0x7FFFFFFF, halgTag := 7 }
     SerializeArgs s ∧ 6 < s.halgTag.toNat) ∧
    (let s := { State.reset with cfg := smallParams 7 1 (by decide) (by decide), halgTag := 4 }
     SerializeArgs s ∧ 4 ≤ s.halgTag.toNat ∧ s.halgTag.toNat ≤ 6 ∧ s.cfg.sha3 = false) ∧
    (let s := { State.reset with cfg := smallParams 6 1 (by decide) (by decide) }
     SerializeArgs s ∧ SupportedTag s.cfg.sha3 s.halgTag ∧ s.cfg.outCap < (wireFormat s.cfg.crockford
        (s.readBuf .saltBuf s.saltLen.toNat) s.iter s.halgTag (s.readBuf .ctBuf s.ctLen.toNat)).length) ∧
    (let s := { State.reset with cfg := smallParams 7 1 (by decide) (by decide) }
     SerializeArgs s ∧ SupportedTag s.cfg.sha3 s.halgTag ∧ (wireFormat s.cfg.crockford
        (s.readBuf .saltBuf s.saltLen.toNat) s.iter s.halgTag (s.readBuf .ctBuf s.ctLen.toNat)).length ≤
          s.cfg.outCap) := by
  unfold SerializeArgs SupportedTag; decide +kernel

/-- P-24, P-9 and P-2. -/
theorem test_witness_EnvParseResult :
    State.reset.cfg.inCap < { State.reset with inLen := 4097 }.inLen.toNat ∧
    State.reset.inLen.toNat ≤ State.reset.cfg.inCap ∧
    parse State.reset.cfg (State.reset.readBuf .inBuf State.reset.inLen.toNat) =
      .error { code := .malformedEnvelope, info := { sub := 1 }, pos := 1 } ∧
    let s := withInput [0x55, 0x30, 0x30, 0x55, 0x30, 0x30, 0x55]
    s.inLen.toNat ≤ s.cfg.inCap ∧ parse s.cfg (s.readBuf .inBuf s.inLen.toNat) =
      .ok { salt := [], iter := 0, tag := 0, ct := [] } := by decide +kernel

/-- X-9's inputs with ITER 1, and with the argument and tag errors at their boundaries. -/
def encryptX9 (out ct : Nat) (ho : 1 ≤ out ∧ out ≤ 65536) (hc : 1 ≤ ct ∧ ct ≤ 65536) : State :=
  { State.reset with
    cfg := smallParams out ct ho hc, mem := Memory.writeList [] 0x30000 [0x70, 0x77], pwLen := 2, iter := 1, halgTag := 1 }

theorem test_witness_EnvEncryptResult_checks :
    State.reset.cfg.inCap < { State.reset with inLen := 4097 }.inLen.toNat ∧
    (let s := { State.reset with inLen := 4096, pwLen := 257 }
     s.inLen.toNat ≤ s.cfg.inCap ∧ s.cfg.pwCap < s.pwLen.toNat) ∧
    (let s := { State.reset with inLen := 4096, pwLen := 256, saltgenLen := 257 }
     s.inLen.toNat ≤ s.cfg.inCap ∧ s.pwLen.toNat ≤ s.cfg.pwCap ∧ s.cfg.saltCap < s.saltgenLen.toNat) ∧
    (let s := { State.reset with inLen := 4096, pwLen := 256, saltgenLen := 256, iter := 0x80000000 }
     s.inLen.toNat ≤ s.cfg.inCap ∧ s.pwLen.toNat ≤ s.cfg.pwCap ∧ s.saltgenLen.toNat ≤ s.cfg.saltCap ∧
       s.iter.getLsbD 31 = true) ∧
    (EncryptArgs { State.reset with halgTag := 7 } ∧ 6 < { State.reset with halgTag := 7 }.halgTag.toNat) ∧
    (let s := { encryptX9 1 1 (by decide) (by decide) with halgTag := 4 }
     EncryptArgs s ∧ 4 ≤ s.halgTag.toNat ∧ s.halgTag.toNat ≤ 6 ∧ s.cfg.sha3 = false) := by
  unfold EncryptArgs; decide

/-- X-9 against a CT_CAP of 15 and of 16, and an OUT_CAP of 32 and of 33; and an IP that refuses. -/
theorem test_witness_EnvEncryptResult :
    (∀ s : State, s = encryptX9 32 15 (by decide) (by decide) ∨ s = encryptX9 33 16 (by decide) (by decide) →
      EncryptArgs s ∧ SupportedTag s.cfg.sha3 s.halgTag) ∧
    (let s := encryptX9 33 16 (by decide) (by decide)
     { ipT with rng := fun _ _ => none }.rng s.rngDraw s.saltgenLen.toNat = none ∧
      ipT.rng s.rngDraw s.saltgenLen.toNat = some ⟨[], rfl⟩ ∧
      { ipT with kdf := fun _ _ _ _ => none }.kdf (s.readBuf .pwBuf s.pwLen.toNat) [] s.iter s.halgTag = none ∧
      ∃ dk, ipT.kdf (s.readBuf .pwBuf s.pwLen.toNat) [] s.iter s.halgTag = some dk ∧
        ∃ (key : Bytes 32) (iv : Bytes 16), key.1 ++ iv.1 = dk.1 ∧
          { ipT with cipherEnc := fun _ _ _ => none }.cipherEnc key iv (s.readBuf .inBuf s.inLen.toNat) = none ∧
          ∃ ct, ipT.cipherEnc key iv (s.readBuf .inBuf s.inLen.toNat) = some ct ∧
            15 < ct.length ∧ ct.length < 2 ^ 32 ∧ ct.length ≤ s.cfg.ctCap ∧
            32 < (wireFormat s.cfg.crockford [] s.iter s.halgTag ct).length ∧
            (wireFormat s.cfg.crockford [] s.iter s.halgTag ct).length ≤ s.cfg.outCap) := by
  refine ⟨?_, ?_⟩
  · rintro s (rfl | rfl) <;> · unfold EncryptArgs SupportedTag; decide
  · refine ⟨rfl, rfl, rfl, _, rfl, keyOf _, ivOf _, List.take_append_drop _ _, rfl, _, rfl, ?_⟩
    decide +kernel

/-- P-24, P-9, X-10 and X-2, the last against an OUT_CAP of 4 and of 5. -/
theorem test_witness_EnvDecryptResult :
    State.reset.cfg.inCap < { State.reset with inLen := 4097 }.inLen.toNat ∧
    (let s := { State.reset with inLen := 4096, pwLen := 257 }
     s.inLen.toNat ≤ s.cfg.inCap ∧ s.cfg.pwCap < s.pwLen.toNat) ∧
    parse State.reset.cfg (State.reset.readBuf .inBuf State.reset.inLen.toNat) =
      .error { code := .malformedEnvelope, info := { sub := 1 }, pos := 1 } ∧
    (let s := decryptX1 [0x70, 0x77]
     s.inLen.toNat ≤ s.cfg.inCap ∧ s.pwLen.toNat ≤ s.cfg.pwCap ∧
      ∃ f, parse s.cfg (s.readBuf .inBuf s.inLen.toNat) = .ok f ∧
        { ipT with kdf := fun _ _ _ _ => none }.kdf (s.readBuf .pwBuf s.pwLen.toNat) f.salt f.iter f.tag = none ∧
        ∃ dk, ipT.kdf (s.readBuf .pwBuf s.pwLen.toNat) f.salt f.iter f.tag = some dk ∧
          ∃ (key : Bytes 32) (iv : Bytes 16), key.1 ++ iv.1 = dk.1 ∧
            { ipT with cipherDec := fun _ _ _ => none }.cipherDec key iv f.ct = none ∧
            ipT.cipherDec key iv f.ct = some hello ∧
            (smallParams 4 1 (by decide) (by decide)).outCap < hello.length ∧ hello.length < 2 ^ 32 ∧
            hello.length ≤ (smallParams 5 1 (by decide) (by decide)).outCap) := by
  refine ⟨by decide, by decide, by decide +kernel, by decide, by decide, ?_⟩
  refine ⟨{ salt := (List.range 16).map (BitVec.ofNat 8), iter := 100000, tag := 1, ct :=
    [0x68, 0x44, 0x4E, 0x4F, 0x4B, 0x2E, 0x2D, 0x2C, 0x23, 0x22, 0x21, 0x20, 0x27, 0x26, 0x25, 0x24] },
    by decide +kernel, rfl, ⟨(List.range 48).map (BitVec.ofNat 8), by simp⟩, by decide +kernel, keyOf _, ivOf _,
    List.take_append_drop _ _, rfl, by decide +kernel, by decide, by decide, by decide⟩

theorem test_witness_EncodedLength : ([] : List Byte).length = 0 := rfl

/-- The last symbol of an encoding, with 4 of its bits past the end of the stream. -/
theorem test_witness_EncodedSymbols : 6 < (8 * [(0x66 : Byte), 0x6F, 0x6F, 0x62].length + 4) / 5 := by decide

/-- W3, and "ZZ". -/
theorem test_witness_DecodedBytes :
    crockfordTable.Valid ∧
    ((0x75 : Byte) ∉ crockfordTable.syms ∧ ∀ l (_ : l < 1), ([0x39, 0x75] : List Byte).getD l 0 ∈ crockfordTable.syms) ∧
    ValuesOf crockfordTable [0x5A, 0x5A] [31, 31] := by unfold ValuesOf; decide

theorem test_witness_Base32RoundTrip : rfc4648Table.Valid ∧ crockfordTable.Valid ∧ wordsafeTable.Valid := by decide

/-- "ZW", canonical; "ZZ", not; and "Z", whose length is 1 modulo 8. -/
theorem test_witness_CanonicalStringsRoundTrip :
    crockfordTable.Valid ∧
    (ValuesOf crockfordTable [0x5A, 0x57] [31, 28] ∧ decode32 crockfordTable [0x5A, 0x57] = .ok [0xFF] ∧
      ∀ i, i < 10 → 8 ≤ i → valueStreamBit [31, 28] i = false) ∧
    (ValuesOf crockfordTable [0x5A, 0x5A] [31, 31] ∧ decode32 crockfordTable [0x5A, 0x5A] = .ok [0xFF] ∧
      valueStreamBit [31, 31] 8 = true) ∧
    (ValuesOf crockfordTable [0x5A] [31] ∧ decode32 crockfordTable [0x5A] = .ok [] ∧
      [(0x5A : Byte)].length % 8 ∈ [1, 3, 6]) := by unfold ValuesOf; decide +kernel

theorem test_witness_TagCheckRule :
    6 < (7 : Byte).toNat ∧ (4 ≤ (4 : Byte).toNat ∧ (4 : Byte).toNat ≤ 6) ∧ (4 ≤ (6 : Byte).toNat ∧ (6 : Byte).toNat ≤ 6) := by
  decide

/-- The counts 255, 256 and 2^31 - 1: one byte, two bytes, four. -/
theorem test_witness_IterationPack :
    (iterPack 255).length = 1 ∧ (iterPack 256).length = 2 ∧ (iterPack 0x7FFFFFFF).length = 4 := by decide

/-- No byte, five bytes; 2^31 and 2^31 - 1 in four bytes; 0 in one; three bytes, which may take a zero byte. -/
theorem test_witness_IterationUnpack :
    ([] : List Byte).length < 1 ∧ 4 < [(0 : Byte), 0, 0, 0, 0].length ∧ [(0 : Byte), 0, 0, 0, 0].length < 2 ^ 32 ∧
    2 ^ 31 ≤ ((List.range 4).map fun i => ([(0 : Byte), 0, 0, 0x80].getD i 0).toNat <<< (8 * i)).sum ∧
    ((List.range 4).map fun i => ([(0xFF : Byte), 0xFF, 0xFF, 0x7F].getD i 0).toNat <<< (8 * i)).sum < 2 ^ 31 ∧
    ((List.range 1).map fun i => ([(0 : Byte)].getD i 0).toNat <<< (8 * i)).sum < 2 ^ 31 ∧
    [(0xFF : Byte), 0xFF, 0xFF].length ≤ 3 ∧ (0x7FFFFFFF : Word).getLsbD 31 = false := by decide

/-- P-9 and P-11 for the count; P-22 for the symbol; P-12, P-14, P-15, P-17, P-18, P-19 and P-2 for the fields. -/
theorem test_witness_ParseRule :
    (([] : List Byte).length ≤ 65536 ∧ delimiters [] ≠ 3) ∧
    (let s : List Byte := [0x55, 0x55, 0x55, 0x2A]
     delimiters s = 3 ∧ 3 < s.length ∧ s.getD 3 0 ≠ 0x55 ∧ s.getD 3 0 ∉ referenceParams.crockford.syms ∧
        ∀ l, l < 3 → s.getD l 0 = 0x55 ∨ s.getD l 0 ∈ referenceParams.crockford.syms) ∧
    (let s : List Byte := [0x55, 0x30, 0x30, 0x55, 0x30, 0x34, 0x55]
     s = [] ++ [0x55] ++ [0x30, 0x30] ++ [0x55] ++ [0x30, 0x34] ++ [0x55] ++ []) ∧
    (decode32 referenceParams.crockford [] = .ok [] ∧ decode32 referenceParams.crockford [0x30, 0x30] = .ok [0] ∧
      decode32 referenceParams.crockford [0x30, 0x34] = .ok [1] ∧ iterUnpack [0] = .ok 0 ∧
      iterUnpack [] = .error { code := .malformedEnvelope, info := { seg := 1, sub := 3 }, pos := 0 }) ∧
    (([] : List Byte).length ≠ 1 ∧ [(1 : Byte)] = [1]) ∧
    (tagError true 7 = some { code := .unsupportedAlgorithm, info := { sub := 1, val := 7 } } ∧
      tagError false 4 = some { code := .unsupportedAlgorithm, info := { sub := 2, val := 4 } }) ∧
    (SupportedTag true 1 ∧ referenceParams.saltCap < (List.replicate 257 (0 : Byte)).length ∧
      (List.replicate 256 (0 : Byte)).length ≤ referenceParams.saltCap ∧
      (smallParams 1 1 (by decide) (by decide)).ctCap < [(0 : Byte), 0].length ∧
      [(0 : Byte)].length ≤ (smallParams 1 1 (by decide) (by decide)).ctCap) := by
  unfold SupportedTag; decide +kernel

/-- S-1, with the largest count and the greatest supported tags. -/
theorem test_witness_ParseInvertsSerialize :
    [(1 : Byte), 2, 3, 4, 5].length ≤ referenceParams.saltCap ∧ (0x7FFFFFFF : Word).getLsbD 31 = false ∧
    SupportedTag referenceParams.sha3 6 ∧ SupportedTag false 3 ∧
    (List.replicate 4096 (0xFF : Byte)).length ≤ referenceParams.ctCap := by
  unfold SupportedTag; decide +kernel

/-- X-1 followed by X-2 under T, and a block without SHA-3. -/
theorem test_witness_DecryptRecoversPlaintext :
    ((smallParams 1 1 (by decide) (by decide)).sha3 = false ∧ 4 ≤ (4 : Byte).toNat ∧ (6 : Byte).toNat ≤ 6) ∧
    ipT.CipherInverse ∧
    let s := encryptX1
    let u := decryptX1 [0x70, 0x77]
    (envEncryptWith ipT s).errCode = .noError ∧ u.cfg = s.cfg ∧ u.inLen = (envEncryptWith ipT s).outLen ∧
      u.inLen.toNat ≤ u.cfg.inCap ∧
      u.readBuf .inBuf u.inLen.toNat = (envEncryptWith ipT s).readBuf .outBuf u.inLen.toNat ∧
      u.pwLen = s.pwLen ∧ u.readBuf .pwBuf u.pwLen.toNat = s.readBuf .pwBuf u.pwLen.toNat ∧
      s.inLen.toNat ≤ u.cfg.outCap :=
  ⟨by decide, test_ipT_cipherInverse, by decide +kernel⟩

/-- A success, and an error (B-1). -/
theorem test_witness_OutputCommandsFrame :
    exec (.b32Encode 1) (withInput hello) = .next (after (.b32Encode 1) (withInput hello)) ∧
    exec .envEncrypt State.reset = .next (after .envEncrypt State.reset) ∧
    (after (.b32Encode 1) { State.reset with inLen := 4097 }).errCode ≠ .noError := ⟨rfl, rfl, by decide +kernel⟩

/-- A success, and an error (P-9). -/
theorem test_witness_ParseFrame :
    exec .envParse (withInput envelopeS1) = .next (after .envParse (withInput envelopeS1)) ∧
    (after .envParse State.reset).errCode ≠ .noError := ⟨rfl, by decide +kernel⟩

theorem test_witness_RegisterCommandsFrame :
    exec .nop State.reset = .next (after .nop State.reset) ∧
    exec .alphaLoad State.reset = .next (after .alphaLoad State.reset) ∧
    (after .alphaLoad State.reset).errCode ≠ .noError ∧
    exec .softReset State.reset = .next (after .softReset State.reset) := ⟨rfl, rfl, by decide, rfl⟩

/-- The edges of the window's regions, with and without the error response, and a write without it. -/
theorem test_witness_BusErrorRule :
    (State.reset.access (.read .w8 0x0FF)).2.error = true ∧ (State.reset.access (.read .w8 0x100)).2.error = false ∧
    (State.reset.access (.read .w8 0x17F)).2.error = false ∧ (State.reset.access (.read .w8 0x180)).2.error = true ∧
    (State.reset.access (.read .w32 0xFFFC)).2.error = false ∧ (State.reset.access (.read .w16 0xFFFE)).2.error = true ∧
    (State.reset.access (.read .w8 0x5FFFF)).2.error = false ∧
    (State.reset.access (.read .w8 0x60000)).2.error = true ∧
    (State.reset.access (.write .w32 0x018 5)).2.error = false := by decide

/-- M-10: both ranges of reserved offsets, at their ends. -/
theorem test_witness_RegisterReads :
    (0x054 ≤ 0x054 ∧ 0x0FC < 0x100) ∧ (0x180 ≤ 0x180 ∧ 0xFFFC < 0x10000) := by decide

theorem test_witness_RegisterWrites :
    State.reset.phase = .idle ∧ (0x038 ≤ 0x038 ∧ 0xFFFC < 0x10000) ∧ 0x20000 ≤ 0x20000 ∧ 0x2FFFF < 0x30000 := by decide

/-- The last byte, halfword and word of a table, and the ends of the window. -/
theorem test_witness_ReadbackShowsTheTables :
    (31 < 32 ∧ 31 % widthBytes .w8 = 0 ∧ 0 < widthBytes .w8) ∧ (30 < 32 ∧ 30 % widthBytes .w16 = 0 ∧ 1 < widthBytes .w16) ∧
    (28 < 32 ∧ 28 % widthBytes .w32 = 0 ∧ 3 < widthBytes .w32) ∧ 0x100 ≤ 0x100 ∧ 0x17F < 0x180 := by decide

/-- The last word of IN_BUF, whose lanes all land, and the word after it, of which none does. -/
theorem test_witness_BufferLanesAct :
    State.reset.phase = .idle ∧ Buf.inBuf ≠ .outBuf ∧ Buf.inBuf.base ≤ 0x10FFC ∧
    0x10FFC + widthBytes .w32 ≤ Buf.inBuf.base + 0x10000 ∧
    0x10FFC + 3 < Buf.inBuf.base + Buf.inBuf.cap State.reset.cfg ∧
    ¬(0x11000 < Buf.inBuf.base + Buf.inBuf.cap State.reset.cfg) := by decide

theorem test_witness_BufferReadsAreLittleEndian :
    Buf.outBuf ≠ .pwBuf ∧ Buf.outBuf.base ≤ 0x2FFFC ∧ 0x2FFFC + widthBytes .w32 ≤ Buf.outBuf.base + 0x10000 ∧
    3 < widthBytes .w32 := by decide

theorem test_witness_PasswordReadsZero :
    0x30000 ≤ 0x30000 ∧ 0x30000 ≤ 0x3FFFC ∧ 0x3FFFC + widthBytes .w32 ≤ 0x40000 := by decide

/-- Two blocks with different passwords. -/
theorem test_witness_PasswordDoesNotLeak :
    SameButPassword State.reset { State.reset with mem := [(0x30000, 0x70), (0x3FFFF, 0x77)] } ∧
    exec .nop State.reset = .next (after .nop State.reset) := by
  refine ⟨⟨rfl, fun a ha => ?_⟩, rfl⟩
  have h1 : 0x30000 ≠ a := by omega
  have h2 : 0x3FFFF ≠ a := by omega
  simp [State.reset, State.resetWith, Memory.read?, h1, h2]

/-- H-1 (b) at IN_LEN; the last byte of IN_BUF, and the byte after it; OUT_BUF. -/
theorem test_witness_BusyWritesAreDropped :
    (inFlight 0x102).phase ≠ .idle ∧
    ((inFlight 0x102).access (.write .w32 0x018 8)).2.error = false ∧ BusyDrops (inFlight 0x102) .w32 0x018 ∧
    ((inFlight 0x102).access (.write .w8 0x10FFF 8)).2.error = false ∧ BusyDrops (inFlight 0x102) .w8 0x10FFF ∧
    ((inFlight 0x102).access (.write .w32 0x008 8)).2.error = false ∧
    ((inFlight 0x102).access (.write .w32 0x014 8)).2.error = false ∧
    ((inFlight 0x102).access (.write .w8 0x11000 8)).2.error = false ∧ ¬ BusyDrops (inFlight 0x102) .w8 0x11000 := by
  refine ⟨by decide, by decide, .inl (by decide), by decide, .inr ⟨.inBuf, 0, by decide⟩, by decide, by decide,
    by decide, ?_⟩
  rintro (h | ⟨b, k, -, h1, h2, hk, h3⟩)
  · exact absurd h (by decide)
  · have hc : (inFlight 0x102).cfg = referenceParams := rfl
    cases b <;> simp only [Buf.base, Buf.cap, hc, referenceParams] at h1 h2 h3 <;> omega

theorem test_witness_InputsFrozenWhileBusy : (inFlight 0x102).phase ≠ .idle := by decide

/-- A host with a schedule and each kind of statement, and one that gets a bus error (M-2). -/
theorem test_witness_HostTurnPerformsStatement :
    let s := fun st => { State.reset with program := [st], schedule := [Turn.host] }
    State.reset.program[State.reset.hpc]? = none ∧ (∀ st, (s st).program[(s st).hpc]? = some st) ∧
    (State.reset.access (.read .w8 0x100)).2.error = false ∧
    (State.reset.access (.write .w32 0x018 5)).2.error = false ∧
    (State.reset.access (.read .w32 0x008)).2.error = false ∧
    (State.reset.access (.read .w16 0x000)).2.error = true ∧
    (State.reset.access (.read .w32 0x10002)).2.error = true :=
  ⟨rfl, fun _ => rfl, by decide, by decide, by decide, by decide, by decide⟩

theorem test_witness_ResetReadsAsListed : State.reset = State.resetWith referenceParams ∧ 31 < 32 := ⟨rfl, by decide⟩

theorem test_witness_ResetInputAbandonsCommand :
    { inFlight 0 with schedule := [.rstAssert] }.schedule = .rstAssert :: [] ∧
    { State.reset with rst := true, schedule := [.sequencer] }.rst = true ∧
    { State.reset with rst := true, schedule := [.sequencer] }.schedule = .sequencer :: [] ∧
    { State.reset with rst := true, schedule := [.rstDeassert] }.schedule = .rstDeassert :: [] := ⟨rfl, rfl, rfl, rfl⟩

theorem test_witness_InterruptFollowsDone :
    State.reset.completeWord 0 = .next (after .nop State.reset) ∧ (0 : Word) ≠ 0x000000FF ∧
    State.reset.completeWord 0x000000FF = .next (after .softReset State.reset) ∧
    (2 : Word).getLsbD 1 = true ∧ (0 : Word).getLsbD 0 = false ∧ State.reset.phase = .idle :=
  ⟨rfl, by decide, rfl, by decide, by decide, rfl⟩

/-- A block with a byte in memory, a command in flight and the host about to move. -/
theorem test_witness_StepKeepsInvariant :
    let s := { inFlight 0x102 with mem := [(0x10000, 0x48)], schedule := [.host] }
    s.Inv ∧ step s = .next { s with schedule := [] } := by
  refine ⟨⟨by simp, ?_, by simp [inFlight, State.reset, State.resetWith], by simp [inFlight, State.reset, State.resetWith],
    by simp [inFlight, State.reset, State.resetWith], by decide, by simp [inFlight, State.reset, State.resetWith],
    by simp [inFlight, State.reset, State.resetWith]⟩, rfl⟩
  intro c hc
  simp only [List.mem_singleton] at hc
  subst hc
  exact ⟨.inBuf, by decide⟩

theorem test_witness_ConstantsNeverChange :
    step (inFlight 0x000000FF) = .next (after .softReset (inFlight 0x000000FF)) ∧ 0x5F < 0x60 := ⟨rfl, by decide⟩

end Sys2Proof.Tests
end

section
/-! The parameters (00_scope R8) are a field no agent writes. So the reads that show only them are the same after a step. -/

namespace Sys2Proof.Machine

/-! ### Every step keeps the parameters -/

theorem Effect.cfg {i : Instr} {s t : State} (h : Effect i s t) : t.cfg = s.cfg := by
  cases i
  case nop | softReset => subst h; rfl
  case alphaLoad => obtain ⟨-, rfl⟩ := h; rfl
  case envParse => obtain ⟨f, -, -, rfl⟩ := h; rfl
  all_goals obtain ⟨v, -, rfl⟩ := h; rfl

theorem State.finish_cfg {i : Instr} {s : State} {r : Except Raise State} (h : Ends (Effect i s) r) (op : Byte) :
    (s.finish op r).cfg = s.cfg := by
  cases r with
  | error e => rfl
  | ok t =>
    have ht : Effect i s t := h
    exact ht.cfg

theorem exec_cfg {i : Instr} {s t : State} (h : exec i s = .next t) : t.cfg = s.cfg := by
  obtain ⟨r, hr, he⟩ := exec_spec i s
  obtain rfl := Host.Outcome.next.inj (he.symm.trans h)
  exact State.finish_cfg hr i.opcode

theorem State.completeWord_cfg {s t : State} {w : Word} (h : s.completeWord w = .next t) : t.cfg = s.cfg := by
  rcases s.completeWord_cases w with ⟨i, -, hi⟩ | ⟨-, hraise⟩
  · exact exec_cfg (hi.symm.trans h)
  · obtain rfl := Host.Outcome.next.inj (hraise.symm.trans h)
    rfl

theorem State.write_cfg (s : State) (w : Width) (off : Nat) (v : Word) : (s.write w off v).cfg = s.cfg := by
  rcases s.write_cases w off v with h | h | h | ⟨-, h⟩ | ⟨-, h | ⟨_, _, _, _, _, _, _, h⟩ | ⟨_, _, _, -, h⟩⟩ <;> rw [h] <;>
    rfl

theorem State.access_cfg (s : State) (a : Access) : (s.access a).1.cfg = s.cfg := by
  rcases s.access_cases a with ⟨-, h⟩ | ⟨-, -, ⟨w, off, -, h⟩ | ⟨w, off, v, -, h⟩⟩ <;> rw [h]
  exact s.write_cfg w off v

theorem State.deassertRst_cfg (s : State) : s.deassertRst.cfg = s.cfg := by
  unfold State.deassertRst
  split <;> rfl

theorem step_cfg {s t : State} (h : step s = .next t) : t.cfg = s.cfg := by
  rcases step_cases h with rfl | ⟨a, -, ht⟩ | ⟨w, -, -, hw⟩ | rfl | rfl
  · rfl
  · rw [ht]
    exact s.popTurn.access_cfg a
  · exact State.completeWord_cfg (s := s.popTurn) hw
  · rfl
  · exact s.popTurn.deassertRst_cfg

/-! ### The reads that show only the parameters -/

/-- The offsets of ID, CAPS and the capacity registers (10_state R20, R31, R32). -/
theorem State.read_constant_of_cfg_eq {s t : State} (h : t.cfg = s.cfg) :
    ∀ off ∈ [0x000, 0x03C, 0x040, 0x044, 0x048, 0x04C, 0x050], t.read .w32 off = s.read .w32 off := by
  have hreg : ∀ (off : Nat) (r : Reg), regionOf off = some .registers → regAt off = some r → t.readReg r = s.readReg r →
      t.read .w32 off = s.read .w32 off := by
    intro off r hregion hr hread
    simp only [State.read, hregion, hr, hread]
  simp only [List.forall_mem_cons]
  refine ⟨hreg _ .id rfl rfl rfl, hreg _ .caps rfl rfl ?_, hreg _ .inCapR rfl rfl ?_, hreg _ .outCapR rfl rfl ?_,
    hreg _ .pwCapR rfl rfl ?_, hreg _ .saltCapR rfl rfl ?_, hreg _ .ctCapR rfl rfl ?_, List.forall_mem_nil _⟩ <;>
    simp only [State.readReg, h]

/-- Below offset 0x160 the readback shows the three presets and not the custom slot (10_state R41). -/
theorem readbackAlpha_ne_custom {off : Nat} (h : off < 0x160) : readbackAlpha off ≠ .custom := by
  rw [readbackAlpha, if_pos h]
  split
  · nofun
  · split <;> nofun

theorem State.alpha_preset_of_cfg_eq {s t : State} (h : t.cfg = s.cfg) {id : AlphaId} (hid : id ≠ .custom) :
    t.alpha id = s.alpha id := by
  cases id with
  | custom => exact absurd rfl hid
  | _ => simp only [State.alpha, h]

theorem State.read_readback_byte (s : State) {off : Nat} (hlo : 0x100 ≤ off) (hhi : off < 0x180) :
    s.read .w8 off = joinLanes (fun k => symbolAt (s.alpha (readbackAlpha (off + k))) (BitVec.ofNat 5 (off + k))) 1 := by
  have hregion : regionOf off = some .readback := by
    rw [regionOf, if_neg (by omega), if_pos hhi]
  simp only [State.read, hregion, widthBytes]

theorem State.read_preset_of_cfg_eq {s t : State} (h : t.cfg = s.cfg) {off : Nat} (hlo : 0x100 ≤ off)
    (hhi : off < 0x160) : t.read .w8 off = s.read .w8 off := by
  have halpha := State.alpha_preset_of_cfg_eq h (readbackAlpha_ne_custom hhi)
  rw [t.read_readback_byte hlo (by omega), s.read_readback_byte hlo (by omega)]
  simp only [joinLanes, Nat.add_zero, halpha]

/-- Settles O58: the parameters are kept by every step (`step_cfg`), and the reads named show nothing else. -/
theorem constantsNeverChange : Obligations.ConstantsNeverChange := by
  intro s t h
  have hcfg : t.cfg = s.cfg := step_cfg h
  exact ⟨hcfg, State.read_constant_of_cfg_eq hcfg, fun v hv => State.read_preset_of_cfg_eq hcfg (by omega) (by omega)⟩

end Sys2Proof.Machine
end

section
/-! Laws of the host's window (20_memory R44 to R49): the lanes of a read, and the region of an offset. -/

namespace Sys2Proof.Machine

/-! ### Lanes of a read -/

/-- Bit `i` of a read is bit `i % 8` of byte `i / 8` below the width, and 0 from there on (20_memory R49). -/
theorem joinLanes_getLsbD (byte : Nat → Byte) {n : Nat} (hn : n ≤ 4) (i : Nat) :
    (joinLanes byte n).getLsbD i = (decide (i < 8 * n) && (byte (i / 8)).getLsbD (i % 8)) := by
  induction n with
  | zero => simp [joinLanes]
  | succ n ih =>
    have hlow := ih (by omega)
    simp only [joinLanes, BitVec.getLsbD_or, hlow, BitVec.getLsbD_shiftLeft, BitVec.getLsbD_setWidth]
    by_cases hi : i < 8 * n
    · have : i < 8 * (n + 1) := by omega
      simp [hi, this]
    · by_cases hi' : i < 8 * (n + 1)
      · have hq : i / 8 = n := by omega
        have hr : i - 8 * n = i % 8 := by omega
        have h32 : i < 32 := by omega
        have h32' : i % 8 < 32 := by omega
        simp [hi, hi', hq, hr, h32, h32']
      · have : ∀ x : Byte, x.getLsbD (i - 8 * n) = false := fun x => BitVec.getLsbD_of_ge _ _ (by omega)
        simp [hi, hi', this]

theorem widthBytes_pos (w : Width) : 0 < widthBytes w := by cases w <;> decide

theorem widthBytes_le (w : Width) : widthBytes w ≤ 4 := by cases w <;> decide

/-- Lane `k` of a read is byte `k` (20_memory R49). -/
theorem joinLanes_lane (byte : Nat → Byte) {n k : Nat} (hn : n ≤ 4) (hk : k < n) :
    (joinLanes byte n).extractLsb' (8 * k) 8 = byte k := by
  refine BitVec.eq_of_getLsbD_eq fun i hi => ?_
  have hlt : 8 * k + i < 8 * n := by omega
  have hq : (8 * k + i) / 8 = k := by omega
  have hr : (8 * k + i) % 8 = i := by omega
  simp [joinLanes_getLsbD byte hn, hi, hlt, hq, hr]

/-- The bits above the width are 0 (20_memory R49). -/
theorem joinLanes_toNat_lt (byte : Nat → Byte) {n : Nat} (hn : n ≤ 4) : (joinLanes byte n).toNat < 2 ^ (8 * n) := by
  refine Nat.lt_pow_two_of_testBit _ fun i hi => ?_
  have hge : ¬ i < 8 * n := by omega
  have := joinLanes_getLsbD byte hn i
  simpa [hge, BitVec.getLsbD] using this

theorem joinLanes_congr {f g : Nat → Byte} {n : Nat} (h : ∀ k, k < n → f k = g k) : joinLanes f n = joinLanes g n := by
  induction n with
  | zero => rfl
  | succ n ih => simp only [joinLanes, ih fun k hk => h k (by omega), h n (by omega)]

@[simp] theorem joinLanes_zero (n : Nat) : joinLanes (fun _ => 0) n = 0 := by
  induction n with
  | zero => rfl
  | succ n ih => rw [joinLanes, ih]; simp

/-! ### The regions of the window -/

@[simp] theorem regionOf_offset (r : Reg) : regionOf r.offset = some .registers := by cases r <;> rfl

@[simp] theorem regAt_offset (r : Reg) : regAt r.offset = some r := by cases r <;> rfl

theorem Reg.offset_le (r : Reg) : r.offset ≤ 0x050 := by cases r <;> decide

theorem regAt_eq_none {off : Nat} (h : 0x050 < off) : regAt off = none :=
  List.find?_eq_none.2 fun r _ => by
    have := r.offset_le
    simp only [beq_iff_eq]
    omega

theorem regionOf_of_register {off : Nat} (h : off < 0x100) : regionOf off = some .registers := by
  rw [regionOf, if_pos h]

theorem regionOf_of_readback {off : Nat} (hlo : 0x100 ≤ off) (hhi : off < 0x180) : regionOf off = some .readback := by
  rw [regionOf, if_neg (by omega), if_pos hhi]

theorem regionOf_of_reserved {off : Nat} (hlo : 0x180 ≤ off) (hhi : off < 0x10000) : regionOf off = some .reserved := by
  rw [regionOf, if_neg (by omega), if_neg (by omega), if_pos hhi]

theorem regionOf_of_aperture {b : Buf} {off : Nat} (hlo : b.base ≤ off) (hhi : off < b.base + 0x10000) :
    regionOf off = some (.aperture b) := by
  cases b <;> simp only [Buf.base] at hlo hhi <;> unfold regionOf <;> simp (disch := omega) only [if_neg, if_pos]

end Sys2Proof.Machine
end

section
/-! The registers as the host sees them (10_state R19 to R33): what each reads, the fields of STATUS and ERRINFO, and what a
write to each does. -/

namespace Sys2Proof.Machine

/-! ### Registers -/

@[simp] theorem State.read_offset (s : State) (w : Width) (r : Reg) : s.read w r.offset = s.readReg r := by
  simp [State.read]

@[simp] theorem State.write_offset (s : State) (w : Width) (r : Reg) (v : Word) :
    s.write w r.offset v = s.writeReg r v := by
  simp [State.write]

/-- Reserved offsets read 0 (10_state R33). -/
theorem State.read_reserved (s : State) (w : Width) {off : Nat}
    (h : 0x054 ≤ off ∧ off < 0x100 ∨ 0x180 ≤ off ∧ off < 0x10000) : s.read w off = 0 := by
  rcases h with ⟨hlo, hhi⟩ | ⟨hlo, hhi⟩
  · simp [State.read, regionOf_of_register hhi, regAt_eq_none (show 0x050 < off by omega)]
  · simp [State.read, regionOf_of_reserved hlo hhi]

theorem zeroExtend_ofBool (b : Bool) : (BitVec.ofBool b).zeroExtend 32 = if b then 1 else 0 := by
  cases b <;> rfl

/-- Settles O41: each offset of R19 is that of its register (`read_offset`), and the reserved ranges hold none
(`read_reserved`). -/
theorem registerReads : Obligations.RegisterReads := by
  intro s
  have hflag : ∀ (r : Reg) (b : Bool), s.readReg r = (BitVec.ofBool b).zeroExtend 32 →
      s.read .w32 r.offset = if b then 1 else 0 := fun r b h => by
    rw [State.read_offset, h, zeroExtend_ofBool]
  exact ⟨s.read_offset _ .id, s.read_offset _ .cmd, s.read_offset _ .status, s.read_offset _ .errInfo,
    s.read_offset _ .errPos, hflag .intEn _ rfl, s.read_offset _ .inLen, s.read_offset _ .outLen,
    s.read_offset _ .pwLen, s.read_offset _ .saltLen, s.read_offset _ .ctLen, s.read_offset _ .iter,
    (s.read_offset _ .halg).trans (BitVec.ofNat_toNat _ _).symm, s.read_offset _ .saltgenLen,
    hflag .alphaStat _ rfl, hflag .caps _ rfl, s.read_offset _ .inCapR, s.read_offset _ .outCapR,
    s.read_offset _ .pwCapR, s.read_offset _ .saltCapR, s.read_offset _ .ctCapR, fun _ h => s.read_reserved _ h⟩

/-! ### The fields of STATUS and ERRINFO -/

/-- A field of a register from the register's bits. -/
theorem extractLsb'_eq_of_bits {x : Word} {n k : Nat} {y : BitVec n}
    (h : ∀ i, i < n → x.getLsbD (k + i) = y.getLsbD i) : x.extractLsb' k n = y :=
  BitVec.eq_of_getLsbD_eq fun i hi => by simp [hi, h i hi]

/-- The bits of ERRINFO (10_state R23). -/
theorem ErrInfo.word_getLsbD (e : ErrInfo) (i : Nat) : e.word.getLsbD i =
    if i < 8 then e.sym.getLsbD i else if i < 11 then e.alpha.getLsbD (i - 8) else if i < 12 then false
    else if i < 14 then e.seg.getLsbD (i - 12) else if i < 16 then false else if i < 20 then e.sub.getLsbD (i - 16)
    else if i < 24 then false else e.val.getLsbD (i - 24) := by
  have hlt : ∀ a b, 0 < b → (i - a < b ↔ i < a + b) := by omega
  unfold ErrInfo.word
  rw [BitVec.getLsbD_append, BitVec.getLsbD_append, BitVec.getLsbD_append, BitVec.getLsbD_append,
    BitVec.getLsbD_append, BitVec.getLsbD_append, BitVec.getLsbD_append]
  simp (disch := decide) only [Nat.sub_sub, Nat.reduceAdd, hlt, BitVec.ofNat_eq_ofNat, BitVec.getLsbD_zero]

/-- Settles O43, from the bits of ERRINFO (`ErrInfo.word_getLsbD`). -/
theorem errInfoFields : Obligations.ErrInfoFields := by
  intro e
  refine ⟨extractLsb'_eq_of_bits ?_, extractLsb'_eq_of_bits ?_, e.word_getLsbD 11, extractLsb'_eq_of_bits ?_,
    extractLsb'_eq_of_bits ?_, extractLsb'_eq_of_bits ?_, extractLsb'_eq_of_bits ?_, extractLsb'_eq_of_bits ?_⟩
  all_goals
    intro i hi
    rw [ErrInfo.word_getLsbD]
    simp (disch := omega) [if_pos, if_neg]

/-- The bits of STATUS (10_state R22). -/
theorem State.status_getLsbD (s : State) (i : Nat) : s.status.getLsbD i =
    if i < 1 then (BitVec.ofBool s.busy).getLsbD i else if i < 2 then (BitVec.ofBool s.done).getLsbD (i - 1)
    else if i < 3 then (BitVec.ofBool s.err).getLsbD (i - 2) else if i < 4 then (BitVec.ofBool s.werr).getLsbD (i - 3)
    else if i < 8 then false else if i < 16 then s.errCode.byte.getLsbD (i - 8)
    else if i < 24 then s.lastOp.getLsbD (i - 16) else false := by
  have hlt : ∀ a b, 0 < b → (i - a < b ↔ i < a + b) := by omega
  unfold State.status
  rw [BitVec.getLsbD_append, BitVec.getLsbD_append, BitVec.getLsbD_append, BitVec.getLsbD_append,
    BitVec.getLsbD_append, BitVec.getLsbD_append, BitVec.getLsbD_append]
  simp (disch := decide) only [Nat.sub_sub, Nat.reduceAdd, hlt, BitVec.ofNat_eq_ofNat, BitVec.getLsbD_zero]

theorem ErrCode.byte_eq_zero_iff (c : ErrCode) : c.byte = 0 ↔ c = .noError := by cases c <;> decide

theorem State.err_iff (s : State) : s.err = true ↔ s.errCode ≠ .noError := by
  rw [State.err, bne_iff_ne, ne_eq, ErrCode.byte_eq_zero_iff]

/-- Settles O42, from the bits of STATUS (`State.status_getLsbD`), BUSY and ERR being what `busy_iff` and `err_iff` say. -/
theorem statusFields : Obligations.StatusFields := by
  refine ⟨rfl, fun s => ?_⟩
  rw [← State.busy_iff, ← State.err_iff]
  refine ⟨?busy, ?done, ?err, ?werr, extractLsb'_eq_of_bits ?zeros, extractLsb'_eq_of_bits ?errCode,
    extractLsb'_eq_of_bits ?lastOp, extractLsb'_eq_of_bits ?top⟩
  case busy | done | err | werr =>
    rw [State.status_getLsbD]
    simp
  case zeros | errCode | lastOp | top =>
    intro i hi
    rw [State.status_getLsbD]
    simp (disch := omega) [if_pos, if_neg]

/-! ### Writes to the registers -/

theorem State.unlessBusy_of_idle {s : State} (h : s.phase = .idle) (t : State) : s.unlessBusy t = t := by
  simp [State.unlessBusy, State.busy, h]

theorem regAt_eq_some {off : Nat} {r : Reg} (h : regAt off = some r) : r.offset = off := by
  simpa using List.find?_some h

/-- ALPHA_STAT, CAPS and the capacity registers are read-only. -/
theorem State.writeReg_of_offset_ge {r : Reg} (h : 0x038 ≤ r.offset) (s : State) (v : Word) : s.writeReg r v = s := by
  cases r
  case alphaStat | caps | inCapR | outCapR | pwCapR | saltCapR | ctCapR => rfl
  all_goals exact absurd h (by decide)

/-- From ALPHA_STAT up to the first aperture nothing is writable (10_state R30 to R33, R41). -/
theorem State.write_of_not_writable (s : State) (w : Width) {off : Nat} (v : Word) (hlo : 0x038 ≤ off)
    (hhi : off < 0x10000) : s.write w off v = s := by
  by_cases hreg : off < 0x100
  · simp only [State.write, regionOf_of_register hreg]
    split
    · rename_i r hr
      exact State.writeReg_of_offset_ge (by rw [regAt_eq_some hr]; exact hlo) s v
    · rfl
  · by_cases hrb : off < 0x180
    · simp only [State.write, regionOf_of_readback (Nat.not_lt.1 hreg) hrb]
    · simp only [State.write, regionOf_of_reserved (Nat.not_lt.1 hrb) hhi]

/-- The host cannot write OUT_BUF (10_state R35). -/
theorem State.write_outBuf (s : State) (w : Width) {off : Nat} (v : Word) (hlo : 0x20000 ≤ off)
    (hhi : off < 0x30000) : s.write w off v = s := by
  have hregion : regionOf off = some (.aperture .outBuf) := regionOf_of_aperture hlo hhi
  simp [State.write, hregion, State.writeAperture, hostWritable]

theorem State.writeStatus_eq (s : State) (v : Word) : s.writeStatus v = { s with
    done := if v.getLsbD 1 then false else s.done, werr := if v.getLsbD 3 then false else s.werr } := by
  have hclear : ∀ b c : Bool, (b && !c) = if c then false else b := by decide
  simp only [State.writeStatus, hclear]

/-- Settles O44: in the idle phase no write is dropped (`unlessBusy_of_idle`), and the offsets named last hold nothing
the host can write. -/
theorem registerWrites : Obligations.RegisterWrites := by
  intro s v
  refine ⟨(s.write_offset _ .status v).trans (s.writeStatus_eq v), s.write_offset _ .intEn v, fun hidle => ?_, ?_⟩
  · have hset : ∀ (r : Reg) (t : State), s.writeReg r v = s.unlessBusy t → s.write .w32 r.offset v = t := fun r t h => by
      rw [State.write_offset, h, State.unlessBusy_of_idle hidle]
    exact ⟨hset .inLen _ rfl, hset .pwLen _ rfl, hset .saltLen _ rfl, hset .ctLen _ rfl, hset .iter _ rfl,
      hset .halg _ rfl, hset .saltgenLen _ rfl⟩
  · rintro off (rfl | rfl | rfl | rfl | ⟨hlo, hhi⟩ | ⟨hlo, hhi⟩) w
    · exact s.write_offset w .id v
    · exact s.write_offset w .errInfo v
    · exact s.write_offset w .errPos v
    · exact s.write_offset w .outLen v
    · exact s.write_of_not_writable w v hlo hhi
    · exact s.write_outBuf w v hlo hhi

end Sys2Proof.Machine
end

section
/-! The readback window (10_state R41) and the buffer apertures (10_state R34 to R38), lane by lane. -/

namespace Sys2Proof.Machine

/-! ### The readback window -/

/-- The offset of an alphabet's readback window (20_memory R44, 10_state R41). -/
def readbackWindow : AlphaId → Nat
  | .rfc4648 => 0x100
  | .crockford => 0x120
  | .wordsafe => 0x140
  | .custom => 0x160

theorem readbackAlpha_window (id : AlphaId) {x : Nat} (hx : x < 32) : readbackAlpha (readbackWindow id + x) = id := by
  cases id <;> simp only [readbackWindow] <;> simp (disch := omega) only [readbackAlpha, if_pos, if_neg]

/-- A window starts at a multiple of 32, so an offset's low five bits are the index in its table. -/
theorem symbolAt_window (t : Table) (id : AlphaId) {x : Nat} (hx : x < 32) :
    symbolAt t (BitVec.ofNat 5 (readbackWindow id + x)) = t.syms.getD x 0 := by
  have hmod : (readbackWindow id + x) % 2 ^ 5 = x := by
    cases id <;> simp only [readbackWindow] <;> omega
  rw [symbolAt, BitVec.toNat_ofNat, hmod]

theorem State.read_readback (s : State) (w : Width) {off : Nat} (hlo : 0x100 ≤ off) (hhi : off < 0x180) :
    s.read w off =
      joinLanes (fun k => symbolAt (s.alpha (readbackAlpha (off + k))) (BitVec.ofNat 5 (off + k))) (widthBytes w) := by
  simp only [State.read, regionOf_of_readback hlo hhi]

/-- Lane `k` of a read in an alphabet's window (10_state R41, 20_memory R49). -/
theorem State.read_window_lane (s : State) (w : Width) (id : AlphaId) {v k : Nat} (hv : v + k < 32)
    (hk : k < widthBytes w) :
    (s.read w (readbackWindow id + v)).extractLsb' (8 * k) 8 = (s.alpha id).syms.getD (v + k) 0 := by
  have hlo : 0x100 ≤ readbackWindow id + v := by cases id <;> simp only [readbackWindow] <;> omega
  have hhi : readbackWindow id + v < 0x180 := by cases id <;> simp only [readbackWindow] <;> omega
  rw [s.read_readback w hlo hhi, joinLanes_lane _ (widthBytes_le w) hk, Nat.add_assoc, readbackAlpha_window id hv,
    symbolAt_window _ id hv]

/-- Settles O45: an aligned read stays within one window (`read_window_lane`). -/
theorem readbackShowsTheTables : Obligations.ReadbackShowsTheTables := by
  refine fun s w => ⟨fun v k hv hw hk => ?_, fun off hlo hhi => ⟨?_, fun x => ?_⟩⟩
  · have hvk : v + k < 32 := by cases w <;> simp only [widthBytes] at hw hk <;> omega
    exact ⟨s.read_window_lane w .rfc4648 hvk hk, s.read_window_lane w .crockford hvk hk,
      s.read_window_lane w .wordsafe hvk hk, s.read_window_lane w .custom hvk hk⟩
  · rw [s.read_readback w hlo hhi]
    exact joinLanes_toNat_lt _ (widthBytes_le w)
  · exact s.write_of_not_writable w x (by omega) (by omega)

/-! ### The apertures -/

theorem State.read_aperture (s : State) (b : Buf) (w : Width) {off : Nat} (hlo : b.base ≤ off)
    (hhi : off + widthBytes w ≤ b.base + 0x10000) :
    s.read w off = joinLanes (fun k => s.apertureByte b (off - b.base + k)) (widthBytes w) := by
  have hregion : regionOf off = some (.aperture b) := regionOf_of_aperture hlo (by have := widthBytes_pos w; omega)
  simp only [State.read, hregion]

/-- Settles O47, lane by lane (`joinLanes_lane`). -/
theorem bufferReadsAreLittleEndian : Obligations.BufferReadsAreLittleEndian := by
  intro s b w off k hb hlo hhi
  rw [s.read_aperture b w hlo hhi]
  refine ⟨fun hk => ?_, joinLanes_toNat_lt _ (widthBytes_le w)⟩
  have hindex : off - b.base + k = off + k - b.base := by omega
  have hcap : off + k - b.base < b.cap s.cfg ↔ off + k < b.base + b.cap s.cfg := by omega
  rw [joinLanes_lane _ (widthBytes_le w) hk, State.apertureByte, if_neg hb, hindex]
  simp only [hcap]

/-- Settles O48: every lane of PW_BUF reads 0, so their join does. -/
theorem passwordReadsZero : Obligations.PasswordReadsZero := by
  intro s w off hlo hhi
  rw [s.read_aperture .pwBuf w hlo hhi]
  exact joinLanes_zero _

end Sys2Proof.Machine
end

section
/-! The frame of the commands that write OUT_BUF (10_state R27, R35): `exec_spec` says what they write. -/

namespace Sys2Proof.Machine

/-- A length that fits OUT_BUF is not cut off in OUT_LEN. -/
theorem State.putOut_outLen_toNat {s : State} {v : List Byte} (hv : v.length ≤ s.cfg.outCap) :
    (s.putOut v).outLen.toNat = v.length := by
  have hcap := Buf.cap_le s.cfg .outBuf
  simp only [Buf.cap] at hcap
  rw [State.putOut_outLen, BitVec.toNat_ofNat, Nat.mod_eq_of_lt (by omega)]

theorem State.read?_putOut (s : State) (v : List Byte) (a : Nat) (ha : ¬(0x20000 ≤ a ∧ a < 0x20000 + v.length)) :
    Memory.read? (s.putOut v).mem a = Memory.read? s.mem a := by
  rw [State.putOut_mem, Memory.read?_writeList, if_neg ha]

/-- The commands whose result goes to OUT_BUF. -/
theorem Effect.exists_putOut {i : Instr} {s t : State} (h : Effect i s t)
    (hi : (∃ a, i = .b32Encode a) ∨ (∃ a, i = .b32Decode a) ∨ i = .envSerialize ∨ i = .envEncrypt ∨ i = .envDecrypt) :
    ∃ v : List Byte, v.length ≤ s.cfg.outCap ∧ t = s.putOut v := by
  rcases hi with ⟨a, rfl⟩ | ⟨a, rfl⟩ | rfl | rfl | rfl <;> exact h

/-- Settles O36: by `exec_spec` an error leaves all destinations alone, and a success writes OUT_BUF and OUT_LEN only
(`exists_putOut`). -/
theorem outputCommandsFrame : Obligations.OutputCommandsFrame := by
  intro i s t hi ht
  obtain ⟨r, hr, he⟩ := exec_spec i s
  obtain rfl := Host.Outcome.next.inj (he.symm.trans ht)
  have hdraw : i ≠ .envEncrypt → (if i = .envEncrypt then s.rngDraw + 1 else s.rngDraw) = s.rngDraw :=
    fun hne => if_neg hne
  cases r with
  | error e => exact ⟨rfl, hdraw, fun _ _ => rfl, fun _ => ⟨rfl, fun _ => rfl⟩⟩
  | ok u =>
    obtain ⟨v, hv, rfl⟩ := Effect.exists_putOut hr hi
    refine ⟨rfl, hdraw, fun a ha => s.read?_putOut v a ?_, fun herr => absurd rfl herr⟩
    rwa [← State.putOut_outLen_toNat hv]

end Sys2Proof.Machine
end

section
/-! The password does not leak (10_state R36): two blocks that differ only in PW_BUF. No read shows PW_BUF, no access and no
command but ENV_ENCRYPT and ENV_DECRYPT lets its bytes into anything else, so the relation is kept. -/

namespace Sys2Proof.Machine

/-! ### What both states read alike -/

/-- A buffer byte outside PW_BUF is one byte for both: the apertures are 0x10000 apart. -/
theorem SameButPassword.bufByte {s t : State} (h : SameButPassword s t) {b : Buf} (hb : b ≠ .pwBuf) {i : Nat}
    (hi : i < 65536) : t.bufByte b i = s.bufByte b i := by
  obtain ⟨ht, hmem⟩ := h
  refine State.bufByte_congr (by rw [ht]) (hmem _ ?_)
  cases b
  case pwBuf => exact absurd rfl hb
  all_goals simp only [Buf.base]; omega

theorem SameButPassword.readBuf {s t : State} (h : SameButPassword s t) (b : Buf) (hb : b ≠ .pwBuf) {n : Nat}
    (hn : n ≤ 65536) : t.readBuf b n = s.readBuf b n :=
  State.readBuf_congr fun _ hi => h.bufByte hb (by omega)

/-- The second state is the first with another memory. -/
theorem SameButPassword.exists_mem {s t : State} (h : SameButPassword s t) : ∃ m, t = { s with mem := m } ∧
    ∀ a, ¬(0x30000 ≤ a ∧ a < 0x40000) → Memory.read? m a = Memory.read? s.mem a := ⟨t.mem, h⟩

theorem SameButPassword.cfg {s t : State} (h : SameButPassword s t) : t.cfg = s.cfg := by rw [h.1]

theorem SameButPassword.inLen {s t : State} (h : SameButPassword s t) : t.inLen = s.inLen := by rw [h.1]

theorem SameButPassword.customValid {s t : State} (h : SameButPassword s t) : t.customValid = s.customValid := by
  rw [h.1]

theorem SameButPassword.apertureByte {s t : State} (h : SameButPassword s t) (b : Buf) (i : Nat) :
    t.apertureByte b i = s.apertureByte b i := by
  unfold State.apertureByte
  rw [h.cfg]
  split
  · rfl
  · split
    · exact h.bufByte ‹_› (Nat.lt_of_lt_of_le ‹_› (Buf.cap_le s.cfg b))
    · rfl

theorem SameButPassword.readReg {s t : State} (h : SameButPassword s t) (r : Reg) : t.readReg r = s.readReg r := by
  rw [h.1]
  cases r <;> rfl

theorem SameButPassword.alpha {s t : State} (h : SameButPassword s t) (id : AlphaId) : t.alpha id = s.alpha id := by
  rw [h.1]
  cases id <;> rfl

theorem SameButPassword.read {s t : State} (h : SameButPassword s t) (w : Width) (off : Nat) :
    t.read w off = s.read w off := by
  unfold State.read
  split
  · rfl
  · split
    · exact h.readReg _
    · rfl
  · rfl
  · simp only [h.alpha]
  · exact joinLanes_congr fun k _ => h.apertureByte _ _

/-! ### Accesses keep the relation -/

theorem SameButPassword.unlessBusy {s t s' t' : State} (h : SameButPassword s t) (h' : SameButPassword s' t') :
    SameButPassword (s.unlessBusy s') (t.unlessBusy t') := by
  obtain ⟨m, rfl, hm⟩ := h.exists_mem
  have hbusy : { s with mem := m }.busy = s.busy := rfl
  unfold State.unlessBusy
  rw [hbusy]
  split
  · exact ⟨rfl, hm⟩
  · exact h'

theorem SameButPassword.writeReg {s t : State} (h : SameButPassword s t) (r : Reg) (v : Word) :
    SameButPassword (s.writeReg r v) (t.writeReg r v) := by
  obtain ⟨m, rfl, hm⟩ := h.exists_mem
  cases r
  case cmd | inLen | pwLen | saltLen | ctLen | iter | halg | saltgenLen => exact h.unlessBusy ⟨rfl, hm⟩
  all_goals exact ⟨rfl, hm⟩

theorem SameButPassword.writeLanes {s t : State} (h : SameButPassword s t) (base cap i n : Nat) (v : Word) :
    SameButPassword { s with mem := writeLanes s.mem base cap i v n }
      { t with mem := writeLanes t.mem base cap i v n } := by
  obtain ⟨m, rfl, hm⟩ := h.exists_mem
  refine ⟨rfl, fun a ha => ?_⟩
  rw [Memory.read?_writeLanes, Memory.read?_writeLanes, hm a ha]

theorem SameButPassword.writeAperture {s t : State} (h : SameButPassword s t) (b : Buf) (i n : Nat) (v : Word) :
    SameButPassword (s.writeAperture b i n v) (t.writeAperture b i n v) := by
  have hcap : b.cap t.cfg = b.cap s.cfg := by rw [h.cfg]
  unfold State.writeAperture
  rw [hcap]
  split
  · exact h.unlessBusy (h.writeLanes _ _ _ _ _)
  · exact h

theorem SameButPassword.write {s t : State} (h : SameButPassword s t) (w : Width) (off : Nat) (v : Word) :
    SameButPassword (s.write w off v) (t.write w off v) := by
  unfold State.write
  split
  · exact h
  · split
    · exact h.writeReg _ v
    · exact h
  · exact h
  · exact h
  · exact h.writeAperture _ _ _ v

theorem SameButPassword.access {s t : State} (h : SameButPassword s t) (a : Access) :
    (t.access a).2 = (s.access a).2 ∧ SameButPassword (s.access a).1 (t.access a).1 := by
  have hrst : t.rst = s.rst := by rw [h.1]
  unfold State.access
  rw [hrst]
  split
  · exact ⟨rfl, h⟩
  · cases a with
    | read w off => exact ⟨by simp only [h.read], h⟩
    | write w off v => exact ⟨rfl, h.write w off v⟩

/-! ### Completion steps keep the relation -/

/-- Two results with the same error, or with written states that differ only in PW_BUF. -/
inductive SameResult : Except Raise State → Except Raise State → Prop where
  | error (e : Raise) : SameResult (.error e) (.error e)
  | ok {s t : State} (h : SameButPassword s t) : SameResult (.ok s) (.ok t)

theorem SameButPassword.complete {s t : State} (h : SameButPassword s t) (op : Byte) (code : ErrCode) (info : ErrInfo)
    (pos : Word) : SameButPassword (s.complete op code info pos) (t.complete op code info pos) := by
  obtain ⟨m, rfl, hm⟩ := h.exists_mem
  exact ⟨rfl, hm⟩

theorem SameResult.finish {s t : State} {r r' : Except Raise State} (hr : SameResult r r') (h : SameButPassword s t)
    (op : Byte) : SameButPassword (s.finish op r) (t.finish op r') := by
  cases hr with
  | error e => exact h.complete op _ _ _
  | ok h' => exact h'.complete op _ _ _

/-- A command takes IN_LEN bytes of IN_BUF only once IN_LEN is in range, so it cannot read past the buffer. -/
theorem SameButPassword.input {s t : State} (h : SameButPassword s t) (hlen : s.inLen.toNat ≤ s.cfg.inCap) :
    t.input = s.input := by
  unfold State.input
  rw [h.inLen]
  exact h.readBuf .inBuf nofun (hlen.trans (Buf.cap_le s.cfg .inBuf))

theorem SameButPassword.salt {s t : State} (h : SameButPassword s t) (hlen : s.saltLen.toNat ≤ s.cfg.saltCap) :
    t.salt = s.salt := by
  have heq : t.saltLen = s.saltLen := by rw [h.1]
  unfold State.salt
  rw [heq]
  exact h.readBuf .saltBuf nofun (hlen.trans (Buf.cap_le s.cfg .saltBuf))

theorem SameButPassword.ciphertext {s t : State} (h : SameButPassword s t) (hlen : s.ctLen.toNat ≤ s.cfg.ctCap) :
    t.ciphertext = s.ciphertext := by
  have heq : t.ctLen = s.ctLen := by rw [h.1]
  unfold State.ciphertext
  rw [heq]
  exact h.readBuf .ctBuf nofun (hlen.trans (Buf.cap_le s.cfg .ctBuf))

theorem SameButPassword.inputTable {s t : State} (h : SameButPassword s t) : t.inputTable = s.inputTable := by
  simp only [State.inputTable, h.readBuf .inBuf nofun (show 32 ≤ 65536 by omega)]

theorem SameButPassword.writeBuf {s t : State} (h : SameButPassword s t) (b : Buf) (v : List Byte) :
    SameButPassword (s.writeBuf b v) (t.writeBuf b v) := by
  obtain ⟨m, rfl, hm⟩ := h.exists_mem
  refine ⟨rfl, fun a ha => ?_⟩
  rw [State.writeBuf_mem, State.writeBuf_mem, Memory.read?_writeList, Memory.read?_writeList, hm a ha]

theorem SameButPassword.putOut {s t : State} (h : SameButPassword s t) (v : List Byte) :
    SameButPassword (s.putOut v) (t.putOut v) := by
  obtain ⟨m, hw, hm⟩ := (h.writeBuf .outBuf v).exists_mem
  unfold State.putOut
  rw [hw]
  exact ⟨rfl, hm⟩

theorem SameButPassword.putFields {s t : State} (h : SameButPassword s t) (f : Fields) :
    SameButPassword (s.putFields f) (t.putFields f) := by
  obtain ⟨m, hw, hm⟩ := ((h.writeBuf .saltBuf f.salt).writeBuf .ctBuf f.ct).exists_mem
  unfold State.putFields
  rw [hw]
  exact ⟨rfl, hm⟩

theorem SameButPassword.outResult {s t : State} (h : SameButPassword s t) (v : List Byte) :
    SameResult (outResult s v) (outResult t v) := by
  unfold Machine.outResult
  rw [h.cfg]
  split
  · exact .error _
  · exact .ok (h.putOut v)

theorem SameButPassword.alphaLoadResult {s t : State} (h : SameButPassword s t) :
    SameResult (alphaLoadResult s) (alphaLoadResult t) := by
  unfold Machine.alphaLoadResult
  rw [h.inLen, h.inputTable]
  split
  · exact .error _
  · split
    · exact .error _
    · obtain ⟨m, rfl, hm⟩ := h.exists_mem
      exact .ok ⟨rfl, hm⟩

theorem SameButPassword.b32EncodeResult {s t : State} (h : SameButPassword s t) (id : AlphaId) :
    SameResult (b32EncodeResult s id) (b32EncodeResult t id) := by
  unfold Machine.b32EncodeResult
  rw [h.customValid, h.inLen, h.cfg, h.alpha]
  split
  · exact .error _
  · split
    · exact .error _
    · rw [h.input (Nat.not_lt.1 ‹_›)]
      exact h.outResult _

theorem SameButPassword.b32DecodeResult {s t : State} (h : SameButPassword s t) (id : AlphaId) :
    SameResult (b32DecodeResult s id) (b32DecodeResult t id) := by
  unfold Machine.b32DecodeResult
  rw [h.customValid, h.inLen, h.cfg, h.alpha]
  split
  · exact .error _
  · split
    · exact .error _
    · rw [h.input (Nat.not_lt.1 ‹_›)]
      split
      · exact .error _
      · exact h.outResult _

theorem SameButPassword.envSerializeResult {s t : State} (h : SameButPassword s t) :
    SameResult (envSerializeResult s) (envSerializeResult t) := by
  have hsalt : t.saltLen = s.saltLen := by rw [h.1]
  have hct : t.ctLen = s.ctLen := by rw [h.1]
  have hiter : t.iter = s.iter := by rw [h.1]
  have htag : t.halgTag = s.halgTag := by rw [h.1]
  unfold Machine.envSerializeResult
  rw [hsalt, hct, hiter, htag, h.cfg]
  split
  · exact .error _
  · split
    · exact .error _
    · rw [h.salt (Nat.not_lt.1 ‹_›), h.ciphertext (Nat.not_lt.1 ‹_›)]
      split
      · exact .error _
      · split
        · exact .error _
        · exact h.outResult _

theorem SameButPassword.envParseResult {s t : State} (h : SameButPassword s t) :
    SameResult (envParseResult s) (envParseResult t) := by
  unfold Machine.envParseResult
  rw [h.inLen, h.cfg]
  split
  · exact .error _
  · rw [h.input (Nat.not_lt.1 ‹_›)]
    split
    · exact .error _
    · exact .ok (h.putFields _)

theorem SameButPassword.resetRegs {s t : State} (h : SameButPassword s t) :
    SameButPassword s.resetRegs t.resetRegs := by
  obtain ⟨m, rfl, hm⟩ := h.exists_mem
  exact ⟨rfl, hm⟩

theorem SameButPassword.exec {s t : State} (h : SameButPassword s t) {i : Instr} (henc : i ≠ .envEncrypt)
    (hdec : i ≠ .envDecrypt) :
    ∃ s' t', exec i s = .next s' ∧ exec i t = .next t' ∧ SameButPassword s' t' := by
  cases i with
  | nop => exact ⟨_, _, rfl, rfl, (SameResult.ok h).finish h _⟩
  | alphaLoad => exact ⟨_, _, rfl, rfl, h.alphaLoadResult.finish h _⟩
  | b32Encode a =>
    refine ⟨_, _, rfl, rfl, SameResult.finish ?_ h _⟩
    split
    · exact .error _
    · exact h.b32EncodeResult _
  | b32Decode a =>
    refine ⟨_, _, rfl, rfl, SameResult.finish ?_ h _⟩
    split
    · exact .error _
    · exact h.b32DecodeResult _
  | envSerialize => exact ⟨_, _, rfl, rfl, h.envSerializeResult.finish h _⟩
  | envParse => exact ⟨_, _, rfl, rfl, h.envParseResult.finish h _⟩
  | envEncrypt => exact absurd rfl henc
  | envDecrypt => exact absurd rfl hdec
  | softReset => exact ⟨_, _, rfl, rfl, (SameResult.ok h.resetRegs).finish h _⟩

/-- Settles O49: every access is answered alike and keeps the relation (`SameButPassword.access`), and so does every command
that does not give the password to the KDF (`SameButPassword.exec`). -/
theorem passwordDoesNotLeak : Obligations.PasswordDoesNotLeak := by
  intro s t h
  refine ⟨h.access, fun i henc hdec s' hs => ?_⟩
  obtain ⟨u, t', hu, ht, h'⟩ := h.exec henc hdec
  obtain rfl := Host.Outcome.next.inj (hu.symm.trans hs)
  exact ⟨t', ht, h'⟩

end Sys2Proof.Machine
end

section
/-! The invariant is kept: a lemma for each operation on the state, and then for every access, completion step and move of
the reset input. -/

namespace Sys2Proof.Machine

/-! ### The surroundings of the block -/

theorem State.Inv.popTurn {s : State} (h : s.Inv) : s.popTurn.Inv := { h with }

theorem State.Inv.hostBookkeeping {s : State} (h : s.Inv) (d : Word) (n : Nat) :
    { s with readData := d, hpc := n }.Inv := { h with }

/-! ### Host accesses -/

theorem State.Inv.writeStatus {s : State} (h : s.Inv) (v : Word) : (s.writeStatus v).Inv :=
  { h with busy_not_done := fun hb => by simp [State.writeStatus, h.busy_not_done hb] }

/-- Issue clears DONE (70_reset R135); it needs rst deasserted, since it leaves the idle phase. -/
theorem State.Inv.issue {s : State} (h : s.Inv) (hr : s.rst = false) (w : Word) : (s.issue w).Inv :=
  { h with
    busy_not_done := fun _ => rfl
    reset_idle := fun hr' => absurd hr' (by simp [hr]) }

theorem State.Inv.writeLanes {s : State} (h : s.Inv) (b : Buf) (i n : Nat) (v : Word) :
    { s with mem := writeLanes s.mem b.base (b.cap s.cfg) i v n }.Inv :=
  { h with
    mem_wf := Memory.wf_writeLanes h.mem_wf _ _ _ _ _
    mem_in_buffers := fun c hc => (Memory.mem_writeLanes hc).elim (fun hb => ⟨b, hb⟩) (h.mem_in_buffers c) }

theorem State.Inv.write {s : State} (h : s.Inv) (hr : s.rst = false) (w : Width) (off : Nat) (v : Word) :
    (s.write w off v).Inv := by
  rcases s.write_cases w off v with e | e | e | ⟨-, e⟩ | ⟨-, e | ⟨_, _, _, _, _, _, _, e⟩ | ⟨b, i, n, -, e⟩⟩ <;> rw [e]
  · exact h
  · exact h.writeStatus v
  · exact { h with }
  · exact { h with }
  · exact h.issue hr v
  · exact { h with }
  · exact h.writeLanes b i n v

theorem State.Inv.access {s : State} (h : s.Inv) (a : Access) : (s.access a).1.Inv := by
  rcases s.access_cases a with ⟨-, e⟩ | ⟨hr, -, ⟨w, off, -, e⟩ | ⟨w, off, v, -, e⟩⟩ <;> rw [e]
  · exact h
  · exact h
  · exact h.write hr w off v

/-! ### The destinations of the commands -/

theorem State.Inv.writeBuf {s : State} (h : s.Inv) (b : Buf) {v : List Byte} (hv : v.length ≤ b.cap s.cfg) :
    (s.writeBuf b v).Inv :=
  { h with
    mem_wf := Memory.wf_writeList h.mem_wf _ _
    mem_in_buffers := fun c hc =>
      (Memory.mem_writeList hc).elim (fun hb => ⟨b, hb.1, by simp only [State.writeBuf_cfg]; omega⟩) (h.mem_in_buffers c) }

theorem State.Inv.putOut {s : State} (h : s.Inv) {v : List Byte} (hv : v.length ≤ s.cfg.outCap) : (s.putOut v).Inv :=
  { h.writeBuf .outBuf hv with out_fits := by rw [State.putOut_outLen_toNat hv]; exact hv }

theorem State.Inv.putFields {s : State} (h : s.Inv) {f : Fields} (hsalt : f.salt.length ≤ s.cfg.saltCap)
    (hct : f.ct.length ≤ s.cfg.ctCap) : (s.putFields f).Inv :=
  { (h.writeBuf .saltBuf hsalt).writeBuf .ctBuf hct with }

theorem State.Inv.loadTable {s : State} (h : s.Inv) {a : Table} (ha : a.Valid) :
    { s with customTable := a, customValid := true }.Inv :=
  { h with
    custom_distinct := fun _ => ha
    custom_unloaded := nofun }

theorem State.Inv.resetRegs {s : State} (h : s.Inv) : s.resetRegs.Inv :=
  { h with
    custom_distinct := nofun
    custom_unloaded := fun _ => rfl
    success_clears := fun _ => ⟨rfl, rfl⟩
    out_fits := Nat.zero_le _
    busy_not_done := fun _ => rfl
    reset_idle := fun _ => rfl }

theorem Effect.inv {i : Instr} {s t : State} (he : Effect i s t) (h : s.Inv) : t.Inv := by
  cases i
  case nop => exact he ▸ h
  case softReset => exact he ▸ h.resetRegs
  case alphaLoad => obtain ⟨hvalid, rfl⟩ := he; exact h.loadTable hvalid
  case envParse => obtain ⟨f, hsalt, hct, rfl⟩ := he; exact h.putFields hsalt hct
  all_goals obtain ⟨v, hv, rfl⟩ := he; exact h.putOut hv

/-! ### Completion steps -/

/-- The status writes of a completion step: the block is idle with DONE set, and a success clears ERRINFO and ERRPOS. -/
theorem State.Inv.complete {s : State} (h : s.Inv) (op : Byte) {code : ErrCode} {info : ErrInfo} {pos : Word}
    (hc : code = .noError → info = {} ∧ pos = 0) : (s.complete op code info pos).Inv :=
  { h with
    success_clears := hc
    busy_not_done := fun hb => absurd rfl hb
    reset_idle := fun _ => rfl }

theorem State.Inv.finish {i : Instr} {s : State} (h : s.Inv) {r : Except Raise State} (hr : Ends (Effect i s) r)
    (op : Byte) : (s.finish op r).Inv := by
  cases r with
  | error e => exact h.complete op fun hc => absurd hc hr
  | ok t =>
    have ht : Effect i s t := hr
    exact (ht.inv h).complete op fun _ => ⟨rfl, rfl⟩

theorem State.Inv.exec {i : Instr} {s t : State} (h : s.Inv) (ht : exec i s = .next t) : t.Inv := by
  obtain ⟨r, hr, he⟩ := exec_spec i s
  obtain rfl := Host.Outcome.next.inj (he.symm.trans ht)
  exact { h.finish hr i.opcode with }

theorem State.Inv.completeWord {s t : State} {w : Word} (h : s.Inv) (ht : s.completeWord w = .next t) : t.Inv := by
  rcases s.completeWord_cases w with ⟨i, -, hi⟩ | ⟨-, hraise⟩
  · exact h.exec (hi.symm.trans ht)
  · obtain rfl := Host.Outcome.next.inj (hraise.symm.trans ht)
    exact h.complete _ nofun

/-! ### The reset input -/

/-- The reset input empties memory, so nothing is left to check in it. -/
theorem State.Inv.hardReset {s : State} (h : s.Inv) : s.hardReset.Inv :=
  { h.resetRegs with
    mem_wf := List.Pairwise.nil
    mem_in_buffers := nofun }

theorem State.Inv.assertRst {s : State} (h : s.Inv) : s.assertRst.Inv :=
  { h.hardReset with reset_idle := fun _ => rfl }

theorem State.Inv.deassertRst {s : State} (h : s.Inv) : s.deassertRst.Inv := by
  unfold State.deassertRst
  split
  · exact { h.hardReset with reset_idle := nofun }
  · exact h

/-! ### Every step -/

/-- Settles O56: by `step_cases` a step takes a turn, makes a host access, completes a command or moves the reset input, and
each of these keeps the invariant. -/
theorem stepKeepsInvariant : Obligations.StepKeepsInvariant := by
  intro s t h hstep
  rcases step_cases hstep with rfl | ⟨a, -, ht⟩ | ⟨w, -, -, hw⟩ | rfl | rfl
  · exact h.popTurn
  · exact ht ▸ (h.popTurn.access a).hostBookkeeping _ _
  · exact h.popTurn.completeWord hw
  · exact h.popTurn.assertRst
  · exact h.popTurn.deassertRst

end Sys2Proof.Machine
end

section
/-! Host accesses (20_memory R44 to R52): which of them get the error response, and what each leaves unchanged. -/

namespace Sys2Proof.Machine

/-! ### The lanes of a write to a buffer -/

/-- No lane at or past the capacity lands (20_memory R48). -/
theorem writeLanes_of_cap_le (m : Memory) (base : Nat) {cap i : Nat} (h : cap ≤ i) (v : Word) (n : Nat) :
    writeLanes m base cap i v n = m := by
  induction n with
  | zero => rfl
  | succ n ih => rw [writeLanes, if_neg (by omega), ih]

theorem State.write_aperture (s : State) (b : Buf) (w : Width) {off : Nat} (v : Word) (hlo : b.base ≤ off)
    (hhi : off + widthBytes w ≤ b.base + 0x10000) :
    s.write w off v = s.writeAperture b (off - b.base) (widthBytes w) v := by
  have hregion : regionOf off = some (.aperture b) := regionOf_of_aperture hlo (by have := widthBytes_pos w; omega)
  simp only [State.write, hregion]

/-- In the idle phase the lanes below the capacity are stored. A write that `writeAperture` ignores has none. -/
theorem State.writeAperture_of_idle {s : State} (hidle : s.phase = .idle) {b : Buf} (hb : b ≠ .outBuf) (i n : Nat)
    (v : Word) : s.writeAperture b i n v = { s with mem := writeLanes s.mem b.base (b.cap s.cfg) i v n } := by
  by_cases hi : i < b.cap s.cfg
  · simp [State.writeAperture, hostWritable, hb, hi, State.unlessBusy_of_idle hidle]
  · simp [State.writeAperture, hi, writeLanes_of_cap_le s.mem b.base (Nat.not_lt.1 hi)]

/-- Settles O46: the write is `writeLanes` on memory (`writeAperture_of_idle`), whose bytes `Memory.read?_writeLanes`
gives. -/
theorem bufferLanesAct : Obligations.BufferLanesAct := by
  intro s b w off v hidle hb hlo hhi
  have hwrite : s.write w off v =
      { s with mem := writeLanes s.mem b.base (b.cap s.cfg) (off - b.base) v (widthBytes w) } := by
    rw [s.write_aperture b w v hlo hhi, State.writeAperture_of_idle hidle hb]
  rw [hwrite]
  refine ⟨fun k hk hcap => ?_, fun a ha => ?_, rfl⟩
  · have hlane : off + k - b.base - (off - b.base) = k := by omega
    rw [Memory.read?_writeLanes, if_pos (by omega), hlane]
  · rw [Memory.read?_writeLanes, if_neg (by omega)]

/-! ### Accesses while a command is in flight -/

theorem State.write_of_busy {s : State} (hbusy : s.phase ≠ .idle) (w : Width) (off : Nat) (v : Word) :
    s.write w off v = { s with
      done := (s.write w off v).done, werr := (s.write w off v).werr, doneIe := (s.write w off v).doneIe } := by
  rcases s.write_cases w off v with h | h | h | ⟨-, h⟩ | ⟨hidle, -⟩
  case inr.inr.inr.inr => exact absurd (State.busy_iff.2 hbusy) (by simp [hidle])
  case inr.inl => rw [h]; rfl
  all_goals rw [h]

/-- Settles O51: only a write changes the block (`access_cases`), and while busy only those flags (`write_of_busy`). -/
theorem inputsFrozenWhileBusy : Obligations.InputsFrozenWhileBusy := by
  intro s a hbusy
  rcases s.access_cases a with ⟨-, h⟩ | ⟨-, -, ⟨w, off, -, h⟩ | ⟨w, off, v, -, h⟩⟩ <;> rw [h]
  exact State.write_of_busy hbusy w off v

/-! ### The error response -/

theorem State.access_error (s : State) (a : Access) :
    (s.access a).2.error = (s.rst || !accessOk a.width a.off) := by
  rcases s.access_cases a with ⟨herr, h⟩ | ⟨hr, ho, ⟨w, off, -, h⟩ | ⟨w, off, v, -, h⟩⟩ <;> rw [h]
  · simpa using herr
  · simp [hr, ho]
  · simp [hr, ho]

/-- The register block and the reserved region take aligned 32-bit accesses only (20_memory R45). -/
theorem accessOk_of_word_region (w : Width) {off : Nat} (h : off < 0x100 ∨ 0x180 ≤ off ∧ off < 0x10000) :
    accessOk w off = (w == .w32 && off % 4 == 0) := by
  rcases h with h | ⟨hlo, hhi⟩
  · simp only [accessOk, regionOf_of_register h]
  · simp only [accessOk, regionOf_of_reserved hlo hhi]

/-- The five apertures fill the window from 0x10000 on (20_memory R44). -/
theorem exists_regionOf_aperture {off : Nat} (hlo : 0x10000 ≤ off) (hhi : off < 0x60000) :
    ∃ b, regionOf off = some (.aperture b) := by
  have hat : ∀ b : Buf, b.base ≤ off → off < b.base + 0x10000 → ∃ b, regionOf off = some (.aperture b) :=
    fun b hb hb' => ⟨b, regionOf_of_aperture hb hb'⟩
  have hcover : off < 0x20000 ∨ 0x20000 ≤ off ∧ off < 0x30000 ∨ 0x30000 ≤ off ∧ off < 0x40000 ∨
      0x40000 ≤ off ∧ off < 0x50000 ∨ 0x50000 ≤ off := by omega
  rcases hcover with h | ⟨h, h'⟩ | ⟨h, h'⟩ | ⟨h, h'⟩ | h
  exacts [hat .inBuf hlo h, hat .outBuf h h', hat .pwBuf h h', hat .saltBuf h h', hat .ctBuf h hhi]

/-- The readback window and the apertures take an access of any width that is aligned to it (20_memory R46). -/
theorem accessOk_of_byte_region (w : Width) {off : Nat}
    (h : 0x100 ≤ off ∧ off < 0x180 ∨ 0x10000 ≤ off ∧ off < 0x60000) :
    accessOk w off = (off % widthBytes w == 0) := by
  rcases h with ⟨hlo, hhi⟩ | ⟨hlo, hhi⟩
  · simp only [accessOk, regionOf_of_readback hlo hhi]
  · obtain ⟨b, hb⟩ := exists_regionOf_aperture hlo hhi
    simp only [accessOk, hb]

theorem regionOf_of_outside {off : Nat} (h : 0x60000 ≤ off) : regionOf off = none := by
  simp (disch := omega) only [regionOf, if_neg]

theorem accessOk_eq_false_iff (w : Width) (off : Nat) : accessOk w off = false ↔ 0x60000 ≤ off ∨
    (if off < 0x100 ∨ 0x180 ≤ off ∧ off < 0x10000 then ¬(w = .w32 ∧ off % 4 = 0) else off % widthBytes w ≠ 0) := by
  by_cases hout : 0x60000 ≤ off
  · simp [accessOk, regionOf_of_outside hout, hout]
  · by_cases hword : off < 0x100 ∨ 0x180 ≤ off ∧ off < 0x10000
    · rw [accessOk_of_word_region w hword, if_pos hword]
      simp [hout]
    · rw [accessOk_of_byte_region w (by omega), if_neg hword]
      simp [hout]

/-- Settles O39: the rule for the error response is `accessOk_eq_false_iff`, and what an access does is `access_cases`. -/
theorem busErrorRule : Obligations.BusErrorRule := by
  refine fun s a => ⟨?_, ?_⟩
  · rw [State.access_error, Bool.or_eq_true, Bool.not_eq_true', accessOk_eq_false_iff]
  · rcases s.access_cases a with ⟨-, h⟩ | ⟨-, -, ⟨w, off, rfl, h⟩ | ⟨w, off, v, rfl, h⟩⟩ <;> rw [h]
    · exact ⟨fun _ => ⟨rfl, rfl⟩, nofun⟩
    · exact ⟨nofun, fun _ => ⟨fun _ _ ha => by cases ha; rfl, nofun⟩⟩
    · exact ⟨nofun, fun _ => ⟨nofun, fun _ _ _ ha => by cases ha; rfl⟩⟩

theorem State.access_read_fst (s : State) (w : Width) (off : Nat) : (s.access (.read w off)).1 = s := by
  rcases s.access_cases (.read w off) with ⟨-, h⟩ | ⟨-, -, ⟨_, _, -, h⟩ | ⟨_, _, _, ha, -⟩⟩
  · rw [h]
  · rw [h]
  · cases ha

/-- Settles O40: with or without the error response (`access_read_fst`). -/
theorem readsHaveNoSideEffect : Obligations.ReadsHaveNoSideEffect := State.access_read_fst

end Sys2Proof.Machine
end

section
/-! Whose turn it is (20_memory R54), and what the host's turn (30_encoding R67) and the sequencer's (60_exceptions R117)
do. -/

namespace Sys2Proof.Machine

/-! ### The sequencer's turn -/

theorem State.turn_of_schedule_cons {s : State} {t : Turn} {r : List Turn} (h : s.schedule = t :: r) : s.turn = t := by
  simp only [State.turn, h]

theorem State.turn_of_schedule_nil {s : State} (h : s.schedule = []) :
    s.turn = if s.busy && !s.rst then .sequencer else .host := by
  simp only [State.turn, h]

theorem step_of_turn_sequencer {s : State} (h : s.turn = .sequencer) : step s = s.popTurn.sequencerTurn := by
  simp only [step, h, State.turnStep]

theorem State.sequencerTurn_of_idle {s : State} (h : s.phase = .idle) : s.sequencerTurn = .next s := by
  simp only [State.sequencerTurn, h]

theorem State.sequencerTurn_of_busy {s : State} {w : Word} (hr : s.rst = false) (h : s.phase = .busy w) :
    s.sequencerTurn = s.completeWord w := by
  simp [State.sequencerTurn, h, hr]

theorem State.completeWord_of_decode {w : Word} {i : Instr} (h : decode w = .ok i) (s : State) :
    s.completeWord w = exec i s := by
  simp only [State.completeWord, h]

/-- Settles O5: the turn is the sequencer's, and it takes the completion step of the word in flight. -/
theorem stepRunsIssuedCommand : Obligations.StepRunsIssuedCommand := by
  intro s hr hsched
  have hturn : s.turn = .sequencer := by
    rcases hsched with ⟨hnil, hbusy⟩ | hhead
    · rw [State.turn_of_schedule_nil hnil, State.busy_iff.2 hbusy, hr]
      rfl
    · obtain ⟨r, hcons⟩ := List.head?_eq_some_iff.1 hhead
      exact State.turn_of_schedule_cons hcons
  rw [step_of_turn_sequencer hturn]
  refine ⟨fun w i hphase hdec => ?_, State.sequencerTurn_of_idle (s := s.popTurn)⟩
  rw [State.sequencerTurn_of_busy (s := s.popTurn) hr hphase, State.completeWord_of_decode hdec]
  rfl

/-! ### The host's turn -/

theorem step_of_host_scheduled {s : State} {r : List Turn} (h : s.schedule = .host :: r) :
    step s = { s with schedule := r }.hostTurn := by
  simp only [step, State.turn_of_schedule_cons h, State.turnStep, State.popTurn, h, List.tail_cons]

theorem State.hostTurn_of_ended {s : State} (h : s.program[s.hpc]? = none) : s.hostTurn = .next s := by
  simp only [State.hostTurn, h]

theorem State.hostAccess_of_ok {s : State} {a : Access} (h : (s.access a).2.error = false)
    (after : State → Word → State) : s.hostAccess a after = .next (after (s.access a).1 (s.access a).2.data) := by
  simp [State.hostAccess, h]

theorem State.hostAccess_of_error {s : State} {a : Access} (h : (s.access a).2.error = true)
    (after : State → Word → State) : s.hostAccess a after = .fault (accessFault s a) := by
  simp [State.hostAccess, h]

theorem State.hostTurn_load {s : State} {w : Width} {off : Nat} (h : s.program[s.hpc]? = some (.ld w off))
    (hok : (s.access (.read w off)).2.error = false) :
    s.hostTurn = .next { s with readData := (s.access (.read w off)).2.data, hpc := s.hpc + 1 } := by
  simp only [State.hostTurn, h, State.hostAccess_of_ok hok, State.access_read_fst]

theorem State.hostTurn_store {s : State} {w : Width} {off : Nat} {v : Word}
    (h : s.program[s.hpc]? = some (.st w off v)) (hok : (s.access (.write w off v)).2.error = false) :
    s.hostTurn = .next { (s.access (.write w off v)).1 with hpc := s.hpc + 1 } := by
  simp only [State.hostTurn, h, State.hostAccess_of_ok hok]

theorem State.hostTurn_branch {s : State} {off label : Nat} {mask : Word}
    (h : s.program[s.hpc]? = some (.bnz32 off mask label)) (hok : (s.access (.read .w32 off)).2.error = false) :
    s.hostTurn = .next { s with
      readData := (s.access (.read .w32 off)).2.data,
      hpc := if (s.access (.read .w32 off)).2.data &&& mask ≠ 0 then label else s.hpc + 1 } := by
  simp only [State.hostTurn, h, State.hostAccess_of_ok hok, State.access_read_fst]

/-- The access of a statement (30_encoding R67). -/
def stmtAccess : Stmt → Access
  | .ld w off => .read w off
  | .st w off v => .write w off v
  | .bnz32 off _ _ => .read .w32 off

/-- A bus error is a fault, whatever the statement (20_memory R47). -/
theorem State.hostTurn_of_error {s : State} {st : Stmt} (h : s.program[s.hpc]? = some st)
    (herr : (s.access (stmtAccess st)).2.error = true) : s.hostTurn = .fault (accessFault s (stmtAccess st)) := by
  cases st <;> simp only [State.hostTurn, h] <;> exact State.hostAccess_of_error herr _

/-- Settles O52: the host's turn is that of its next statement. A write gets the error response exactly where a read of that
width and offset does (`access_error`). -/
theorem hostTurnPerformsStatement : Obligations.HostTurnPerformsStatement := by
  intro s p r hsched hp
  have hturn : step s = p.hostTurn := hp ▸ step_of_host_scheduled hsched
  have hnext : p.program[p.hpc]? = s.program[s.hpc]? := by rw [hp]
  rw [hturn, ← hnext]
  refine ⟨State.hostTurn_of_ended, fun w off => State.hostTurn_load, fun w off v => State.hostTurn_store,
    fun off mask label => State.hostTurn_branch, ?_⟩
  rintro w off (h | ⟨v, h⟩ | ⟨rfl, mask, label, h⟩) herr
  · exact ⟨_, State.hostTurn_of_error (st := .ld w off) h herr⟩
  · exact ⟨_, State.hostTurn_of_error (st := .st w off v) h (by rwa [State.access_error] at herr ⊢)⟩
  · exact ⟨_, State.hostTurn_of_error (st := .bnz32 off mask label) h herr⟩

end Sys2Proof.Machine
end

section
/-! The decoder and the encoder are inverse on the legal words (30_encoding R59 to R64), and the match and mask form of
those words. -/

namespace Sys2Proof

/-! ### Round trips -/

/-- Settles O1: the fields of an encoded command are the command's own, and they decode to it (`decode_ok_iff`). -/
theorem decodeInvertsEncode : Obligations.DecodeInvertsEncode := fun i hwf =>
  (decode_ok_iff (encode i) i).2 ⟨rsvdField_encode i, opField_encode i, aselField_encode i, hwf⟩

/-- Settles O2: the fields of the word are those of the command (`decode_ok_iff`), and a word is its fields. -/
theorem encodeInvertsDecode : Obligations.EncodeInvertsDecode := by
  intro w i h
  obtain ⟨hrsvd, hop, hasel, hwf⟩ := (decode_ok_iff w i).1 h
  refine ⟨?_, hwf⟩
  calc encode i = 0 ++ i.asel ++ i.opcode := rfl
    _ = rsvdField w ++ aselField w ++ opField w := by rw [hrsvd, hop, hasel]
    _ = w := (word_eq_fields w).symm

/-- Settles O4: the words are literals. -/
theorem sampleWordsDecode : Obligations.SampleWordsDecode := by
  unfold Obligations.SampleWordsDecode
  decide

/-! ### The legal words -/

/-- `Legal` (R62) in the decoder's fields. -/
theorem legal_iff_fields (w : Word) : Machine.Legal w ↔
    rsvdField w = 0 ∧ opField w ∈ ([0x00, 0x01, 0x02, 0x03, 0x10, 0x11, 0x20, 0x21, 0xFF] : List Byte) ∧
      (opField w ∈ ([0x02, 0x03] : List Byte) → aselField w ≤ 3) ∧
      (opField w ∉ ([0x02, 0x03] : List Byte) → aselField w = 0) := Iff.rfl

/-- The table of R61 has one command for each legal opcode. -/
theorem exists_decode_iff_legal (w : Word) : (∃ i, decode w = .ok i) ↔ Machine.Legal w := by
  simp only [decode_ok_iff, legal_iff_fields]
  constructor
  · rintro ⟨i, hrsvd, hop, hasel, hwf⟩
    rw [hop, hasel]
    refine ⟨hrsvd, ?_⟩
    cases i with
    | b32Encode a => simpa [Instr.opcode, Instr.asel, Instr.WellFormed, Instr.wellFormed] using hwf
    | b32Decode a => simpa [Instr.opcode, Instr.asel, Instr.WellFormed, Instr.wellFormed] using hwf
    | _ => decide
  · rintro ⟨hrsvd, hop, hcodec, hplain⟩
    have plain : ∀ op ∉ ([0x02, 0x03] : List Byte), opField w = op → aselField w = 0 := fun op hne h =>
      hplain (by rwa [h])
    simp only [List.mem_cons, List.not_mem_nil, or_false] at hop
    rcases hop with h | h | h | h | h | h | h | h | h
    · exact ⟨.nop, hrsvd, h, plain _ (by decide) h, rfl⟩
    · exact ⟨.alphaLoad, hrsvd, h, plain _ (by decide) h, rfl⟩
    · exact ⟨.b32Encode (aselField w), hrsvd, h, rfl, decide_eq_true (hcodec (by simp [h]))⟩
    · exact ⟨.b32Decode (aselField w), hrsvd, h, rfl, decide_eq_true (hcodec (by simp [h]))⟩
    · exact ⟨.envSerialize, hrsvd, h, plain _ (by decide) h, rfl⟩
    · exact ⟨.envParse, hrsvd, h, plain _ (by decide) h, rfl⟩
    · exact ⟨.envEncrypt, hrsvd, h, plain _ (by decide) h, rfl⟩
    · exact ⟨.envDecrypt, hrsvd, h, plain _ (by decide) h, rfl⟩
    · exact ⟨.softReset, hrsvd, h, plain _ (by decide) h, rfl⟩

/-- The mask 0xFFFFFCFF clears w[9:8], the two low bits of ASEL (R59). -/
theorem fields_masked (w : Word) : rsvdField (w &&& 0xFFFFFCFF) = rsvdField w ∧
    aselField (w &&& 0xFFFFFCFF) = aselField w &&& 4 ∧ opField (w &&& 0xFFFFFCFF) = opField w := by
  refine ⟨BitVec.extractLsb'_and.trans ?_, BitVec.extractLsb'_and, BitVec.extractLsb'_and.trans ?_⟩
  · exact BitVec.and_allOnes
  · exact BitVec.and_allOnes

theorem and_four_eq_zero_iff (a : BitVec 3) : a &&& 4 = 0 ↔ a ≤ 3 := by
  revert a; decide

theorem word_eq_iff_fields {w v : Word} :
    w = v ↔ rsvdField w = rsvdField v ∧ aselField w = aselField v ∧ opField w = opField v := by
  refine ⟨fun h => h ▸ ⟨rfl, rfl, rfl⟩, fun ⟨hrsvd, hasel, hop⟩ => ?_⟩
  rw [word_eq_fields w, hrsvd, hasel, hop, ← word_eq_fields v]

/-- The masked form of a word with an operand: any ASEL of 0 to 3. -/
theorem masked_eq_iff (w : Word) {k : Word} (hrsvd : rsvdField k = 0) (hasel : aselField k = 0) :
    w &&& 0xFFFFFCFF = k ↔ rsvdField w = 0 ∧ opField w = opField k ∧ aselField w ≤ 3 := by
  obtain ⟨hr, ha, ho⟩ := fields_masked w
  rw [word_eq_iff_fields, hr, ha, ho, hrsvd, hasel, and_four_eq_zero_iff, and_comm (a := aselField w ≤ 3)]

/-- Settles O3: each legal word decodes to a command (`exists_decode_iff_legal`), which has an operand where the mask
says so (`masked_eq_iff`) and is a word of the list where not. -/
theorem decodeAcceptsLegalWords : Obligations.DecodeAcceptsLegalWords := by
  refine fun w => ⟨exists_decode_iff_legal w, ?_⟩
  have hencode : w &&& 0xFFFFFCFF = 0x00000002 ↔ rsvdField w = 0 ∧ opField w = 0x02 ∧ aselField w ≤ 3 :=
    masked_eq_iff w (by decide) (by decide)
  have hdecode : w &&& 0xFFFFFCFF = 0x00000003 ↔ rsvdField w = 0 ∧ opField w = 0x03 ∧ aselField w ≤ 3 :=
    masked_eq_iff w (by decide) (by decide)
  rw [hencode, hdecode]
  constructor
  · intro hlegal
    obtain ⟨i, hi⟩ := (exists_decode_iff_legal w).2 hlegal
    obtain ⟨hr, ho, ha, hwf⟩ := (decode_ok_iff w i).1 hi
    obtain ⟨rfl, -⟩ := encodeInvertsDecode w i hi
    cases i with
    | b32Encode a => exact .inl ⟨hr, ho, ha.trans_le (of_decide_eq_true hwf)⟩
    | b32Decode a => exact .inr (.inl ⟨hr, ho, ha.trans_le (of_decide_eq_true hwf)⟩)
    | _ => exact .inr (.inr (by decide))
  · rw [← exists_decode_iff_legal]
    rintro (⟨hr, ho, ha⟩ | ⟨hr, ho, ha⟩ | hplain)
    · exact ⟨.b32Encode (aselField w), (decode_ok_iff ..).2 ⟨hr, ho, rfl, decide_eq_true ha⟩⟩
    · exact ⟨.b32Decode (aselField w), (decode_ok_iff ..).2 ⟨hr, ho, rfl, decide_eq_true ha⟩⟩
    · simp only [List.mem_cons, List.not_mem_nil, or_false] at hplain
      rcases hplain with rfl | rfl | rfl | rfl | rfl | rfl | rfl
      exacts [⟨.nop, by decide⟩, ⟨.alphaLoad, by decide⟩, ⟨.envSerialize, by decide⟩, ⟨.envParse, by decide⟩,
        ⟨.envEncrypt, by decide⟩, ⟨.envDecrypt, by decide⟩, ⟨.softReset, by decide⟩]

end Sys2Proof
end

section
/-! The life of a command word: a write to CMD issues it or is dropped (30_encoding R66), and an illegal one completes with
ILLEGAL_COMMAND (30_encoding R63). -/

namespace Sys2Proof.Machine

/-! ### Issue -/

theorem State.unlessBusy_of_busy {s : State} (h : s.phase ≠ .idle) (t : State) :
    s.unlessBusy t = { s with werr := true } := by
  rw [State.unlessBusy, if_pos (State.busy_iff.2 h)]

theorem State.access_cmd {s : State} (hr : s.rst = false) (w : Word) :
    s.access (.write .w32 0x004 w) = (s.unlessBusy (s.issue w), { error := false, data := 0 }) := by
  rcases s.access_cases (.write .w32 0x004 w) with ⟨herr, -⟩ | ⟨-, -, ⟨_, _, ha, -⟩ | ⟨_, _, _, ha, h⟩⟩
  · exact absurd herr (by simp [hr, show accessOk .w32 0x004 = true by decide, Access.width, Access.off])
  · cases ha
  · cases ha
    rw [h]
    exact congrArg (·, _) (s.write_offset .w32 .cmd w)

/-- Settles O7: the write reaches CMD (`access_cmd`), which issues the word in the idle phase and drops it while busy. -/
theorem issueCapturesTheWord : Obligations.IssueCapturesTheWord := by
  refine fun s w hr => ⟨fun hidle => ?_, fun hbusy => ?_⟩
  · rw [State.access_cmd hr, State.unlessBusy_of_idle hidle]
    rfl
  · rw [State.access_cmd hr, State.unlessBusy_of_busy hbusy]

/-! ### An illegal word -/

/-- The sequencer moves while a command is in flight, if the schedule names no other agent (20_memory R54). -/
theorem State.turn_of_sequencer_due {s : State} (hr : s.rst = false) (hbusy : s.phase ≠ .idle)
    (hsched : s.schedule = [] ∨ s.schedule.head? = some .sequencer) : s.turn = .sequencer := by
  rcases hsched with hnil | hhead
  · rw [State.turn_of_schedule_nil hnil, State.busy_iff.2 hbusy, hr]
    rfl
  · obtain ⟨r, hcons⟩ := List.head?_eq_some_iff.1 hhead
    exact State.turn_of_schedule_cons hcons

theorem State.completeWord_of_illegal {w : Word} (h : ¬ Legal w) (s : State) :
    s.completeWord w = .next (s.failed (w.extractLsb' 0 8) .illegalCommand {} w) := by
  rcases s.completeWord_cases w with ⟨i, hi, -⟩ | ⟨-, hraise⟩
  · exact absurd ((exists_decode_iff_legal w).1 ⟨i, hi⟩) h
  · exact hraise

/-- Settles O6: issue does not look at the word, and its completion step is `completeWord_of_illegal`. -/
theorem illegalWordCompletes : Obligations.IllegalWordCompletes := by
  refine fun s w hillegal => ⟨fun hr hidle => ?_, fun hr hphase hsched => ?_⟩
  · rw [(issueCapturesTheWord s w hr).1 hidle]
  · have hbusy : s.phase ≠ .idle := by simp [hphase]
    rw [step_of_turn_sequencer (State.turn_of_sequencer_due hr hbusy hsched),
      State.sequencerTurn_of_busy (s := s.popTurn) hr hphase, State.completeWord_of_illegal hillegal]
    rfl

end Sys2Proof.Machine
end

section
/-! The frames of ENV_PARSE (41_envelope_framing R99) and of the commands that write no buffer (40_base32_codec R81,
43_control R110, R111): `exec_spec` says what they write. -/

namespace Sys2Proof.Machine

/-! ### ENV_PARSE -/

/-- A length that fits a buffer is not cut off in its length register. -/
theorem toNat_ofNat_of_le_cap {p : Params} (b : Buf) {n : Nat} (h : n ≤ b.cap p) : (BitVec.ofNat 32 n).toNat = n := by
  have hcap := b.cap_le p
  rw [BitVec.toNat_ofNat, Nat.mod_eq_of_lt (by omega)]

theorem State.read?_putFields (s : State) (f : Fields) (a : Nat)
    (hsalt : ¬(0x40000 ≤ a ∧ a < 0x40000 + f.salt.length)) (hct : ¬(0x50000 ≤ a ∧ a < 0x50000 + f.ct.length)) :
    Memory.read? (s.putFields f).mem a = Memory.read? s.mem a := by
  rw [State.putFields_mem, Memory.read?_writeList, if_neg hct, Memory.read?_writeList, if_neg hsalt]

/-- Settles O37: by `exec_spec` an error leaves the destinations alone, and a success writes the fields of the envelope
only (`read?_putFields`). -/
theorem parseFrame : Obligations.ParseFrame := by
  intro s t ht
  obtain ⟨r, hr, he⟩ := exec_spec .envParse s
  obtain rfl := Host.Outcome.next.inj (he.symm.trans ht)
  cases r with
  | error e => exact ⟨rfl, fun _ _ _ => rfl, fun _ => ⟨rfl, rfl, rfl, rfl, fun _ => rfl⟩⟩
  | ok u =>
    obtain ⟨f, hsalt, hct, rfl⟩ := hr
    refine ⟨rfl, fun a ha ha' => s.read?_putFields f a ?_ ?_, fun herr => absurd rfl herr⟩
    · rwa [← toNat_ofNat_of_le_cap .saltBuf hsalt]
    · rwa [← toNat_ofNat_of_le_cap .ctBuf hct]

/-! ### NOP, ALPHA_LOAD and SOFT_RESET -/

/-- The commands that write no buffer. -/
theorem Effect.mem_of_register_command {i : Instr} {s t : State} (h : Effect i s t)
    (hi : i = .nop ∨ i = .alphaLoad ∨ i = .softReset) : t.mem = s.mem ∧ t.bufDraw = s.bufDraw := by
  rcases hi with rfl | rfl | rfl
  · subst h; exact ⟨rfl, rfl⟩
  · obtain ⟨-, rfl⟩ := h; exact ⟨rfl, rfl⟩
  · subst h; exact ⟨rfl, rfl⟩

theorem exec_mem_of_register_command {i : Instr} {s t : State} (hi : i = .nop ∨ i = .alphaLoad ∨ i = .softReset)
    (h : exec i s = .next t) : t.mem = s.mem ∧ t.bufDraw = s.bufDraw := by
  obtain ⟨r, hr, he⟩ := exec_spec i s
  obtain rfl := Host.Outcome.next.inj (he.symm.trans h)
  cases r with
  | error e => exact ⟨rfl, rfl⟩
  | ok u =>
    have heffect : Effect i s u := hr
    exact heffect.mem_of_register_command hi

/-- Settles O38: NOP commits the state as it is, ALPHA_LOAD ends in an error or with the custom slot loaded, and none of the
three writes a buffer (`exec_mem_of_register_command`). -/
theorem registerCommandsFrame : Obligations.RegisterCommandsFrame := by
  refine fun s t => ⟨fun ht => ?_, fun ht => ?_, fun ht => ?_⟩
  · obtain rfl := Host.Outcome.next.inj ht
    rfl
  · obtain ⟨r, hr, he⟩ := exec_spec .alphaLoad s
    obtain rfl := Host.Outcome.next.inj (he.symm.trans ht)
    cases r with
    | error e => exact ⟨rfl, fun _ => ⟨rfl, rfl⟩⟩
    | ok u =>
      obtain ⟨-, rfl⟩ := hr
      exact ⟨rfl, fun herr => absurd rfl herr⟩
  · have hframe : ∀ i, (i = .nop ∨ i = .alphaLoad ∨ i = .softReset) → exec i s = .next t →
        t.bufDraw = s.bufDraw ∧ t.cfg = s.cfg ∧ ∀ a, Memory.read? t.mem a = Memory.read? s.mem a := by
      intro i hi h
      obtain ⟨hmem, hdraw⟩ := exec_mem_of_register_command hi h
      exact ⟨hdraw, exec_cfg h, fun a => by rw [hmem]⟩
    rcases ht with h | h | h
    exacts [hframe _ (.inl rfl) h, hframe _ (.inr (.inl rfl)) h, hframe _ (.inr (.inr rfl)) h]

end Sys2Proof.Machine
end

section
/-! The codec (40_base32_codec R74 to R80) as two views of one bit stream: a byte sequence, and the sequence of 5-bit values
whose symbols stand in its encoding. `groups` and `unpack` keep the stream bit by bit, so the round trips are equalities of
streams. -/

namespace Sys2Proof.Machine

/-! ### Streams -/

/-- The bits of a sequence of words, most significant first (R74, R78): `streamBit` for bytes, `valueStreamBit` for symbol
values. -/
def bitStream {w : Nat} (l : List (BitVec w)) (i : Nat) : Bool := (l.getD (i / w) 0).getMsbD (i % w)

theorem bitStream_of_length_le {w : Nat} (hw : 0 < w) {l : List (BitVec w)} {i : Nat} (h : w * l.length ≤ i) :
    bitStream l i = false := by
  have hend : l.length ≤ i / w := (Nat.le_div_iff_mul_le hw).2 (by rwa [Nat.mul_comm])
  rw [bitStream, List.getD_eq_default _ _ hend]
  exact BitVec.getMsbD_zero

theorem bitStream_word {w : Nat} {l : List (BitVec w)} {k j : Nat} (hk : k < l.length) (hj : j < w) :
    bitStream l (w * k + j) = l[k].getMsbD j := by
  rw [bitStream, Nat.mul_add_div (by omega), Nat.div_eq_of_lt hj, Nat.add_zero, Nat.mul_add_mod, Nat.mod_eq_of_lt hj,
    List.getD_eq_getElem _ _ hk]

/-- A sequence of words is its length and its stream. -/
theorem eq_of_bitStream_eq {w : Nat} {l m : List (BitVec w)} (hlen : l.length = m.length)
    (h : ∀ i, i < w * m.length → bitStream l i = bitStream m i) : l = m := by
  refine List.ext_getElem hlen fun k hl hm => BitVec.eq_of_getMsbD_eq fun j hj => ?_
  have hlt : w * k + j < w * m.length := by
    calc w * k + j < w * (k + 1) := by rw [Nat.mul_succ]; omega
      _ ≤ w * m.length := Nat.mul_le_mul_left w hm
  rw [← bitStream_word hl hj, ← bitStream_word hm hj, h _ hlt]

theorem streamBit_of_length_le {b : List Byte} {i : Nat} (h : 8 * b.length ≤ i) : streamBit b i = false :=
  bitStream_of_length_le (by decide) h

theorem valueStreamBit_of_length_le {v : List (BitVec 5)} {i : Nat} (h : 5 * v.length ≤ i) :
    valueStreamBit v i = false := bitStream_of_length_le (by decide) h

/-! ### From bytes to values and back -/

/-- The values whose symbols stand in the encoding of `b` (R76). -/
def groups (b : List Byte) : List (BitVec 5) := (List.range (encodedLength b.length)).map (group b)

theorem encode32_eq_map (t : Table) (b : List Byte) : encode32 t b = (groups b).map (symbolAt t) := by
  simp [encode32, groups]

@[simp] theorem length_groups (b : List Byte) : (groups b).length = encodedLength b.length := by simp [groups]

theorem groups_getD {b : List Byte} {k : Nat} (hk : k < encodedLength b.length) : (groups b).getD k 0 = group b k := by
  simp [groups, hk]

/-- The values carry the stream of the bytes, with 0 past the end (R74). -/
theorem valueStreamBit_groups (b : List Byte) (i : Nat) : valueStreamBit (groups b) i = streamBit b i := by
  by_cases h : i < 5 * encodedLength b.length
  · calc valueStreamBit (groups b) i = (group b (i / 5)).getMsbD (i % 5) := by
          rw [valueStreamBit, groups_getD (by omega)]
      _ = streamBit b (5 * (i / 5) + i % 5) := group_getMsbD b _ (by omega)
      _ = streamBit b i := by rw [Nat.div_add_mod]
  · have hlen : 8 * b.length ≤ 5 * encodedLength b.length := by unfold encodedLength; omega
    rw [valueStreamBit_of_length_le (by rw [length_groups]; omega), streamBit_of_length_le (by omega)]

theorem unpack_getD {v : List (BitVec 5)} {j : Nat} (hj : j < decodedLength v.length) :
    (unpack v).getD j 0 = decodedByte v j := by
  simp [unpack, hj]

/-- The decoded bytes carry the stream of the values, cut to whole bytes (R78). -/
theorem streamBit_unpack (v : List (BitVec 5)) {i : Nat} (h : i < 8 * decodedLength v.length) :
    streamBit (unpack v) i = valueStreamBit v i := by
  calc streamBit (unpack v) i = (decodedByte v (i / 8)).getMsbD (i % 8) := by
        rw [streamBit, unpack_getD (by omega)]
    _ = valueStreamBit v (8 * (i / 8) + i % 8) := decodedByte_getMsbD v _ (by omega)
    _ = valueStreamBit v i := by rw [Nat.div_add_mod]

theorem decodedLength_encodedLength (n : Nat) : decodedLength (encodedLength n) = n := by
  unfold decodedLength encodedLength; omega

/-- An encoding keeps all bits of the bytes, so unpacking its values gives the bytes back. -/
theorem unpack_groups (b : List Byte) : unpack (groups b) = b := by
  have hlen : decodedLength (groups b).length = b.length := by rw [length_groups, decodedLength_encodedLength]
  refine eq_of_bitStream_eq ((length_unpack _).trans hlen) fun i hi => ?_
  change streamBit (unpack (groups b)) i = streamBit b i
  rw [streamBit_unpack _ (by rwa [hlen]), valueStreamBit_groups]

/-- The lengths of R80: those that an encoding can have. -/
theorem encodedLength_decodedLength_iff (m : Nat) :
    encodedLength (decodedLength m) = m ↔ m % 8 ∈ [0, 2, 4, 5, 7] := by
  simp only [encodedLength, decodedLength, List.mem_cons, List.not_mem_nil, or_false]; omega

theorem encodedLength_decodedLength_lt {m : Nat} (h : m % 8 ∈ [1, 3, 6]) : encodedLength (decodedLength m) < m := by
  simp only [List.mem_cons, List.not_mem_nil, or_false] at h
  unfold encodedLength decodedLength; omega

/-- Regrouping the unpacked bytes gives the values back exactly when the length is that of an encoding and the bits that
`unpack` discards are the zero bits that `groups` pads with (R80). -/
theorem groups_unpack_eq_iff (v : List (BitVec 5)) : groups (unpack v) = v ↔
    encodedLength (decodedLength v.length) = v.length ∧
      ∀ i, 8 * decodedLength v.length ≤ i → i < 5 * v.length → valueStreamBit v i = false := by
  constructor
  · intro h
    refine ⟨by simpa using congrArg List.length h, fun i hlo _ => ?_⟩
    rw [← h, valueStreamBit_groups, streamBit_of_length_le (by rwa [length_unpack])]
  · rintro ⟨hlen, hpad⟩
    refine eq_of_bitStream_eq (by simpa using hlen) fun i hi => ?_
    change valueStreamBit (groups (unpack v)) i = valueStreamBit v i
    rw [valueStreamBit_groups]
    by_cases hb : i < 8 * decodedLength v.length
    · exact streamBit_unpack v hb
    · rw [streamBit_of_length_le (by rw [length_unpack]; omega), hpad i (by omega) hi]

/-! ### From values to symbols and back -/

/-- R71: the symbols of a valid table are pairwise distinct. -/
theorem symbolAt_injective {t : Table} (ht : t.Valid) : Function.Injective (symbolAt t) := fun v w h =>
  Option.some.inj (by rw [← inverse_symbolAt ht v, h, inverse_symbolAt ht w])

theorem ValuesOf.eq_map {t : Table} {s : List Byte} {v : List (BitVec 5)} (h : ValuesOf t s v) :
    s = v.map (symbolAt t) := by
  obtain ⟨hlen, hsym⟩ := h
  refine List.ext_getElem (by simp [hlen]) fun k hk hk' => ?_
  have hkv : k < v.length := by omega
  have hval := hsym k hk
  rw [symbolAt_eq_getElem, List.getD_eq_getElem _ _ hkv, List.getD_eq_getElem _ _ hk] at hval
  simpa using (Option.some.inj hval).symm

/-- A string of symbols of a valid table decodes to the bytes of its values (R78). -/
theorem decode32_map_symbolAt {t : Table} (ht : t.Valid) (v : List (BitVec 5)) :
    decode32 t (v.map (symbolAt t)) = .ok (unpack v) := by
  have hvalues : (v.map (symbolAt t)).map (fun c => (inverse t c).getD 0) = v := by
    simp [Function.comp_def, inverse_symbolAt ht]
  refine decode32_ok_iff.2 ⟨fun c hc => ?_, by rw [hvalues]⟩
  obtain ⟨x, -, rfl⟩ := List.mem_map.1 hc
  exact symbolAt_mem t x

/-! ### The codec's statements -/

/-- Settles O25: the symbols of an encoding decode to the bytes of their values, and these are `b` (`unpack_groups`). -/
theorem base32RoundTrip : Obligations.Base32RoundTrip := by
  intro t b ht
  rw [encode32_eq_map, decode32_map_symbolAt ht, unpack_groups]

/-- Settles O26: a valid table loses nothing between values and symbols, so the question is that of
`groups_unpack_eq_iff`. -/
theorem canonicalStringsRoundTrip : Obligations.CanonicalStringsRoundTrip := by
  refine ⟨fun t s v out ht hv hout => ?_, by decide, by decide⟩
  obtain rfl := hv.eq_map
  obtain rfl : unpack v = out := Except.ok.inj ((decode32_map_symbolAt ht v).symm.trans hout)
  rw [length_encode32, encode32_eq_map, (List.map_injective_iff.2 (symbolAt_injective ht)).eq_iff, groups_unpack_eq_iff,
    encodedLength_decodedLength_iff, length_unpack, List.length_map]
  exact ⟨Iff.rfl, encodedLength_decodedLength_lt⟩

/-- Settles O23: the value is `group b k`, and the stream is 0 past the end. -/
theorem encodedSymbols : Obligations.EncodedSymbols := by
  refine fun t b k hk => ⟨group b k, ?_, fun j hj => ?_⟩
  · rw [encode32_getElem? t b hk, symbolAt_eq_getElem]
  · rw [group_getMsbD b k hj]
    split
    · rfl
    · exact streamBit_of_length_le (by omega)

/-- Settles O24: an error is that of the first symbol outside the table (`decode32_error_iff`), and the bytes of a success are
those of the values (`decode32_map_symbolAt`). -/
theorem decodedBytes : Obligations.DecodedBytes := by
  refine fun t s ht => ⟨fun k hk hbad hgood => ?_, fun v hv => ?_⟩
  · exact decode32_error_iff.2 ⟨hk, rfl, hbad, hgood⟩
  · obtain rfl := hv.eq_map
    refine ⟨unpack v, decode32_map_symbolAt ht v, by simp [decodedLength], fun j q hj hq => ?_⟩
    rw [unpack_getD (by simpa using hj), decodedByte_getMsbD v j hq]

/-- Settles O22: `encodedLength` is the count, and the second form follows for each remainder of the length modulo 5. -/
theorem encodedLength_spec : Obligations.EncodedLength := by
  intro t b
  rw [length_encode32, encodedLength]
  refine ⟨rfl, ?_, fun h => by rw [h]⟩
  have hrem : [0, 2, 4, 5, 7].getD (b.length % 5) 0 = (8 * (b.length % 5) + 4) / 5 := by
    have hall : ∀ r < 5, [0, 2, 4, 5, 7].getD r 0 = (8 * r + 4) / 5 := by decide
    exact hall _ (Nat.mod_lt _ (by decide))
  omega

end Sys2Proof.Machine
end

section
/-! ALPHA_LOAD, B32_ENCODE and B32_DECODE (40_base32_codec R81 to R84): which check of a command answers first, and what its
result is. -/

namespace Sys2Proof.Machine

theorem State.getElem_readBuf (s : State) (b : Buf) {n k : Nat} (h : k < (s.readBuf b n).length) :
    (s.readBuf b n)[k] = s.bufByte b k := by
  simp [State.readBuf]

/-! ### ALPHA_LOAD -/

theorem exec_alphaLoad (s : State) : exec .alphaLoad s = .next (s.finish 0x01 (alphaLoadResult s)) := rfl

theorem State.length_inputTable (s : State) : s.inputTable.syms.length = 32 := s.inputTable.len

theorem State.getElem_inputTable (s : State) {k : Nat} (h : k < s.inputTable.syms.length) :
    s.inputTable.syms[k] = s.bufByte .inBuf k := s.getElem_readBuf .inBuf h

theorem alphaLoadResult_of_length {s : State} (h : s.inLen ≠ 32) :
    alphaLoadResult s = .error (alphabetLength s.inLen) := by rw [alphaLoadResult, if_pos h]

theorem alphaLoadResult_of_duplicate {s : State} (h : s.inLen = 32) {i j : Nat}
    (hdup : firstDuplicate s.inputTable.syms = some (i, j)) (hj : j < 32) :
    alphaLoadResult s = .error (alphabetDuplicate (s.bufByte .inBuf j) i j) := by
  have hsym : s.inputTable.syms.getD j 0 = s.bufByte .inBuf j := s.readBuf_getD .inBuf hj
  rw [alphaLoadResult, if_neg (not_not.2 h)]
  simp only [hdup, hsym]

theorem alphaLoadResult_of_distinct {s : State} (h : s.inLen = 32) (hdistinct : s.inputTable.Valid) :
    alphaLoadResult s = .ok { s with customTable := s.inputTable, customValid := true } := by
  rw [alphaLoadResult, if_neg (not_not.2 h)]
  simp only [firstDuplicate_eq_none_iff.2 hdistinct]

/-- Settles O14: the three outcomes are those of `alphaLoadResult`, whose duplicate is the first one
(`firstDuplicate_eq_some`). -/
theorem alphaLoadResult_spec : Obligations.AlphaLoadResult := by
  refine ⟨by decide, fun s => ⟨fun hlen => ?_, fun hlen i j hij hj heq hi hd => ?_, fun hlen hne => ?_⟩⟩
  · rw [exec_alphaLoad, alphaLoadResult_of_length hlen]
    rfl
  · have hj' : j < s.inputTable.syms.length := by rwa [s.length_inputTable]
    have hdup : firstDuplicate s.inputTable.syms = some (i, j) := by
      refine firstDuplicate_eq_some hij hj' ?_ ?_ ?_ <;> simpa only [s.getElem_inputTable]
    rw [exec_alphaLoad, alphaLoadResult_of_duplicate hlen hdup hj, alphabetDuplicate, countWord_of_lt (by omega)]
    rfl
  · have hdistinct : s.inputTable.Valid := by
      refine List.pairwise_iff_getElem.2 fun i j _ hj hij => ?_
      rw [s.getElem_inputTable, s.getElem_inputTable]
      exact hne i j hij (by rwa [s.length_inputTable] at hj)
    refine ⟨s.inputTable, fun k hk => ?_, ?_⟩
    · rw [List.getElem?_eq_getElem (by rwa [s.length_inputTable]), s.getElem_inputTable]
    · rw [exec_alphaLoad, alphaLoadResult_of_distinct hlen hdistinct]
      rfl

/-! ### The alphabet of a codec command -/

/-- The id that ASEL names stands for the selected table and for ASEL itself (R59, R23), and only the custom slot can be not
loaded (R82). -/
theorem SelectsTable.exists_alpha {s : State} {asel : BitVec 3} {t : Table} (h : SelectsTable s asel t) :
    ∃ id, alphaOfAsel asel = some id ∧ s.alpha id = t ∧ alphaCode id = asel ∧
      (AlphabetReady s asel ↔ ¬(id = .custom ∧ s.customValid = false)) := by
  rcases h with ⟨rfl, rfl⟩ | ⟨rfl, rfl⟩ | ⟨rfl, rfl⟩ | ⟨rfl, rfl⟩
  · exact ⟨.rfc4648, rfl, rfl, rfl, by simp [AlphabetReady]⟩
  · exact ⟨.crockford, rfl, rfl, rfl, by simp [AlphabetReady]⟩
  · exact ⟨.wordsafe, rfl, rfl, rfl, by simp [AlphabetReady]⟩
  · exact ⟨.custom, rfl, rfl, rfl, by simp [AlphabetReady]⟩

theorem exec_b32Encode {asel : BitVec 3} {id : AlphaId} (h : alphaOfAsel asel = some id) (s : State) :
    exec (.b32Encode asel) s = .next (s.finish 0x02 (b32EncodeResult s id)) := by
  simp only [exec, execB32Encode, h]

theorem exec_b32Decode {asel : BitVec 3} {id : AlphaId} (h : alphaOfAsel asel = some id) (s : State) :
    exec (.b32Decode asel) s = .next (s.finish 0x03 (b32DecodeResult s id)) := by
  simp only [exec, execB32Decode, h]

/-! ### The checks that both codec commands make first (R82) -/

/-- `r` after the checks of the alphabet and of IN_LEN. -/
def codecChecked (s : State) (id : AlphaId) (r : Except Raise State) : Except Raise State :=
  if id = .custom ∧ s.customValid = false then .error alphabetNotLoaded
  else if s.inLen.toNat > s.cfg.inCap then .error (invalidArgument 1 s.inLen)
  else r

/-- The end of B32_DECODE, given what the decode answers (R84). -/
def storeDecoded (s : State) (id : AlphaId) : Except BadSymbol (List Byte) → Except Raise State
  | .error e => .error (invalidSymbol e.sym (alphaCode id) e.pos)
  | .ok v => outResult s v

theorem b32EncodeResult_eq (s : State) (id : AlphaId) :
    b32EncodeResult s id = codecChecked s id (outResult s (encode32 (s.alpha id) s.input)) := rfl

theorem b32DecodeResult_eq (s : State) (id : AlphaId) :
    b32DecodeResult s id = codecChecked s id (storeDecoded s id (decode32 (s.alpha id) s.input)) := rfl

section
variable {s : State} {id : AlphaId}

theorem codecChecked_of_not_loaded (h : id = .custom ∧ s.customValid = false) (r : Except Raise State) :
    codecChecked s id r = .error alphabetNotLoaded := if_pos h

theorem codecChecked_of_inCap_lt (h : ¬(id = .custom ∧ s.customValid = false)) (hlen : s.cfg.inCap < s.inLen.toNat)
    (r : Except Raise State) : codecChecked s id r = .error (invalidArgument 1 s.inLen) := by
  rw [codecChecked, if_neg h, if_pos hlen]

theorem codecChecked_of_passed (h : ¬(id = .custom ∧ s.customValid = false)) (hlen : s.inLen.toNat ≤ s.cfg.inCap)
    (r : Except Raise State) : codecChecked s id r = r := by
  rw [codecChecked, if_neg h, if_neg (by omega)]

end

theorem outResult_of_outCap_lt {s : State} {v : List Byte} (h : s.cfg.outCap < v.length) (hv : v.length < 2 ^ 32) :
    outResult s v = .error { code := .capacityExceeded, info := { sub := 1 }, pos := BitVec.ofNat 32 v.length } := by
  rw [outResult, if_pos h, capacityExceeded, countWord_of_lt hv]

theorem outResult_of_length_le {s : State} {v : List Byte} (h : v.length ≤ s.cfg.outCap) :
    outResult s v = .ok (s.withOutput v) := if_neg (by omega)

@[simp] theorem State.length_input (s : State) : s.input.length = s.inLen.toNat := s.length_readBuf _ _

theorem State.getElem_input (s : State) {k : Nat} (h : k < s.input.length) : s.input[k] = s.bufByte .inBuf k :=
  s.getElem_readBuf .inBuf h

theorem inLen_le_of_le_inCap {s : State} (h : s.inLen.toNat ≤ s.cfg.inCap) : s.inLen.toNat ≤ 65536 :=
  h.trans s.cfg.inCap_legal.2

/-! ### B32_ENCODE -/

/-- The word of a codec command with its ASEL in w[10:8] (R59, R61). -/
theorem encode_b32Encode (asel : BitVec 3) : encode (.b32Encode asel) = 0x00000002 ||| asel.zeroExtend 32 <<< 8 := by
  revert asel; decide

theorem encode_b32Decode (asel : BitVec 3) : encode (.b32Decode asel) = 0x00000003 ||| asel.zeroExtend 32 <<< 8 := by
  revert asel; decide

/-- Settles O15: the checks that come first are `codecChecked`, and `outResult` compares the encoding's length with
OUT_CAP. -/
theorem b32EncodeResult_spec : Obligations.B32EncodeResult := by
  intro s asel t hsel
  obtain ⟨id, hid, rfl, -, hready⟩ := hsel.exists_alpha
  have hlen : (encode32 (s.alpha id) s.input).length = (8 * s.inLen.toNat + 4) / 5 := by simp [encodedLength]
  rw [exec_b32Encode hid, b32EncodeResult_eq, hready]
  refine ⟨encode_b32Encode asel, fun hno => ?_, fun hok hin => ?_, fun hok hin hout => ?_, fun hok hin hout => ⟨?_, ?_⟩⟩
  · rw [codecChecked_of_not_loaded (not_not.1 hno)]
    rfl
  · rw [codecChecked_of_inCap_lt hok hin]
    rfl
  · have := inLen_le_of_le_inCap hin
    rw [codecChecked_of_passed hok hin, outResult_of_outCap_lt (by omega) (by omega), hlen]
    rfl
  · rw [codecChecked_of_passed hok hin, outResult_of_length_le (by omega)]
    rfl
  · exact congrArg (BitVec.ofNat 32) hlen

/-! ### B32_DECODE -/

theorem State.decode_input_error {s : State} {t : Table} {k : Nat} (hk : k < s.inLen.toNat)
    (hbad : s.bufByte .inBuf k ∉ t.syms) (hgood : ∀ l, l < k → s.bufByte .inBuf l ∈ t.syms) :
    decode32 t s.input = .error { pos := k, sym := s.bufByte .inBuf k } := by
  refine decode32_error_iff.2 ⟨by simpa using hk, s.getElem_input _, hbad, fun l hl => ?_⟩
  rw [s.getElem_input]
  exact hgood l hl

theorem State.exists_decode_input {s : State} {t : Table}
    (hgood : ∀ k, k < s.inLen.toNat → s.bufByte .inBuf k ∈ t.syms) :
    ∃ v, decode32 t s.input = .ok v ∧ v.length = 5 * s.inLen.toNat / 8 := by
  refine ⟨_, decode32_ok_iff.2 ⟨fun c hc => ?_, rfl⟩, by simp [decodedLength]⟩
  obtain ⟨k, hk, rfl⟩ := List.mem_map.1 hc
  exact hgood k (List.mem_range.1 hk)

/-- Settles O16: the checks that come first are `codecChecked`, then the decode answers with its first bad symbol or with the
bytes, and `outResult` compares their number with OUT_CAP. -/
theorem b32DecodeResult_spec : Obligations.B32DecodeResult := by
  intro s asel t hsel
  obtain ⟨id, hid, rfl, rfl, hready⟩ := hsel.exists_alpha
  rw [exec_b32Decode hid, b32DecodeResult_eq, hready]
  refine ⟨encode_b32Decode _, fun hno => ?_, fun hok hin => ?_, fun hok hin k hk hbad hgood => ?_, fun hok hin hgood => ?_⟩
  · rw [codecChecked_of_not_loaded (not_not.1 hno)]
    rfl
  · rw [codecChecked_of_inCap_lt hok hin]
    rfl
  · rw [codecChecked_of_passed hok hin, s.decode_input_error hk hbad hgood, storeDecoded, invalidSymbol,
      countWord_of_lt (n := k) (by omega)]
    rfl
  · obtain ⟨v, hv, hlen⟩ := s.exists_decode_input hgood
    rw [codecChecked_of_passed hok hin, hv, storeDecoded]
    refine ⟨fun hout => ?_, fun hout => ⟨v, hv, hlen, ?_⟩⟩
    · have := inLen_le_of_le_inCap hin
      rw [outResult_of_outCap_lt (by omega) (by omega), hlen]
      rfl
    · rw [outResult_of_length_le (by omega)]
      rfl

end Sys2Proof.Machine
end

section
/-! The fields of an envelope: the tag check (41_envelope_framing R86), and the iteration count on the wire and back (R88,
R89). -/

namespace Sys2Proof.Machine

/-! ### The tag check -/

theorem tagError_of_six_lt (sha3 : Bool) {t : Byte} (h : 6 < t.toNat) :
    tagError sha3 t = some (unsupportedAlgorithm 1 t) := by
  have hgt : t > 6 := BitVec.lt_def.2 h
  rw [tagError, if_pos hgt]

theorem tagError_of_sha3_absent {t : Byte} (h4 : 4 ≤ t.toNat) (h6 : t.toNat ≤ 6) :
    tagError false t = some (unsupportedAlgorithm 2 t) := by
  have hle : ¬t > 6 := fun h => absurd (BitVec.lt_def.1 h) (Nat.not_lt.2 h6)
  have hge : 4 ≤ t := BitVec.le_def.2 h4
  rw [tagError, if_neg hle, if_pos ⟨hge, rfl⟩]

/-- Settles O27: when the check passes is `tagError_eq_none_iff`. -/
theorem tagCheckRule : Obligations.TagCheckRule := by
  refine fun sha3 t => ⟨tagError_eq_none_iff sha3 t, tagError_of_six_lt sha3, fun h4 h6 hsha3 => ?_⟩
  subst hsha3
  exact tagError_of_sha3_absent h4 h6

/-! ### Packing a count -/

theorem dropHighZeros_cons (b : Byte) (bs : List Byte) : dropHighZeros (b :: bs) =
    if dropHighZeros bs = [] ∧ b = 0 then [] else b :: dropHighZeros bs := by
  cases h : dropHighZeros bs <;> simp [dropHighZeros, h]

theorem exists_dropHighZeros_append (bs : List Byte) : ∃ k, dropHighZeros bs ++ List.replicate k 0 = bs := by
  induction bs with
  | nil => exact ⟨0, rfl⟩
  | cons b bs ih =>
    obtain ⟨k, hk⟩ := ih
    rw [dropHighZeros_cons]
    split
    · rename_i h
      obtain ⟨hnil, rfl⟩ := h
      exact ⟨k + 1, by rw [← hk, hnil]; rfl⟩
    · exact ⟨k, congrArg (b :: ·) hk⟩

theorem getLast?_dropHighZeros_ne (bs : List Byte) : (dropHighZeros bs).getLast? ≠ some 0 := by
  induction bs with
  | nil => simp [dropHighZeros]
  | cons b bs ih =>
    rw [dropHighZeros_cons]
    split
    · simp
    · cases h : dropHighZeros bs with
      | nil => simp_all
      | cons c cs => rwa [List.getLast?_cons_cons, ← h]

/-- The four little-endian bytes of a count, before any is stripped (R88). -/
def iterBytes (it : Word) : List Byte := (List.range 4).map fun k => it.extractLsb' (8 * k) 8

theorem iterBytes_getElem? (it : Word) {k : Nat} (hk : k < 4) :
    (iterBytes it)[k]? = some (it.extractLsb' (8 * k) 8) := by
  simp [iterBytes, hk]

theorem iterPack_eq_cons (it : Word) :
    iterPack it = it.extractLsb' 0 8 :: dropHighZeros (iterBytes it).tail := rfl

/-- What `iterPack` strips are zero bytes. -/
theorem exists_iterPack_append (it : Word) : ∃ k, iterPack it ++ List.replicate k 0 = iterBytes it := by
  obtain ⟨k, hk⟩ := exists_dropHighZeros_append (iterBytes it).tail
  exact ⟨k, congrArg (it.extractLsb' 0 8 :: ·) hk⟩

theorem one_le_length_iterPack (it : Word) : 1 ≤ (iterPack it).length := Nat.le_add_left 1 _

theorem length_iterPack_le (it : Word) : (iterPack it).length ≤ 4 := by
  obtain ⟨k, hk⟩ := exists_iterPack_append it
  have hlen : (iterPack it).length + k = 4 := by simpa [iterBytes] using congrArg List.length hk
  omega

theorem getLast?_iterPack_ne {it : Word} (h : (iterPack it).length ≠ 1) : (iterPack it).getLast? ≠ some 0 := by
  have hlast := getLast?_dropHighZeros_ne (iterBytes it).tail
  rw [iterPack_eq_cons] at h ⊢
  cases hd : dropHighZeros (iterBytes it).tail with
  | nil => simp [hd] at h
  | cons c cs => rwa [List.getLast?_cons_cons, ← hd]

/-- Settles O28: the packed bytes and the zero bytes stripped make up the four bytes of the count
(`exists_iterPack_append`). -/
theorem iterationPack : Obligations.IterationPack := by
  refine ⟨fun it => ?_, by decide, by decide⟩
  obtain ⟨n, hn⟩ := exists_iterPack_append it
  have hlen := length_iterPack_le it
  refine ⟨one_le_length_iterPack it, hlen, fun k hk => ?_, fun k hk hk4 => ?_, getLast?_iterPack_ne⟩
  · rw [← iterBytes_getElem? it (by omega), ← hn, List.getElem?_append_left hk]
  · have hbyte := iterBytes_getElem? it hk4
    rw [← hn, List.getElem?_append_right hk] at hbyte
    exact List.eq_of_mem_replicate (List.mem_of_getElem? hbyte)

/-! ### Unpacking a count -/

theorem littleEndian_append_zeros (l : List Byte) (k : Nat) :
    littleEndian (l ++ List.replicate k 0) = littleEndian l := by
  induction l with
  | nil =>
    induction k with
    | zero => rfl
    | succ k ih => simpa [List.replicate_succ, littleEndian] using ih
  | cons b l ih => rw [List.cons_append, littleEndian, littleEndian, ih]

theorem littleEndian_lt (l : List Byte) : littleEndian l < 256 ^ l.length := by
  induction l with
  | nil => simp [littleEndian]
  | cons b l ih =>
    have hb := b.isLt
    rw [littleEndian, List.length_cons, Nat.pow_succ]
    omega

/-- The value as R89 writes it: byte `i` shifted by `8i`. -/
theorem littleEndian_eq_sum (l : List Byte) :
    littleEndian l = ((List.range l.length).map fun i => (l.getD i 0).toNat <<< (8 * i)).sum := by
  induction l with
  | nil => rfl
  | cons b l ih =>
    have hshift : ∀ i, (l.getD i 0).toNat <<< (8 * (i + 1)) = 256 * ((l.getD i 0).toNat <<< (8 * i)) := fun i => by
      rw [Nat.shiftLeft_eq, Nat.shiftLeft_eq, Nat.mul_succ, Nat.pow_add]
      ring
    rw [littleEndian, ih, ← List.sum_map_mul_left, List.length_cons, List.range_succ_eq_map]
    simp only [← hshift, List.map_cons, List.map_map, List.sum_cons]
    rfl

theorem littleEndian_iterPack (it : Word) : littleEndian (iterPack it) = it.toNat := by
  obtain ⟨k, hk⟩ := exists_iterPack_append it
  have hit := it.isLt
  rw [← littleEndian_append_zeros _ k, hk]
  simp [iterBytes, List.range_succ, littleEndian, BitVec.extractLsb'_toNat, Nat.shiftRight_eq_div_pow]
  omega

theorem iterUnpack_of_length {ib : List Byte} (h : ib.length < 1 ∨ 4 < ib.length) :
    iterUnpack ib = .error (iterationLength ib.length) := if_pos h

theorem iterUnpack_of_value {ib : List Byte} (h1 : 1 ≤ ib.length) (h4 : ib.length ≤ 4) : iterUnpack ib =
    if 2 ^ 31 ≤ littleEndian ib then .error (iterationValue (littleEndian ib))
    else .ok (BitVec.ofNat 32 (littleEndian ib)) := if_neg (by omega)

/-- R89 inverts R88. -/
theorem iterUnpack_iterPack {it : Word} (h : it.getLsbD 31 = false) : iterUnpack (iterPack it) = .ok it := by
  have hlt : it.toNat < 2 ^ 31 := by
    have hmsb : it.msb = false := h
    have := BitVec.msb_eq_false_iff_two_mul_lt.1 hmsb
    omega
  rw [iterUnpack_of_value (one_le_length_iterPack it) (length_iterPack_le it), littleEndian_iterPack,
    if_neg (by omega), BitVec.ofNat_toNat, BitVec.setWidth_eq]

/-- Settles O29: the value of R89 is `littleEndian` (`littleEndian_eq_sum`), which does not see a zero byte on top. -/
theorem iterationUnpack : Obligations.IterationUnpack := by
  refine ⟨fun ib => ⟨fun hbad hlen => ?_, fun h1 h4 it hit => ?_, fun h1 h3 => ?_⟩, fun it => iterUnpack_iterPack⟩
  · rw [iterUnpack_of_length hbad, iterationLength, countWord_of_lt hlen]
  · obtain rfl : it = littleEndian ib := hit.trans (littleEndian_eq_sum ib).symm
    rw [iterUnpack_of_value h1 h4]
    refine ⟨fun hge => ?_, fun hlt => if_neg (by omega)⟩
    have hvalue : littleEndian ib < 2 ^ 32 :=
      (littleEndian_lt ib).trans_le (Nat.pow_le_pow_right (by decide) h4)
    rw [if_pos hge, iterationValue, countWord_of_lt hvalue]
  · have hzero : littleEndian (ib ++ [0]) = littleEndian ib := littleEndian_append_zeros ib 1
    rw [iterUnpack_of_value h1 (by omega), iterUnpack_of_value (by simp) (by simp; omega), hzero]

end Sys2Proof.Machine
end

section
/-! The wire format (41_envelope_framing R90 to R97): what Serialize writes, and the order of the checks of Parse. -/

namespace Sys2Proof.Machine

/-! ### Serialize -/

theorem encodedLength_one : encodedLength 1 = 2 := rfl

theorem length_serialize (c : Table) (salt : List Byte) (it : Word) (t : Byte) (ct : List Byte) :
    (serialize c salt it t ct).length = encodedLength salt.length + encodedLength (iterPack it).length + 2 +
      encodedLength ct.length + 3 := by
  simp only [serialize, List.length_append, length_encode32, List.length_singleton, encodedLength_one]
  omega

/-- Settles O30: the segments are encodings (`length_encode32`), and an iteration count has 1 to 4 bytes. -/
theorem envelopeLength : Obligations.EnvelopeLength := by
  refine fun c salt it t ct => ⟨length_serialize c salt it t ct, (length_encode32 c [t]).trans encodedLength_one, ?_⟩
  have hall : ∀ n, n < 4 → encodedLength (n + 1) = [2, 4, 5, 7].getD n 0 := by decide
  have h1 := one_le_length_iterPack it
  have h4 := length_iterPack_le it
  rw [length_encode32, ← hall _ (by omega), Nat.sub_add_cancel h1]

/-- Settles O31, by evaluation of eight encodings of one byte. -/
theorem tagSegments : Obligations.TagSegments := by
  unfold Obligations.TagSegments
  decide

/-- R8: no symbol of CROCKFORD is the delimiter. -/
theorem delimiter_not_mem_crockford (p : Params) : delimiter ∉ p.crockford.syms := by
  have h := p.crockford_no_delimiter
  rwa [List.contains_eq_mem, decide_eq_false_iff_not] at h

theorem delimiter_not_mem_encode32 (p : Params) (b : List Byte) : delimiter ∉ encode32 p.crockford b := fun h =>
  delimiter_not_mem_crockford p (mem_of_mem_encode32 h)

/-- Settles O32: every symbol of a segment is one of the table. -/
theorem segmentsHaveNoDelimiter : Obligations.SegmentsHaveNoDelimiter := by
  refine fun p b => ⟨delimiter_not_mem_encode32 p b, fun it t ct => ?_⟩
  change (serialize p.crockford b it t ct).count delimiter = 3
  simp only [serialize, List.count_append, List.count_eq_zero_of_not_mem (delimiter_not_mem_encode32 p _),
    List.count_singleton_self]

/-! ### An envelope of four segments that decode -/

/-- Three delimiters cut a string into the four sequences between them (R95). -/
theorem segments_four {g0 g1 g2 g3 : List Byte} (h0 : delimiter ∉ g0) (h1 : delimiter ∉ g1) (h2 : delimiter ∉ g2)
    (h3 : delimiter ∉ g3) :
    segments (g0 ++ [delimiter] ++ g1 ++ [delimiter] ++ g2 ++ [delimiter] ++ g3) = [g0, g1, g2, g3] := by
  simp only [List.append_assoc, List.cons_append, List.nil_append]
  rw [segments_append_delimiter h0, segments_append_delimiter h1, segments_append_delimiter h2, segments_of_not_mem h3]

theorem delimiter_not_mem_of_decode32 {p : Params} {g v : List Byte} (h : decode32 p.crockford g = .ok v) :
    delimiter ∉ g := fun hmem => delimiter_not_mem_crockford p ((decode32_ok_iff.1 h).1 _ hmem)

theorem length_of_decode32 {t : Table} {g v : List Byte} (h : decode32 t g = .ok v) :
    v.length = decodedLength g.length := by
  obtain ⟨-, rfl⟩ := decode32_ok_iff.1 h
  simp

theorem decodeSegment_of_decode32 {c : Table} {g v : List Byte} (h : decode32 c g = .ok v) (i : BitVec 2) (q : Nat) :
    decodeSegment c i q g = .ok v := by
  simp only [decodeSegment, h]

theorem parse_of_decode32 {p : Params} {g0 g1 g2 g3 f0 f1 f2 f3 : List Byte}
    (h0 : decode32 p.crockford g0 = .ok f0) (h1 : decode32 p.crockford g1 = .ok f1)
    (h2 : decode32 p.crockford g2 = .ok f2) (h3 : decode32 p.crockford g3 = .ok f3) :
    parse p (g0 ++ [delimiter] ++ g1 ++ [delimiter] ++ g2 ++ [delimiter] ++ g3) = checkFields p f0 f1 f2 f3 := by
  have hsegs := segments_four (delimiter_not_mem_of_decode32 h0) (delimiter_not_mem_of_decode32 h1)
    (delimiter_not_mem_of_decode32 h2) (delimiter_not_mem_of_decode32 h3)
  simp only [parse, hsegs, parseSegments, decodeSegment_of_decode32 h0, decodeSegment_of_decode32 h1,
    decodeSegment_of_decode32 h2, decodeSegment_of_decode32 h3]

/-! ### The checks of the decoded fields, in order -/

section
variable {p : Params} {f0 f1 f2 f3 : List Byte}

theorem checkFields_of_iterUnpack_error {e : Raise} (h : iterUnpack f1 = .error e) :
    checkFields p f0 f1 f2 f3 = .error e := by
  simp only [checkFields, h]

variable {it : Word} (hit : iterUnpack f1 = .ok it)
include hit

theorem checkFields_of_tag_length (h : f2.length ≠ 1) : checkFields p f0 f1 f2 f3 = .error (tagLength f2.length) := by
  match f2 with
  | [] => simp only [checkFields, hit, List.length_nil]
  | [t] => exact absurd rfl h
  | _ :: _ :: _ => simp only [checkFields, hit]

theorem checkFields_of_tagError {t : Byte} {e : Raise} (h : tagError p.sha3 t = some e) :
    checkFields p f0 f1 [t] f3 = .error e := by
  simp only [checkFields, hit, h]

theorem checkFields_of_supported {t : Byte} (h : SupportedTag p.sha3 t) : checkFields p f0 f1 [t] f3 =
    if f0.length > p.saltCap then .error (capacityExceeded 2 f0.length)
    else if f3.length > p.ctCap then .error (capacityExceeded 3 f3.length)
    else .ok { salt := f0, iter := it, tag := t, ct := f3 } := by
  simp only [checkFields, hit, (tagError_eq_none_iff p.sha3 t).2 h]

theorem checkFields_of_passed {t : Byte} (h : SupportedTag p.sha3 t) (hsalt : f0.length ≤ p.saltCap)
    (hct : f3.length ≤ p.ctCap) : checkFields p f0 f1 [t] f3 = .ok { salt := f0, iter := it, tag := t, ct := f3 } := by
  rw [checkFields_of_supported hit h, if_neg (by omega), if_neg (by omega)]

end

/-- Settles O34: each segment decodes to its field (O25), the count unpacks to itself (`iterUnpack_iterPack`), and the
fields pass the checks. The converse fails at P-4, by evaluation. -/
theorem parseInvertsSerialize : Obligations.ParseInvertsSerialize := by
  refine ⟨fun p salt it t ct hsalt hit htag hct => ?_, by decide, by decide⟩
  have hdecode : ∀ b, decode32 p.crockford (encode32 p.crockford b) = .ok b := fun b =>
    base32RoundTrip p.crockford b p.crockford_valid
  rw [serialize, parse_of_decode32 (hdecode salt) (hdecode (iterPack it)) (hdecode [t]) (hdecode ct),
    checkFields_of_passed (iterUnpack_iterPack hit) htag hsalt hct]

/-! ### The first symbol outside the table -/

/-- The error of the first of the segments `gs` that does not decode. They are the segments from number `i` on, and the first
starts at position `q` of the envelope (R95). -/
def segmentsError (c : Table) : (i q : Nat) → List (List Byte) → Option Raise
  | _, _, [] => none
  | i, q, g :: gs =>
    match decodeSegment c (BitVec.ofNat 2 i) q g with
    | .error e => some e
    | .ok _ => segmentsError c (i + 1) (q + g.length + 1) gs

theorem segmentsError_cons_of_error {c : Table} {g : List Byte} {e : BadSymbol} (h : decode32 c g = .error e) (i q : Nat)
    (gs : List (List Byte)) :
    segmentsError c i q (g :: gs) = some (segmentSymbol e.sym (BitVec.ofNat 2 i) (q + e.pos)) := by
  simp only [segmentsError, decodeSegment, h]

theorem segmentsError_cons_of_ok {c : Table} {g v : List Byte} (h : decode32 c g = .ok v) (i q : Nat)
    (gs : List (List Byte)) : segmentsError c i q (g :: gs) = segmentsError c (i + 1) (q + g.length + 1) gs := by
  simp only [segmentsError, decodeSegment, h]

/-- Of four segments, the first that does not decode gives Parse's answer. -/
theorem parse_of_segmentsError {p : Params} {s : List Byte} (hdelims : delimiters s = 3) {e : Raise}
    (h : segmentsError p.crockford 0 0 (segments s) = some e) : parse p s = .error e := by
  have hlen : (segments s).length = 4 := by rw [length_segments, hdelims]
  match hsegs : segments s, hlen, h with
  | [g0, g1, g2, g3], _, h =>
    have hstart2 : g0.length + 1 + g1.length + 1 = g0.length + g1.length + 2 := by omega
    have hstart3 : g0.length + g1.length + 2 + g2.length + 1 = g0.length + g1.length + g2.length + 3 := by omega
    revert h
    simp only [parse, hsegs, parseSegments, segmentsError, Nat.zero_add, Nat.reduceAdd, hstart2, hstart3,
      BitVec.ofNat_eq_ofNat]
    cases decodeSegment p.crockford 0 0 g0 with
    | error e0 => simp
    | ok f0 =>
      cases decodeSegment p.crockford 1 (g0.length + 1) g1 with
      | error e1 => simp
      | ok f1 =>
        cases decodeSegment p.crockford 2 (g0.length + g1.length + 2) g2 with
        | error e2 => simp
        | ok f2 => cases decodeSegment p.crockford 3 (g0.length + g1.length + g2.length + 3) g3 <;> simp

/-- A symbol of the table moves the start of the first segment on by one. -/
theorem segmentsError_cons_symbol {c : Table} {x : Byte} (hx : x ∈ c.syms) (i q : Nat) (g : List Byte)
    (gs : List (List Byte)) : segmentsError c i q ((x :: g) :: gs) = segmentsError c i (q + 1) (g :: gs) := by
  cases h : decode32 c g with
  | error e =>
    obtain ⟨hpos, hsym, hbad, hgood⟩ := decode32_error_iff.1 h
    have hcons : decode32 c (x :: g) = .error { pos := e.pos + 1, sym := e.sym } := by
      refine decode32_error_iff.2 ⟨Nat.succ_lt_succ hpos, hsym, hbad, fun k hk => ?_⟩
      cases k with
      | zero => exact hx
      | succ k => exact hgood k (Nat.lt_of_succ_lt_succ hk)
    rw [segmentsError_cons_of_error hcons, segmentsError_cons_of_error h, Nat.add_assoc, Nat.add_comm 1]
  | ok v =>
    have hcons := decode32_ok_iff.2 ⟨List.forall_mem_cons.2 ⟨hx, (decode32_ok_iff.1 h).1⟩, rfl⟩
    rw [segmentsError_cons_of_ok hcons, segmentsError_cons_of_ok h, List.length_cons, Nat.add_assoc q 1,
      Nat.add_comm 1]

/-- A delimiter ends the first segment, and the next one starts after it. -/
theorem segmentsError_nil_cons (c : Table) (i q : Nat) (gs : List (List Byte)) :
    segmentsError c i q ([] :: gs) = segmentsError c (i + 1) (q + 1) gs :=
  segmentsError_cons_of_ok (decode32_ok_iff.2 ⟨List.forall_mem_nil _, rfl⟩) i q gs

theorem segmentsError_cons_bad {c : Table} {x : Byte} (hx : x ∉ c.syms) (i q : Nat) (g : List Byte)
    (gs : List (List Byte)) :
    segmentsError c i q ((x :: g) :: gs) = some (segmentSymbol x (BitVec.ofNat 2 i) q) := by
  have herror : decode32 c (x :: g) = .error { pos := 0, sym := x } :=
    decode32_error_iff.2 ⟨g.length.succ_pos, rfl, hx, fun _ hk => absurd hk (Nat.not_lt_zero _)⟩
  rw [segmentsError_cons_of_error herror, Nat.add_zero]

/-- The first symbol outside the table, `x` after `pre`, is reported with its position and with the number of its segment,
which is the number of delimiters before it (R95). -/
theorem segmentsError_of_first_bad {c : Table} {x : Byte} (hne : x ≠ delimiter) (hbad : x ∉ c.syms) (post : List Byte)
    {pre : List Byte} (hpre : ∀ y ∈ pre, y = delimiter ∨ y ∈ c.syms) (i q : Nat) :
    segmentsError c i q (segments (pre ++ x :: post)) =
      some (segmentSymbol x (BitVec.ofNat 2 (i + delimiters pre)) (q + pre.length)) := by
  induction pre generalizing i q with
  | nil =>
    obtain ⟨g, gs, hg⟩ := List.exists_cons_of_ne_nil (segments_ne_nil post)
    rw [List.nil_append, segments_cons_of_ne hne hg, segmentsError_cons_bad hbad]
    rfl
  | cons y pre ih =>
    obtain ⟨hy, hrest⟩ := List.forall_mem_cons.1 hpre
    by_cases hd : y = delimiter
    · subst hd
      rw [List.cons_append, segments_delimiter_cons, segmentsError_nil_cons, ih hrest]
      simp only [delimiters, List.count_cons_self, List.length_cons, Nat.add_assoc, Nat.add_comm 1]
    · obtain ⟨g, gs, hg⟩ := List.exists_cons_of_ne_nil (segments_ne_nil (pre ++ x :: post))
      rw [List.cons_append, segments_cons_of_ne hd hg, segmentsError_cons_symbol (hy.resolve_left hd), ← hg, ih hrest]
      simp only [delimiters, List.count_cons_of_ne hd, List.length_cons, Nat.add_assoc, Nat.add_comm 1]

/-! ### Parse -/

theorem parse_of_delimiters_ne {p : Params} {s : List Byte} (h : delimiters s ≠ 3) :
    parse p s = .error (segmentCount (delimiters s + 1)) := by
  have hlen := length_segments s
  unfold parse
  split
  · rename_i hsegs
    rw [hsegs] at hlen
    exact absurd (Nat.succ.inj hlen).symm h
  · rw [hlen]

theorem parse_of_first_bad {p : Params} {s : List Byte} (hdelims : delimiters s = 3) {k : Nat} (hk : k < s.length)
    (hne : s[k] ≠ delimiter) (hbad : s[k] ∉ p.crockford.syms)
    (hgood : ∀ l (_ : l < k), s[l] = delimiter ∨ s[l] ∈ p.crockford.syms) :
    parse p s = .error (segmentSymbol s[k] (BitVec.ofNat 2 (delimiters (s.take k))) k) := by
  have hsplit : s.take k ++ s[k] :: s.drop (k + 1) = s := by rw [List.getElem_cons_drop, List.take_append_drop]
  have hpre : ∀ y ∈ s.take k, y = delimiter ∨ y ∈ p.crockford.syms := fun y hy => by
    obtain ⟨l, hl, rfl⟩ := List.mem_take_iff_getElem.1 hy
    exact hgood l (by omega)
  have herror := segmentsError_of_first_bad hne hbad (s.drop (k + 1)) hpre 0 0
  rw [hsplit, Nat.zero_add, Nat.zero_add, List.length_take, Nat.min_eq_left (by omega)] at herror
  exact parse_of_segmentsError hdelims herror

/-- Settles O33: the number of delimiters comes first, then the first symbol outside the table (`parse_of_first_bad`), then
the checks of `checkFields` on the decoded segments. -/
theorem parseRule : Obligations.ParseRule := by
  refine fun p s hs => ⟨fun hdelims => ?_, fun hdelims k hk hne hbad hgood => ?_, ?_⟩
  · have hcount : delimiters s ≤ s.length := List.count_le_length
    rw [parse_of_delimiters_ne hdelims, segmentCount, countWord_of_lt (by omega)]
  · rw [parse_of_first_bad hdelims hk hne hbad hgood, segmentSymbol, countWord_of_lt (by omega)]
  · intro g0 g1 g2 g3 f0 f1 f2 f3 hsegs h0 h1 h2 h3
    have hparse : parse p s = checkFields p f0 f1 f2 f3 := hsegs ▸ parse_of_decode32 h0 h1 h2 h3
    have hlen : g0.length + g2.length + g3.length ≤ 65536 := by
      rw [hsegs] at hs
      simp only [List.length_append] at hs
      omega
    have hl0 := length_of_decode32 h0
    have hl2 := length_of_decode32 h2
    have hl3 := length_of_decode32 h3
    simp only [decodedLength] at hl0 hl2 hl3
    rw [hparse]
    refine ⟨fun e => checkFields_of_iterUnpack_error, fun it hit => ⟨fun hf2 => ?_, ?_⟩⟩
    · rw [checkFields_of_tag_length hit hf2, tagLength, countWord_of_lt (by omega)]
    · rintro t rfl
      refine ⟨fun e => checkFields_of_tagError hit, fun ht hsalt => ?_, fun ht hsalt hct => ?_,
        fun ht => checkFields_of_passed hit ht⟩
      · rw [checkFields_of_supported hit ht, if_pos hsalt, capacityExceeded, countWord_of_lt (by omega)]
      · rw [checkFields_of_supported hit ht, if_neg (by omega), if_pos hct, capacityExceeded,
          countWord_of_lt (by omega)]

end Sys2Proof.Machine
end

section
/-! ENV_SERIALIZE and ENV_PARSE (41_envelope_framing R98, R99): which check of a command answers first, and what its result
is. -/

namespace Sys2Proof.Machine

/-! ### ENV_SERIALIZE -/

theorem exec_envSerialize (s : State) : exec .envSerialize s = .next (s.finish 0x10 (envSerializeResult s)) := rfl

section
variable {s : State}

theorem envSerializeResult_of_saltCap_lt (h : s.cfg.saltCap < s.saltLen.toNat) :
    envSerializeResult s = .error (invalidArgument 3 s.saltLen) := by
  rw [envSerializeResult, if_pos h]

theorem envSerializeResult_of_ctCap_lt (hsalt : s.saltLen.toNat ≤ s.cfg.saltCap) (h : s.cfg.ctCap < s.ctLen.toNat) :
    envSerializeResult s = .error (invalidArgument 4 s.ctLen) := by
  rw [envSerializeResult, if_neg (by omega), if_pos h]

theorem envSerializeResult_of_iter (hsalt : s.saltLen.toNat ≤ s.cfg.saltCap) (hct : s.ctLen.toNat ≤ s.cfg.ctCap)
    (h : s.iter.getLsbD 31 = true) : envSerializeResult s = .error (invalidArgument 6 s.iter) := by
  rw [envSerializeResult, if_neg (by omega), if_neg (by omega), if_pos h]

theorem envSerializeResult_of_tagError (hargs : SerializeArgs s) {e : Raise}
    (h : tagError s.cfg.sha3 s.halgTag = some e) : envSerializeResult s = .error e := by
  obtain ⟨hsalt, hct, hiter⟩ := hargs
  rw [envSerializeResult, if_neg (by omega), if_neg (by omega), if_neg (Bool.eq_false_iff.1 hiter), h]

theorem envSerializeResult_of_supported (hargs : SerializeArgs s) (h : SupportedTag s.cfg.sha3 s.halgTag) :
    envSerializeResult s = outResult s (serialize s.cfg.crockford s.salt s.iter s.halgTag s.ciphertext) := by
  obtain ⟨hsalt, hct, hiter⟩ := hargs
  rw [envSerializeResult, if_neg (by omega), if_neg (by omega), if_neg (Bool.eq_false_iff.1 hiter),
    (tagError_eq_none_iff _ _).2 h]

/-- The capacities (R8) keep the length of an envelope within the 32 bits of ERRPOS. -/
theorem length_serialize_lt (hargs : SerializeArgs s) :
    (serialize s.cfg.crockford s.salt s.iter s.halgTag s.ciphertext).length < 2 ^ 32 := by
  obtain ⟨hsalt, hct, -⟩ := hargs
  have hsaltCap := s.cfg.saltCap_legal
  have hctCap := s.cfg.ctCap_legal
  have hiter := length_iterPack_le s.iter
  rw [length_serialize, State.salt, State.ciphertext, State.length_readBuf, State.length_readBuf]
  unfold encodedLength
  omega

end

/-- Settles O18: the checks come in the order of the lemmas above, and `outResult` compares the envelope's length with
OUT_CAP. -/
theorem envSerializeResult_spec : Obligations.EnvSerializeResult := by
  refine ⟨by decide, fun s env henv => ?_⟩
  replace henv : env = serialize s.cfg.crockford s.salt s.iter s.halgTag s.ciphertext := henv
  subst henv
  rw [exec_envSerialize]
  refine ⟨fun h => ?_, fun hsalt h => ?_, fun hsalt hct h => ?_, fun hargs h => ?_, fun hargs h4 h6 hsha3 => ?_,
    fun hargs htag hout => ?_, fun hargs htag hout => ?_⟩
  · rw [envSerializeResult_of_saltCap_lt h]
    rfl
  · rw [envSerializeResult_of_ctCap_lt hsalt h]
    rfl
  · rw [envSerializeResult_of_iter hsalt hct h]
    rfl
  · rw [envSerializeResult_of_tagError hargs (tagError_of_six_lt _ h)]
    rfl
  · rw [envSerializeResult_of_tagError hargs (hsha3 ▸ tagError_of_sha3_absent h4 h6)]
    rfl
  · rw [envSerializeResult_of_supported hargs htag, outResult_of_outCap_lt hout (length_serialize_lt hargs)]
    rfl
  · rw [envSerializeResult_of_supported hargs htag, outResult_of_length_le hout]
    rfl

/-! ### ENV_PARSE -/

theorem exec_envParse (s : State) : exec .envParse s = .next (s.finish 0x11 (envParseResult s)) := rfl

theorem envParseResult_of_inCap_lt {s : State} (h : s.cfg.inCap < s.inLen.toNat) :
    envParseResult s = .error (invalidArgument 1 s.inLen) := by
  rw [envParseResult, if_pos h]

theorem envParseResult_of_parse_error {s : State} (hin : s.inLen.toNat ≤ s.cfg.inCap) {e : Raise}
    (h : parse s.cfg s.input = .error e) : envParseResult s = .error e := by
  rw [envParseResult, if_neg (by omega), h]

theorem envParseResult_of_parse_ok {s : State} (hin : s.inLen.toNat ≤ s.cfg.inCap) {f : Fields}
    (h : parse s.cfg s.input = .ok f) : envParseResult s = .ok (s.putFields f) := by
  rw [envParseResult, if_neg (by omega), h]

/-- Settles O19: after the check of IN_LEN the answer is that of Parse, and `putFields` is the six destinations written. -/
theorem envParseResult_spec : Obligations.EnvParseResult := by
  refine ⟨by decide, fun s => ?_⟩
  rw [exec_envParse]
  refine ⟨fun h => ?_, fun hin => ⟨fun e he => ?_, fun f hf => ?_⟩⟩
  · rw [envParseResult_of_inCap_lt h]
    rfl
  · rw [envParseResult_of_parse_error hin he]
    rfl
  · rw [envParseResult_of_parse_ok hin hf]
    rfl

end Sys2Proof.Machine
end

section
/-! ENV_ENCRYPT and ENV_DECRYPT (42_envelope_crypto R102, R107 to R109), over any external IP: which check answers first, what
follows each answer of the IP, and that the second command undoes the first. -/

namespace Sys2Proof.Machine

/-! ### The derived material (R102) -/

/-- The only cut of the 48 bytes into 32 and 16 is the one into key and IV. -/
theorem eq_keyOf_and_eq_ivOf {dk : Bytes 48} {key : Bytes 32} {iv : Bytes 16} (h : key.1 ++ iv.1 = dk.1) :
    key = keyOf dk ∧ iv = ivOf dk :=
  ⟨Subtype.ext ((List.take_left' key.2).symm.trans (congrArg (List.take 32) h)),
    Subtype.ext ((List.drop_left' key.2).symm.trans (congrArg (List.drop 32) h))⟩

/-! ### The end of both commands: an output against OUT_CAP -/

theorem capacityExceeded_of_lt (sub : BitVec 4) {n : Nat} (h : n < 2 ^ 32) :
    capacityExceeded sub n = { code := .capacityExceeded, info := { sub := sub }, pos := BitVec.ofNat 32 n } := by
  rw [capacityExceeded, countWord_of_lt h]

/-- `outResult_of_outCap_lt` for an output of any length: only the external IP can give one of 2^32 bytes or more. -/
theorem outResult_of_outCap_lt_length {s : State} {v : List Byte} (h : s.cfg.outCap < v.length) :
    outResult s v = .error (capacityExceeded 1 v.length) := if_pos h

theorem outResult_ok {s t : State} {v : List Byte} (h : outResult s v = .ok t) :
    v.length ≤ s.cfg.outCap ∧ t = s.withOutput v := by
  by_cases hv : v.length ≤ s.cfg.outCap
  · exact ⟨hv, (Except.ok.inj ((outResult_of_length_le hv).symm.trans h)).symm⟩
  · rw [outResult_of_outCap_lt_length (by omega)] at h
    cases h

/-! ### ENV_ENCRYPT (R107) -/

section
variable {ip : ExtIP} {s : State}

theorem envEncryptWith_of_error {e : Raise} (h : envEncryptResult ip s = .error e) :
    envEncryptWith ip s = { s.failed 0x20 e.code e.info e.pos with rngDraw := s.rngDraw + 1 } := by
  rw [envEncryptWith, h]
  rfl

theorem envEncryptWith_of_ok {t : State} (h : envEncryptResult ip s = .ok t) :
    envEncryptWith ip s = { t.succeeded 0x20 with rngDraw := s.rngDraw + 1 } := by
  rw [envEncryptWith, h]
  rfl

theorem envEncryptResult_of_inCap_lt (h : s.cfg.inCap < s.inLen.toNat) :
    envEncryptResult ip s = .error (invalidArgument 1 s.inLen) := by
  rw [envEncryptResult, if_pos h]

theorem envEncryptResult_of_pwCap_lt (hin : s.inLen.toNat ≤ s.cfg.inCap) (h : s.cfg.pwCap < s.pwLen.toNat) :
    envEncryptResult ip s = .error (invalidArgument 2 s.pwLen) := by
  rw [envEncryptResult, if_neg (by omega), if_pos h]

theorem envEncryptResult_of_saltCap_lt (hin : s.inLen.toNat ≤ s.cfg.inCap) (hpw : s.pwLen.toNat ≤ s.cfg.pwCap)
    (h : s.cfg.saltCap < s.saltgenLen.toNat) : envEncryptResult ip s = .error (invalidArgument 5 s.saltgenLen) := by
  rw [envEncryptResult, if_neg (by omega), if_neg (by omega), if_pos h]

theorem envEncryptResult_of_iter (hin : s.inLen.toNat ≤ s.cfg.inCap) (hpw : s.pwLen.toNat ≤ s.cfg.pwCap)
    (hsalt : s.saltgenLen.toNat ≤ s.cfg.saltCap) (h : s.iter.getLsbD 31 = true) :
    envEncryptResult ip s = .error (invalidArgument 6 s.iter) := by
  rw [envEncryptResult, if_neg (by omega), if_neg (by omega), if_neg (by omega), if_pos h]

theorem envEncryptResult_of_tagError (hargs : EncryptArgs s) {e : Raise} (h : tagError s.cfg.sha3 s.halgTag = some e) :
    envEncryptResult ip s = .error e := by
  obtain ⟨hin, hpw, hsalt, hiter⟩ := hargs
  rw [envEncryptResult, if_neg (by omega), if_neg (by omega), if_neg (by omega), if_neg (Bool.eq_false_iff.1 hiter), h]

theorem envEncryptResult_of_supported (hargs : EncryptArgs s) (h : SupportedTag s.cfg.sha3 s.halgTag) :
    envEncryptResult ip s = sealEnvelope ip s := by
  obtain ⟨hin, hpw, hsalt, hiter⟩ := hargs
  rw [envEncryptResult, if_neg (by omega), if_neg (by omega), if_neg (by omega), if_neg (Bool.eq_false_iff.1 hiter),
    (tagError_eq_none_iff _ _).2 h]

/-! The answers of the external IP, in the order in which it is asked. -/

theorem sealEnvelope_of_rng_none (h : ip.rng s.rngDraw s.saltgenLen.toNat = none) :
    sealEnvelope ip s = .error rngFailed := by
  simp only [sealEnvelope, h]

variable {salt : Bytes s.saltgenLen.toNat} (hsalt : ip.rng s.rngDraw s.saltgenLen.toNat = some salt)
include hsalt

theorem sealEnvelope_of_kdf_none (h : ip.kdf s.password salt.1 s.iter s.halgTag = none) :
    sealEnvelope ip s = .error kdfFailed := by
  simp only [sealEnvelope, hsalt, h]

variable {dk : Bytes 48} (hdk : ip.kdf s.password salt.1 s.iter s.halgTag = some dk)
include hdk

theorem sealEnvelope_of_cipherEnc_none (h : ip.cipherEnc (keyOf dk) (ivOf dk) s.input = none) :
    sealEnvelope ip s = .error cipherFailed := by
  simp only [sealEnvelope, hsalt, hdk, h]

variable {ct : List Byte} (hct : ip.cipherEnc (keyOf dk) (ivOf dk) s.input = some ct)
include hct

theorem sealEnvelope_of_ctCap_lt (h : s.cfg.ctCap < ct.length) :
    sealEnvelope ip s = .error (capacityExceeded 3 ct.length) := by
  simp only [sealEnvelope, hsalt, hdk, hct, gt_iff_lt, h, if_true]

theorem sealEnvelope_of_length_le (h : ct.length ≤ s.cfg.ctCap) :
    sealEnvelope ip s = outResult s (serialize s.cfg.crockford salt.1 s.iter s.halgTag ct) := by
  simp only [sealEnvelope, hsalt, hdk, hct, gt_iff_lt, Nat.not_lt.2 h, if_false]

end

/-- The capacities (R8) keep the length of an envelope within the 32 bits of ERRPOS. -/
theorem length_serialize_lt_of_le {p : Params} {salt ct : List Byte} (hsalt : salt.length ≤ p.saltCap)
    (hct : ct.length ≤ p.ctCap) (c : Table) (it : Word) (t : Byte) : (serialize c salt it t ct).length < 2 ^ 32 := by
  have hsaltCap := p.saltCap_legal
  have hctCap := p.ctCap_legal
  have hiter := length_iterPack_le it
  rw [length_serialize]
  unfold encodedLength
  omega

theorem exec_envEncrypt (s : State) : exec .envEncrypt s = .next (envEncryptWith Config.ip s) := rfl

/-- Settles O20: the checks come in the order of the lemmas above, then the answers of the IP, and `outResult` compares the
envelope's length with OUT_CAP. -/
theorem envEncryptResult_spec : Obligations.EnvEncryptResult := by
  refine ⟨by decide, exec_envEncrypt, fun ip s => ⟨fun h => ?_, fun hin h => ?_, fun hin hpw h => ?_,
    fun hin hpw hsalt h => ?_, fun hargs h => ?_, fun hargs h4 h6 hsha3 => ?_, fun hargs htag => ?_⟩⟩
  · exact envEncryptWith_of_error (envEncryptResult_of_inCap_lt h)
  · exact envEncryptWith_of_error (envEncryptResult_of_pwCap_lt hin h)
  · exact envEncryptWith_of_error (envEncryptResult_of_saltCap_lt hin hpw h)
  · exact envEncryptWith_of_error (envEncryptResult_of_iter hin hpw hsalt h)
  · exact envEncryptWith_of_error (envEncryptResult_of_tagError hargs (tagError_of_six_lt _ h))
  · exact envEncryptWith_of_error (envEncryptResult_of_tagError hargs (hsha3 ▸ tagError_of_sha3_absent h4 h6))
  have hseal : envEncryptResult ip s = sealEnvelope ip s := envEncryptResult_of_supported hargs htag
  refine ⟨fun h => ?_, fun salt hsalt => ⟨fun h => ?_, fun dk hdk key iv hsplit => ?_⟩⟩
  · exact envEncryptWith_of_error (hseal.trans (sealEnvelope_of_rng_none h))
  · exact envEncryptWith_of_error (hseal.trans (sealEnvelope_of_kdf_none hsalt h))
  obtain ⟨rfl, rfl⟩ := eq_keyOf_and_eq_ivOf hsplit
  refine ⟨fun h => ?_, fun ct hct => ⟨fun h hlt => ?_, fun h => ⟨countWord ct.length, ?_⟩,
    fun hle env henv => ?_⟩⟩
  · exact envEncryptWith_of_error (hseal.trans (sealEnvelope_of_cipherEnc_none hsalt hdk h))
  · rw [sealEnvelope_of_ctCap_lt hsalt hdk hct h, capacityExceeded_of_lt 3 hlt] at hseal
    exact envEncryptWith_of_error hseal
  · exact envEncryptWith_of_error (hseal.trans (sealEnvelope_of_ctCap_lt hsalt hdk hct h))
  replace henv : env = serialize s.cfg.crockford salt.1 s.iter s.halgTag ct := henv
  rw [sealEnvelope_of_length_le hsalt hdk hct hle, ← henv] at hseal
  refine ⟨fun hout => ?_, fun hout => ?_⟩
  · obtain ⟨-, -, hsaltgen, -⟩ := hargs
    have hlen : env.length < 2 ^ 32 := henv ▸ length_serialize_lt_of_le (salt.2.trans_le hsaltgen) hle _ _ _
    exact envEncryptWith_of_error (hseal.trans (outResult_of_outCap_lt hout hlen))
  · exact envEncryptWith_of_ok (hseal.trans (outResult_of_length_le hout))

/-! ### ENV_DECRYPT (R108) -/

section
variable {ip : ExtIP} {s : State}

theorem envDecryptWith_of_error {e : Raise} (h : envDecryptResult ip s = .error e) :
    envDecryptWith ip s = s.failed 0x21 e.code e.info e.pos := by
  rw [envDecryptWith, h]
  rfl

theorem envDecryptWith_of_ok {t : State} (h : envDecryptResult ip s = .ok t) :
    envDecryptWith ip s = t.succeeded 0x21 := by
  rw [envDecryptWith, h]
  rfl

theorem envDecryptResult_of_inCap_lt (h : s.cfg.inCap < s.inLen.toNat) :
    envDecryptResult ip s = .error (invalidArgument 1 s.inLen) := by
  rw [envDecryptResult, if_pos h]

theorem envDecryptResult_of_pwCap_lt (hin : s.inLen.toNat ≤ s.cfg.inCap) (h : s.cfg.pwCap < s.pwLen.toNat) :
    envDecryptResult ip s = .error (invalidArgument 2 s.pwLen) := by
  rw [envDecryptResult, if_neg (by omega), if_pos h]

theorem envDecryptResult_of_parse_error (hin : s.inLen.toNat ≤ s.cfg.inCap) (hpw : s.pwLen.toNat ≤ s.cfg.pwCap)
    {e : Raise} (h : parse s.cfg s.input = .error e) : envDecryptResult ip s = .error e := by
  rw [envDecryptResult, if_neg (by omega), if_neg (by omega), h]

theorem envDecryptResult_of_parse_ok (hin : s.inLen.toNat ≤ s.cfg.inCap) (hpw : s.pwLen.toNat ≤ s.cfg.pwCap)
    {f : Fields} (h : parse s.cfg s.input = .ok f) : envDecryptResult ip s = openEnvelope ip s f := by
  rw [envDecryptResult, if_neg (by omega), if_neg (by omega), h]

variable {f : Fields}

theorem openEnvelope_of_kdf_none (h : ip.kdf s.password f.salt f.iter f.tag = none) :
    openEnvelope ip s f = .error kdfFailed := by
  simp only [openEnvelope, h]

variable {dk : Bytes 48} (hdk : ip.kdf s.password f.salt f.iter f.tag = some dk)
include hdk

theorem openEnvelope_of_cipherDec_none (h : ip.cipherDec (keyOf dk) (ivOf dk) f.ct = none) :
    openEnvelope ip s f = .error decryptionFailed := by
  simp only [openEnvelope, hdk, h]

theorem openEnvelope_of_cipherDec {pt : List Byte} (h : ip.cipherDec (keyOf dk) (ivOf dk) f.ct = some pt) :
    openEnvelope ip s f = outResult s pt := by
  simp only [openEnvelope, hdk, h]

end

theorem exec_envDecrypt (s : State) : exec .envDecrypt s = .next (envDecryptWith Config.ip s) := rfl

/-- Settles O21: the argument checks come first, then Parse, then the answers of the IP, and `outResult` compares the
plaintext's length with OUT_CAP. -/
theorem envDecryptResult_spec : Obligations.EnvDecryptResult := by
  refine ⟨by decide, exec_envDecrypt, fun ip s => ⟨fun h => ?_, fun hin h => ?_,
    fun hin hpw => ⟨fun e he => ?_, fun f hf => ?_⟩⟩⟩
  · exact envDecryptWith_of_error (envDecryptResult_of_inCap_lt h)
  · exact envDecryptWith_of_error (envDecryptResult_of_pwCap_lt hin h)
  · exact envDecryptWith_of_error (envDecryptResult_of_parse_error hin hpw he)
  have hopen : envDecryptResult ip s = openEnvelope ip s f := envDecryptResult_of_parse_ok hin hpw hf
  refine ⟨fun h => ?_, fun dk hdk key iv hsplit => ?_⟩
  · exact envDecryptWith_of_error (hopen.trans (openEnvelope_of_kdf_none h))
  obtain ⟨rfl, rfl⟩ := eq_keyOf_and_eq_ivOf hsplit
  refine ⟨fun h => ?_, fun pt hpt => ?_⟩
  · exact envDecryptWith_of_error (hopen.trans (openEnvelope_of_cipherDec_none hdk h))
  rw [openEnvelope_of_cipherDec hdk hpt] at hopen
  refine ⟨fun hout hlt => ?_, fun hout => ⟨countWord pt.length, ?_⟩, fun hout => ?_⟩
  · exact envDecryptWith_of_error (hopen.trans (outResult_of_outCap_lt hout hlt))
  · exact envDecryptWith_of_error (hopen.trans (outResult_of_outCap_lt_length hout))
  · exact envDecryptWith_of_ok (hopen.trans (outResult_of_length_le hout))

/-! ### Decrypting what was encrypted (R109) -/

/-- Equal bytes of two buffers, of one state or of two, are equal sequences. -/
theorem State.readBuf_eq_readBuf_iff {s t : State} {b c : Buf} {n : Nat} :
    t.readBuf b n = s.readBuf c n ↔ ∀ i, i < n → t.bufByte b i = s.bufByte c i := by
  simp [State.readBuf]

/-- What ENV_ENCRYPT has checked, and what the IP has answered, where it succeeds from `s` (R107). -/
structure Seals (ip : ExtIP) (s : State) (salt : Bytes s.saltgenLen.toNat) (dk : Bytes 48) (ct : List Byte) : Prop where
  args : EncryptArgs s
  tag : SupportedTag s.cfg.sha3 s.halgTag
  rng : ip.rng s.rngDraw s.saltgenLen.toNat = some salt
  kdf : ip.kdf s.password salt.1 s.iter s.halgTag = some dk
  cipher : ip.cipherEnc (keyOf dk) (ivOf dk) s.input = some ct
  ct_fits : ct.length ≤ s.cfg.ctCap
  envelope_fits : (serialize s.cfg.crockford salt.1 s.iter s.halgTag ct).length ≤ s.cfg.outCap

theorem envEncryptResult_ok_passed {ip : ExtIP} {s t : State} (h : envEncryptResult ip s = .ok t) :
    EncryptArgs s ∧ SupportedTag s.cfg.sha3 s.halgTag := by
  unfold envEncryptResult at h
  split at h
  · cases h
  split at h
  · cases h
  split at h
  · cases h
  split at h
  · cases h
  split at h
  · cases h
  · rename_i hin hpw hsalt hiter _ htag
    exact ⟨⟨Nat.not_lt.1 hin, Nat.not_lt.1 hpw, Nat.not_lt.1 hsalt, Bool.eq_false_iff.2 hiter⟩,
      (tagError_eq_none_iff _ _).1 htag⟩

/-- An ENV_ENCRYPT that succeeds has written the envelope of the drawn salt and of the ciphertext. -/
theorem exists_seals_of_ok {ip : ExtIP} {s t : State} (h : envEncryptResult ip s = .ok t) :
    ∃ salt dk ct, Seals ip s salt dk ct ∧
      t = s.withOutput (serialize s.cfg.crockford salt.1 s.iter s.halgTag ct) := by
  obtain ⟨hargs, htag⟩ := envEncryptResult_ok_passed h
  rw [envEncryptResult_of_supported hargs htag] at h
  cases hrng : ip.rng s.rngDraw s.saltgenLen.toNat with
  | none => rw [sealEnvelope_of_rng_none hrng] at h; cases h
  | some salt =>
    cases hkdf : ip.kdf s.password salt.1 s.iter s.halgTag with
    | none => rw [sealEnvelope_of_kdf_none hrng hkdf] at h; cases h
    | some dk =>
      cases hcipher : ip.cipherEnc (keyOf dk) (ivOf dk) s.input with
      | none => rw [sealEnvelope_of_cipherEnc_none hrng hkdf hcipher] at h; cases h
      | some ct =>
        by_cases hct : ct.length ≤ s.cfg.ctCap
        · rw [sealEnvelope_of_length_le hrng hkdf hcipher hct] at h
          obtain ⟨hout, ht⟩ := outResult_ok h
          exact ⟨salt, dk, ct, ⟨hargs, htag, hrng, hkdf, hcipher, hct, hout⟩, ht⟩
        · rw [sealEnvelope_of_ctCap_lt hrng hkdf hcipher (Nat.not_le.1 hct)] at h; cases h

/-- Every error has a code (`envEncryptResult_ends`), so ERRCODE 0 is a success. -/
theorem exists_seals_of_noError {ip : ExtIP} {s : State} (h : (envEncryptWith ip s).errCode = .noError) :
    ∃ salt dk ct, Seals ip s salt dk ct ∧ envEncryptWith ip s =
      { (s.withOutput (serialize s.cfg.crockford salt.1 s.iter s.halgTag ct)).succeeded 0x20 with
        rngDraw := s.rngDraw + 1 } := by
  have hends := envEncryptResult_ends ip s
  cases hr : envEncryptResult ip s with
  | error e =>
    rw [hr] at hends
    rw [envEncryptWith_of_error hr] at h
    exact absurd h hends
  | ok t =>
    obtain ⟨salt, dk, ct, hseals, rfl⟩ := exists_seals_of_ok hr
    exact ⟨salt, dk, ct, hseals, envEncryptWith_of_ok hr⟩

/-- ENV_DECRYPT undoes ENV_ENCRYPT: Parse inverts Serialize (R96), so the key derivation is asked the same question again,
and the cipher inverts. -/
theorem Seals.envDecryptWith_eq {ip : ExtIP} {s u : State} {salt : Bytes s.saltgenLen.toNat} {dk : Bytes 48}
    {ct : List Byte} (h : Seals ip s salt dk ct) (hinv : ip.CipherInverse) (hcfg : u.cfg = s.cfg)
    (hin : u.inLen.toNat ≤ u.cfg.inCap)
    (hinput : u.input = serialize s.cfg.crockford salt.1 s.iter s.halgTag ct) (hpwLen : u.pwLen = s.pwLen)
    (hpassword : u.password = s.password) (hout : s.inLen.toNat ≤ u.cfg.outCap) :
    envDecryptWith ip u = (u.withOutput s.input).succeeded 0x21 := by
  obtain ⟨⟨-, hpw, hsalt, hiter⟩, htag, -, hkdf, hcipher, hct, -⟩ := h
  have hparse : parse u.cfg u.input = .ok { salt := salt.1, iter := s.iter, tag := s.halgTag, ct := ct } := by
    rw [hinput, hcfg]
    exact parseInvertsSerialize.1 s.cfg salt.1 s.iter s.halgTag ct (salt.2.trans_le hsalt) hiter htag hct
  have hopen := envDecryptResult_of_parse_ok (ip := ip) hin (by rwa [hpwLen, hcfg]) hparse
  rw [openEnvelope_of_cipherDec (by rwa [hpassword]) (hinv _ _ _ _ hcipher),
    outResult_of_length_le (s.length_input.trans_le hout)] at hopen
  exact envDecryptWith_of_ok hopen

/-- Settles O35: a success of ENV_ENCRYPT gives the facts of `Seals`, and `Seals.envDecryptWith_eq` the whole state after
ENV_DECRYPT. -/
theorem decryptRecoversPlaintext : Obligations.DecryptRecoversPlaintext := by
  refine ⟨fun s => ⟨exec_envEncrypt s, exec_envDecrypt s⟩, fun ip s hsha3 h4 h6 hok => ?_,
    fun ip s u hinv hok hcfg hlen hin hbytes hpwLen hpw hout => ?_⟩
  · obtain ⟨_, _, _, hseals, -⟩ := exists_seals_of_noError hok
    obtain ⟨-, h3 | hsha3'⟩ := hseals.tag
    · omega
    · exact absurd hsha3' (Bool.eq_false_iff.1 hsha3)
  · obtain ⟨salt, dk, ct, hseals, henc⟩ := exists_seals_of_noError hok
    have hlength : u.inLen.toNat = (serialize s.cfg.crockford salt.1 s.iter s.halgTag ct).length := by
      rw [hlen, henc]
      exact State.putOut_outLen_toNat hseals.envelope_fits
    have hinput : u.input = serialize s.cfg.crockford salt.1 s.iter s.halgTag ct := by
      rw [State.input, State.readBuf_eq_readBuf_iff.2 hbytes, hlength, henc]
      exact State.readBuf_of_mem_eq rfl
    have hpassword : u.password = s.password := by
      rw [State.password, State.readBuf_congr hpw, hpwLen, State.password]
    rw [hseals.envDecryptWith_eq hinv hcfg hin hinput hpwLen hpassword hout]
    refine ⟨rfl, ?_, State.readBuf_eq_readBuf_iff.1 ?_⟩
    · change BitVec.ofNat 32 s.input.length = s.inLen
      rw [s.length_input, BitVec.ofNat_toNat, BitVec.setWidth_eq]
    · have hread : ((u.withOutput s.input).succeeded 0x21).readBuf .outBuf s.input.length = s.input :=
        State.readBuf_of_mem_eq (m := u.mem) rfl
      rw [s.length_input] at hread
      exact hread

end Sys2Proof.Machine
end

section
/-! NOP and SOFT_RESET (43_control R110, R111). -/

namespace Sys2Proof.Machine

/-! ### The words of commands without an operand -/

/-- The bits above the opcode (30_encoding R59). -/
theorem extractLsb'_above_opcode (w : Word) : w.extractLsb' 8 24 = rsvdField w ++ aselField w :=
  (BitVec.extractLsb'_append_extractLsb'_eq_extractLsb' (x := w) (start₁ := 8) (len₁ := 3) (len₂ := 21) rfl).symm

/-- Only B32_ENCODE and B32_DECODE allow a nonzero bit above the opcode (30_encoding R62). -/
theorem not_legal_of_above_opcode {w : Word} (hop : opField w ∉ ([0x02, 0x03] : List Byte))
    (habove : w.extractLsb' 8 24 ≠ 0) : ¬ Legal w := by
  intro hlegal
  obtain ⟨hrsvd, -, -, hplain⟩ := (legal_iff_fields w).1 hlegal
  refine habove ?_
  rw [extractLsb'_above_opcode, hrsvd, hplain hop]
  rfl

theorem State.completeWord_of_above_opcode {w : Word} {op : Byte} (hop : w.extractLsb' 0 8 = op)
    (hplain : op ∉ ([0x02, 0x03] : List Byte)) (habove : w.extractLsb' 8 24 ≠ 0) (s : State) :
    s.completeWord w = .next (s.failed op .illegalCommand {} w) := by
  subst hop
  exact State.completeWord_of_illegal (not_legal_of_above_opcode hplain habove) s

/-! ### Results -/

/-- After a success STATUS shows LAST_OP and DONE only, if WERR was 0 (10_state R22). -/
theorem State.succeeded_status {s : State} (h : s.werr = false) (op : Byte) :
    (s.succeeded op).status = (0 : BitVec 8) ++ op ++ (0x0002 : BitVec 16) := by
  change (0 : BitVec 8) ++ op ++ (0 : Byte) ++ (0 : BitVec 4) ++ BitVec.ofBool s.werr ++ 0#1 ++ 1#1 ++ 0#1 = _
  rw [h]
  revert op
  decide

theorem exec_nop (s : State) : exec .nop s = .next (s.succeeded 0x00) := rfl

theorem exec_softReset (s : State) : exec .softReset s = .next (s.resetRegs.succeeded 0xFF) := rfl

/-- Settles O12: NOP is `exec_nop`, its STATUS is `succeeded_status`, and a word with more bits set is illegal
(`completeWord_of_above_opcode`). -/
theorem nopChangesOnlyTheStatus : Obligations.NopChangesOnlyTheStatus :=
  ⟨by decide, fun s => ⟨exec_nop s, rfl, fun hwerr => State.succeeded_status hwerr 0x00⟩,
    fun _ s hop habove => State.completeWord_of_above_opcode hop (by decide) habove s⟩

/-- Settles O13: SOFT_RESET is `exec_softReset`, whose `resetRegs` gives the registers the values of R131 and keeps
the memory and the draw that the buffer bytes come from (`exec_mem_of_register_command`). -/
theorem softResetRestoresResetValues : Obligations.SoftResetRestoresResetValues := by
  refine ⟨by decide, exec_softReset, fun s t ht => ?_,
    fun _ s hop habove => State.completeWord_of_above_opcode hop (by decide) habove s⟩
  obtain ⟨hmem, hdraw⟩ := exec_mem_of_register_command (.inr (.inr rfl)) ht
  have hbytes : ∀ b i, t.bufByte b i = s.bufByte b i := fun b i => State.bufByte_congr hdraw (by rw [hmem])
  obtain rfl := Host.Outcome.next.inj ht
  exact ⟨State.succeeded_status s.resetRegs_werr 0xFF, rfl, State.read_offset _ _ .alphaStat, rfl, hbytes⟩

end Sys2Proof.Machine
end

section
/-! How commands end (60_exceptions R117 to R119): from `exec_spec`, every completion step answers an idle block with DONE 1,
an error changes the completion status only, and a success clears ERRINFO and ERRPOS. -/

namespace Sys2Proof.Machine

/-! ### The completion status -/

/-- Both ends of a completion step write PHASE, DONE and LAST_OP alike. -/
theorem State.finish_status (s : State) (op : Byte) (r : Except Raise State) :
    (s.finish op r).phase = .idle ∧ (s.finish op r).done = true ∧ (s.finish op r).lastOp = op := by
  cases r <;> exact ⟨rfl, rfl, rfl⟩

/-- Settles O9: by `exec_spec` a command answers a next state, with the status of `finish_status`. -/
theorem everyCommandCompletes : Obligations.EveryCommandCompletes := by
  intro i s
  obtain ⟨r, -, he⟩ := exec_spec i s
  obtain ⟨hphase, hdone, hop⟩ := s.finish_status i.opcode r
  exact ⟨_, he, hphase, hdone, hop.trans (opField_encode i).symm⟩

/-! ### Errors and successes -/

theorem exec_of_error {i : Instr} {s t : State} (h : exec i s = .next t) (herr : t.errCode ≠ .noError) :
    t = { s.failed i.opcode t.errCode t.errInfo t.errPos with rngDraw := t.rngDraw } := by
  obtain ⟨r, -, he⟩ := exec_spec i s
  obtain rfl := Host.Outcome.next.inj (he.symm.trans h)
  cases r with
  | error e => rfl
  | ok u => exact absurd rfl herr

/-- Settles O10: a command's error is `exec_of_error`. A word raises as the command it decodes to, whose opcode it holds, or as
an illegal word. -/
theorem errorsArePrecise : Obligations.ErrorsArePrecise := by
  refine ⟨fun w s t h herr => ?_, fun i s t h herr => ?_⟩
  · rcases s.completeWord_cases w with ⟨i, hdec, hi⟩ | ⟨-, hraise⟩
    · obtain ⟨-, hop, -, -⟩ := (decode_ok_iff w i).1 hdec
      rw [show w.extractLsb' 0 8 = i.opcode from hop]
      exact exec_of_error (hi.symm.trans h) herr
    · obtain rfl := Host.Outcome.next.inj (hraise.symm.trans h)
      rfl
  · rw [show (encode i).extractLsb' 0 8 = i.opcode from opField_encode i]
    exact exec_of_error h herr

/-- Settles O11: by `exec_spec` an error has a code, so a command that reports none has committed. -/
theorem successClearsErrorStatus : Obligations.SuccessClearsErrorStatus := by
  intro i s t h hok
  obtain ⟨r, hr, he⟩ := exec_spec i s
  obtain rfl := Host.Outcome.next.inj (he.symm.trans h)
  cases r with
  | error e => exact absurd hok hr
  | ok u => rfl

end Sys2Proof.Machine
end

section
/-! A busy block completes (70_reset R140): host turns leave the command in flight, and the sequencer's turn after them ends
it (60_exceptions R117). -/

namespace Sys2Proof.Machine

/-! ### Runs -/

theorem reaches_zero_iff {s t : State} : Reaches s 0 t ↔ s = t := ⟨Host.Outcome.next.inj, congrArg Host.Outcome.next⟩

/-- A run takes its first step and then the others. -/
theorem reaches_succ_iff {s t : State} {k : Nat} : Reaches s (k + 1) t ↔ ∃ u, step s = .next u ∧ Reaches u k t := by
  have hstep : Sys2Proof.core.step s = step s := rfl
  simp only [Reaches, Host.Core.run, hstep]
  cases step s <;> simp

/-! ### A host turn leaves the command in flight -/

theorem State.hostTurn_keeps_flight {s t : State} (hbusy : s.phase ≠ .idle) (h : s.hostTurn = .next t) :
    t.phase = s.phase ∧ t.rst = s.rst ∧ t.schedule = s.schedule := by
  rcases State.hostTurn_cases h with rfl | ⟨a, -, ht⟩
  · exact ⟨rfl, rfl, rfl⟩
  · rw [ht, inputsFrozenWhileBusy s a hbusy]
    exact ⟨rfl, rfl, rfl⟩

theorem step_of_host_keeps_flight {s t : State} {r : List Turn} (hbusy : s.phase ≠ .idle)
    (hsched : s.schedule = .host :: r) (h : step s = .next t) : t.phase = s.phase ∧ t.rst = s.rst ∧ t.schedule = r :=
  State.hostTurn_keeps_flight (s := { s with schedule := r }) hbusy ((step_of_host_scheduled hsched).symm.trans h)

/-! ### The sequencer's turn ends it -/

/-- Legal or not, the word in flight completes (60_exceptions R116, R117). -/
theorem State.exists_completeWord (s : State) (w : Word) :
    ∃ t, s.completeWord w = .next t ∧ t.phase = .idle ∧ t.done = true := by
  rcases s.completeWord_cases w with ⟨i, -, hi⟩ | ⟨-, hraise⟩
  · obtain ⟨t, ht, hphase, hdone, -⟩ := everyCommandCompletes i s
    exact ⟨t, hi.trans ht, hphase, hdone⟩
  · exact ⟨_, hraise, rfl, rfl⟩

theorem exists_step_completes {s : State} (hbusy : s.phase ≠ .idle) (hr : s.rst = false)
    (hsched : s.schedule = [] ∨ s.schedule.head? = some .sequencer) :
    ∃ t, step s = .next t ∧ t.phase = .idle ∧ t.done = true := by
  rw [step_of_turn_sequencer (State.turn_of_sequencer_due hr hbusy hsched)]
  cases hphase : s.phase with
  | idle => exact absurd hphase hbusy
  | busy w =>
    rw [State.sequencerTurn_of_busy (s := s.popTurn) hr hphase]
    exact s.popTurn.exists_completeWord w

/-- Settles O8, by induction on the host turns: with none left the sequencer ends the command (`exists_step_completes`), and
each leaves it in flight (`step_of_host_keeps_flight`). -/
theorem busyBlockCompletes : Obligations.BusyBlockCompletes := by
  intro k
  induction k with
  | zero =>
    intro s t hbusy hr hsched
    obtain ⟨v, hv, hidle, hdone⟩ := exists_step_completes hbusy hr (.inl hsched)
    refine ⟨fun u hu => ?_, fun ht => ?_⟩
    · obtain rfl := reaches_zero_iff.1 hu
      exact ⟨v, hv⟩
    · obtain ⟨u, hu, hut⟩ := reaches_succ_iff.1 ht
      obtain rfl := reaches_zero_iff.1 hut
      obtain rfl := Host.Outcome.next.inj (hv.symm.trans hu)
      exact ⟨hidle, hdone⟩
  | succ k ih =>
    intro s t hbusy hr hsched
    have hrest : ∀ s', step s = .next s' →
        (∀ u, Reaches s' k u → ∃ v, step u = .next v) ∧ (Reaches s' (k + 1) t → t.phase = .idle ∧ t.done = true) := by
      intro s' hs'
      obtain ⟨hphase, hrst, hsched'⟩ := step_of_host_keeps_flight hbusy hsched hs'
      exact ih s' t (by rwa [hphase]) (hrst.trans hr) hsched'
    refine ⟨fun u hu => ?_, fun ht => ?_⟩
    · obtain ⟨s', hs', hu'⟩ := reaches_succ_iff.1 hu
      exact (hrest s' hs').1 u hu'
    · obtain ⟨s', hs', ht'⟩ := reaches_succ_iff.1 ht
      exact (hrest s' hs').2 ht'

end Sys2Proof.Machine
end

section
/-! The interrupt output (60_exceptions R122): it follows DONE, under DONE_IE, which of the commands SOFT_RESET alone
writes. -/

namespace Sys2Proof.Machine

/-! ### Completion steps -/

theorem Effect.doneIe {i : Instr} {s t : State} (h : Effect i s t) (hi : i ≠ .softReset) : t.doneIe = s.doneIe := by
  cases i
  case softReset => exact absurd rfl hi
  case nop => subst h; rfl
  case alphaLoad => obtain ⟨-, rfl⟩ := h; rfl
  case envParse => obtain ⟨f, -, -, rfl⟩ := h; rfl
  all_goals obtain ⟨v, -, rfl⟩ := h; rfl

theorem exec_irq {i : Instr} {s t : State} (h : exec i s = .next t) (hi : i ≠ .softReset) : t.irq = s.doneIe := by
  obtain ⟨r, hr, he⟩ := exec_spec i s
  obtain rfl := Host.Outcome.next.inj (he.symm.trans h)
  cases r with
  | error e => rfl
  | ok u =>
    have heffect : Effect i s u := hr
    exact heffect.doneIe hi

theorem State.completeWord_irq {s t : State} {w : Word} (h : s.completeWord w = .next t) (hw : w ≠ 0x000000FF) :
    t.irq = s.doneIe := by
  rcases s.completeWord_cases w with ⟨i, hdec, hi⟩ | ⟨-, hraise⟩
  · refine exec_irq (hi.symm.trans h) ?_
    rintro rfl
    obtain ⟨henc, -⟩ := encodeInvertsDecode w _ hdec
    exact hw (henc.symm.trans (by decide))
  · obtain rfl := Host.Outcome.next.inj (hraise.symm.trans h)
    rfl

theorem State.completeWord_softReset (s : State) :
    s.completeWord 0x000000FF = .next (s.resetRegs.succeeded 0xFF) :=
  (State.completeWord_of_decode (by decide) s).trans (exec_softReset s)

/-! ### What the host reads and writes -/

theorem State.irq_eq_false_of_done {s : State} (h : s.done = false) : s.irq = false := by simp [State.irq, h]

theorem State.irq_eq_false_of_doneIe {s : State} (h : s.doneIe = false) : s.irq = false := by simp [State.irq, h]

/-- IRQ in terms of STATUS[1] and INT_EN[0] (10_state R22, R25). -/
theorem State.irq_eq_read (s : State) : s.irq = (s.status.getLsbD 1 && (s.read .w32 0x014).getLsbD 0) := by
  have hstatus : s.status.getLsbD 1 = s.done := by
    rw [State.status_getLsbD]
    simp
  have hintEn : (s.read .w32 0x014).getLsbD 0 = s.doneIe := by
    rw [show s.read .w32 0x014 = s.readReg .intEn from s.read_offset .w32 .intEn]
    simp [State.readReg]
  rw [hstatus, hintEn, State.irq]

/-- Settles O55: after a completion step IRQ is DONE_IE (`completeWord_irq`), and each of the other events clears DONE or
DONE_IE. -/
theorem interruptFollowsDone : Obligations.InterruptFollowsDone := by
  refine ⟨State.irq_eq_read, fun s t w => State.completeWord_irq, fun s t h => ?softReset, fun s v hv => ?clearDone,
    fun s v hv => ?clearEnable, fun s w hidle => ?issue, fun s => rfl⟩
  case softReset =>
    obtain rfl := Host.Outcome.next.inj (s.completeWord_softReset.symm.trans h)
    rfl
  case clearDone =>
    rw [show s.write .w32 0x008 v = s.writeStatus v from s.write_offset .w32 .status v]
    exact State.irq_eq_false_of_done (by simp [State.writeStatus, hv])
  case clearEnable =>
    rw [show s.write .w32 0x014 v = s.writeReg .intEn v from s.write_offset .w32 .intEn v]
    exact State.irq_eq_false_of_doneIe hv
  case issue =>
    rw [show s.write .w32 0x004 w = s.unlessBusy (s.issue w) from s.write_offset .w32 .cmd w,
      State.unlessBusy_of_idle hidle]
    exact State.irq_eq_false_of_done rfl

end Sys2Proof.Machine
end

section
/-! The writes dropped while a command is in flight (70_reset_and_hazards R134). -/

namespace Sys2Proof.Machine

/-! ### Registers -/

/-- CMD and the input registers: the offsets in `BusyDrops` are theirs. -/
def busyDroppedRegs : List Reg := [.cmd, .inLen, .pwLen, .saltLen, .ctLen, .iter, .halg, .saltgenLen]

theorem State.writeReg_of_busy {s : State} (hbusy : s.phase ≠ .idle) {r : Reg} (hr : r ∈ busyDroppedRegs) (v : Word) :
    s.writeReg r v = { s with werr := true } := by
  cases r
  case cmd | inLen | pwLen | saltLen | ctLen | iter | halg | saltgenLen => exact State.unlessBusy_of_busy hbusy _
  all_goals exact absurd hr (by decide)

/-- The registers left over are read-only (10_state R19). -/
theorem State.writeReg_of_read_only {r : Reg} (hr : r ∉ busyDroppedRegs) (hstatus : r ≠ .status) (hintEn : r ≠ .intEn)
    (s : State) (v : Word) : s.writeReg r v = s := by
  cases r
  case status => exact absurd rfl hstatus
  case intEn => exact absurd rfl hintEn
  case cmd | inLen | pwLen | saltLen | ctLen | iter | halg | saltgenLen => exact absurd (by decide) hr
  all_goals rfl

/-! ### Buffers -/

theorem State.writeAperture_of_busy {s : State} (hbusy : s.phase ≠ .idle) {b : Buf} (hb : b ≠ .outBuf) {i : Nat}
    (hi : i < b.cap s.cfg) (n : Nat) (v : Word) : s.writeAperture b i n v = { s with werr := true } := by
  simp [State.writeAperture, hostWritable, hb, hi, State.unlessBusy_of_busy hbusy]

/-- OUT_BUF, and what lies at or past a capacity, ignore a write (10_state R35, 20_memory R48). -/
theorem State.writeAperture_of_ignored {s : State} {b : Buf} {i : Nat} (h : b ≠ .outBuf → b.cap s.cfg ≤ i) (n : Nat)
    (v : Word) : s.writeAperture b i n v = s := by
  rw [State.writeAperture, if_neg]
  simpa [hostWritable] using h

theorem bounds_of_regionOf_aperture {off : Nat} {b : Buf} (h : regionOf off = some (.aperture b)) :
    b.base ≤ off ∧ off < b.base + 0x10000 := by
  unfold regionOf at h
  split_ifs at h <;> cases h <;> simp only [Buf.base] <;> omega

/-! ### Any write -/

theorem State.write_of_busyDrops {s : State} (hbusy : s.phase ≠ .idle) {w : Width} {off : Nat}
    (h : BusyDrops s w off) (v : Word) : s.write w off v = { s with werr := true } := by
  rcases h with hreg | ⟨b, k, hb, hlo, hhi, -, hcap⟩
  · obtain ⟨r, hr, rfl⟩ : ∃ r ∈ busyDroppedRegs, r.offset = off := List.mem_map.1 hreg
    rw [State.write_offset, State.writeReg_of_busy hbusy hr]
  · simp only [State.write, regionOf_of_aperture hlo hhi]
    exact State.writeAperture_of_busy hbusy hb (by omega) _ v

/-- Outside R134's list only STATUS and INT_EN act. In a buffer the lane to look at is the first one, as lanes rise. -/
theorem State.write_of_not_busyDrops {s : State} {w : Width} {off : Nat} (h : ¬ BusyDrops s w off)
    (hstatus : off ≠ 0x008) (hintEn : off ≠ 0x014) (v : Word) : s.write w off v = s := by
  unfold State.write
  split
  · rfl
  · split
    · rename_i r hr
      obtain rfl := regAt_eq_some hr
      exact State.writeReg_of_read_only (fun hmem => h (.inl (List.mem_map_of_mem (f := Reg.offset) hmem)))
        (fun hr => hstatus (congrArg Reg.offset hr)) (fun hr => hintEn (congrArg Reg.offset hr)) s v
    · rfl
  · rfl
  · rfl
  · rename_i b hregion
    obtain ⟨hlo, hhi⟩ := bounds_of_regionOf_aperture hregion
    refine State.writeAperture_of_ignored (fun hb => ?_) _ v
    by_contra hcap
    exact h (.inr ⟨b, 0, hb, hlo, hhi, widthBytes_pos w, by omega⟩)

/-- Settles O50: an access with no error response is the write itself, which `write_of_busyDrops` and
`write_of_not_busyDrops` decide; no error response depends on PHASE (`access_error`). -/
theorem busyWritesAreDropped : Obligations.BusyWritesAreDropped := by
  intro s w off v hbusy
  refine ⟨by rw [State.access_error, State.access_error], fun hok => ?_⟩
  have hwrite : (s.access (.write w off v)).1 = s.write w off v := by
    obtain ⟨-, -, hacts⟩ := busErrorRule s (.write w off v)
    exact (hacts hok).2 w off v rfl
  rw [hwrite]
  refine ⟨fun hdrops => State.write_of_busyDrops hbusy hdrops v, ?_, ?_,
    fun hdrops hstatus hintEn => State.write_of_not_busyDrops hdrops hstatus hintEn v⟩
  · rintro rfl
    exact s.write_offset w .status v
  · rintro rfl
    exact s.write_offset w .intEn v

end Sys2Proof.Machine
end

section
/-! The reset input and the state after reset (70_reset_and_hazards R130 to R132). -/

namespace Sys2Proof.Machine

/-! ### The reset input -/

theorem State.popTurn_of_schedule_cons {s : State} {t : Turn} {r : List Turn} (h : s.schedule = t :: r) :
    s.popTurn = { s with schedule := r } := by
  simp only [State.popTurn, h, List.tail_cons]

theorem step_of_schedule_cons {s : State} {t : Turn} {r : List Turn} (h : s.schedule = t :: r) :
    step s = { s with schedule := r }.turnStep t := by
  rw [step, State.turn_of_schedule_cons h, State.popTurn_of_schedule_cons h]

/-- No access is accepted while rst is asserted. -/
theorem State.access_of_rst {s : State} (hr : s.rst = true) (a : Access) :
    s.access a = (s, { error := true, data := 0 }) := by
  rcases s.access_cases a with ⟨-, h⟩ | ⟨hlow, -⟩
  · exact h
  · exact absurd hr (by simp [hlow])

/-- No completion step is taken while rst is asserted. -/
theorem State.sequencerTurn_of_rst {s : State} (hr : s.rst = true) : s.sequencerTurn = .next s := by
  unfold State.sequencerTurn
  split
  · rfl
  · exact if_pos hr

/-- The state after reset, but for the model's own fields (log 10) and a new draw for the buffers (log 9). -/
theorem State.deassertRst_of_rst {s : State} (hr : s.rst = true) : s.deassertRst = { State.resetWith s.cfg with
    program := s.program, hpc := s.hpc, readData := s.readData, schedule := s.schedule, bufDraw := s.bufDraw + 1,
    rngDraw := s.rngDraw } := if_pos hr

/-- Settles O54: each move is the turn the schedule names (`step_of_schedule_cons`). -/
theorem resetInputAbandonsCommand : Obligations.ResetInputAbandonsCommand := by
  intro s r
  refine ⟨fun hsched => ⟨_, step_of_schedule_cons hsched, rfl, rfl, rfl⟩, State.access_of_rst,
    fun hr hsched => ?sequencer, fun hr hsched => ?deassert⟩
  case sequencer =>
    rw [step_of_schedule_cons hsched]
    exact State.sequencerTurn_of_rst (s := { s with schedule := r }) hr
  case deassert =>
    rw [step_of_schedule_cons hsched]
    exact congrArg Host.Outcome.next (State.deassertRst_of_rst (s := { s with schedule := r }) hr)

/-! ### The state after reset -/

/-- The registers that R131 resets to 0. -/
def regsResetToZero : List Reg :=
  [.status, .errInfo, .errPos, .intEn, .inLen, .outLen, .pwLen, .saltLen, .ctLen, .iter, .halg, .saltgenLen, .alphaStat]

theorem State.readReg_resetWith (p : Params) {r : Reg} (hr : r ∈ regsResetToZero) :
    (State.resetWith p).readReg r = 0 := by
  cases r
  case id | cmd | caps | inCapR | outCapR | pwCapR | saltCapR | ctCapR => exact absurd hr (by decide)
  case status => exact (by decide : State.reset.status = 0)
  case errInfo => exact (by decide : ErrInfo.word {} = 0)
  all_goals rfl

/-- The custom slot holds 32 zero symbols after reset (10_state R39). -/
theorem State.read_customWindow_resetWith (p : Params) {v : Nat} (hv : v < 32) :
    (State.resetWith p).read .w8 (0x160 + v) = 0 := by
  have hzero : Table.zero.syms.getD v 0 = 0 := List.getD_replicate _ hv
  have hsymbol : symbolAt ((State.resetWith p).alpha (readbackAlpha (0x160 + v))) (BitVec.ofNat 5 (0x160 + v)) = 0 := by
    rw [show readbackAlpha (0x160 + v) = .custom from readbackAlpha_window .custom hv]
    exact (symbolAt_window Table.zero .custom hv).trans hzero
  rw [State.read_readback_byte _ (by omega) (by omega), ← joinLanes_zero 1]
  refine joinLanes_congr fun k hk => ?_
  obtain rfl : k = 0 := by omega
  exact hsymbol

/-- Settles O53: the registers named are those of `regsResetToZero`, and memory lists no byte. -/
theorem resetReadsAsListed : Obligations.ResetReadsAsListed := by
  rintro p _ rfl
  refine ⟨rfl, rfl, State.read_offset _ _ .id, fun off hoff => ?_, fun v => State.read_customWindow_resetWith p,
    fun b i => rfl⟩
  obtain ⟨r, hr, rfl⟩ : ∃ r ∈ regsResetToZero, r.offset = off := List.mem_map.1 hoff
  rw [State.read_offset, State.readReg_resetWith p hr]

/-- Settles O57: memory is empty, the custom slot is not loaded, OUT_LEN is 0 and the block is idle. -/
theorem resetSatisfiesInvariant : Obligations.ResetSatisfiesInvariant := fun p =>
  { mem_wf := Memory.wf_reset p
    mem_in_buffers := nofun
    custom_distinct := nofun
    custom_unloaded := fun _ => rfl
    success_clears := fun _ => ⟨rfl, rfl⟩
    out_fits := Nat.zero_le _
    busy_not_done := fun _ => rfl
    reset_idle := fun _ => rfl }

end Sys2Proof.Machine
end

section
/-! A codec command with a reserved ASEL (30_encoding R59, R62, R63). -/

namespace Sys2Proof.Machine

theorem alphaOfAsel_eq_none_iff (asel : BitVec 3) : alphaOfAsel asel = none ↔ 3 < asel.toNat := by
  revert asel; decide

theorem exec_b32Encode_of_reserved {asel : BitVec 3} (h : alphaOfAsel asel = none) (s : State) :
    exec (.b32Encode asel) s = .next (s.failed 0x02 .illegalCommand {} (encode (.b32Encode asel))) := by
  simp only [exec, execB32Encode, h]
  rfl

theorem exec_b32Decode_of_reserved {asel : BitVec 3} (h : alphaOfAsel asel = none) (s : State) :
    exec (.b32Decode asel) s = .next (s.failed 0x03 .illegalCommand {} (encode (.b32Decode asel))) := by
  simp only [exec, execB32Decode, h]
  rfl

/-- Settles O17: ASEL 4 to 7 name no alphabet (`alphaOfAsel_eq_none_iff`), and ERRPOS is the command's own word
(`encode_b32Encode`, `encode_b32Decode`). -/
theorem reservedAselIsIllegal : Obligations.ReservedAselIsIllegal := by
  intro s asel hreserved
  have hnone : alphaOfAsel asel = none := (alphaOfAsel_eq_none_iff asel).2 hreserved
  rw [← encode_b32Encode, ← encode_b32Decode]
  exact ⟨exec_b32Encode_of_reserved hnone s, exec_b32Decode_of_reserved hnone s⟩

end Sys2Proof.Machine
end
